-- ==== Sys2Proof/Word.lean ====
section
/-! DEFINITION. The word types of the S8B engine: a 64-bit register or code word and a byte of memory. -/

namespace Sys2Proof

/-- A register of the window, a command word, a code word or a stored value zero-extended
(10_state R22, 30_encoding R80, 40_kernels R125). -/
abbrev Word := BitVec 64

/-- The smallest addressable unit of memory (20_memory R60). -/
abbrev Byte := BitVec 8

end Sys2Proof
end

