-- ==== Sys2Proof/Syntax.lean ====
section
/-! DEFINITION. The syntax of the 18 commands (30_encoding R100 to R113): one constructor per row of the
opcode table, with the fields that row uses. -/

namespace Sys2Proof

/-- The stream format, the FMT field (30_encoding R101). -/
inductive Format where
  | current
  | legacy
  deriving DecidableEq, Repr

/-- The element width, the EW field (30_encoding R104). -/
inductive ElemWidth where
  | e64
  | e32
  | e16
  | e8
  deriving DecidableEq, Repr

/-- The predicate, the PRED field of CMP and CMPW (30_encoding R103). -/
inductive Pred where
  | eq
  | ne
  | lt
  | le
  | gt
  | ge
  | bw
  deriving DecidableEq, Repr

/-- The commands, one constructor per row of the opcode table (30_encoding R113). A field that a command
ignores (30_encoding R107) is no argument of its constructor. PACKW's selector is a number; `Instr.wellFormed`
says that it fits its 4-bit field. -/
inductive Instr where
  | encode (ew : ElemWidth) (fmt : Format)
  | decode (ew : ElemWidth) (fmt : Format)
  | count (fmt : Format)
  | cmpEq (fmt : Format)
  | cmpNe (fmt : Format)
  | cmpLt (fmt : Format)
  | cmpLe (fmt : Format)
  | cmpGt (fmt : Format)
  | cmpGe (fmt : Format)
  | cmpBw (fmt : Format)
  | packw (ew : ElemWidth) (fmt : Format) (sel : Nat)
  | cmpwEq (fmt : Format)
  | cmpwNe (fmt : Format)
  | cmpwLt (fmt : Format)
  | cmpwLe (fmt : Format)
  | cmpwGt (fmt : Format)
  | cmpwGe (fmt : Format)
  | cmpwBw (fmt : Format)
  deriving DecidableEq, Repr

end Sys2Proof
end

