-- ==== Sys2Proof/WellFormed.lean ====
section
/-! DEFINITION. Which terms of `Instr` are commands: the selector of PACKW is one of 0 to 15
(30_encoding R105). The other fields have types with exactly the values the encoding admits, and
every combination of them is a command (30_encoding R101, R104, R107). -/

namespace Sys2Proof

/-- A command whose fields fit their places in the command word (30_encoding R100, R105). -/
def Instr.wellFormed : Instr → Bool
  | .encode _ _ => true
  | .decode _ _ => true
  | .count _ => true
  | .cmpEq _ => true
  | .cmpNe _ => true
  | .cmpLt _ => true
  | .cmpLe _ => true
  | .cmpGt _ => true
  | .cmpGe _ => true
  | .cmpBw _ => true
  | .packw _ _ sel => decide (sel < 16)
  | .cmpwEq _ => true
  | .cmpwNe _ => true
  | .cmpwLt _ => true
  | .cmpwLe _ => true
  | .cmpwGt _ => true
  | .cmpwGe _ => true
  | .cmpwBw _ => true

end Sys2Proof
end

