-- ==== Sys2Proof/Decode.lean ====
section
/-! DEFINITION. Decoding a command word (30_encoding R108) and, after it, encoding a command (30_encoding R100,
R111). Decoding is total on 64-bit words and rejects by name. The command word is one 64-bit register
value (30_encoding R100); it is never laid out in memory, so no byte order arises here. -/

namespace Sys2Proof

/-- Why a command word is illegal, one name per cause (30_encoding R109). -/
inductive Reject where
  /-- a bit of 63:14 is set (30_encoding R106) -/
  | reservedBits
  /-- OP is 0x0 or 0x7 to 0xF (30_encoding R102) -/
  | noSuchOp
  /-- PRED is 7 on CMP or CMPW (30_encoding R103) -/
  | noSuchPred
  deriving DecidableEq, Repr

/-- The field of bits `hi` down to `lo` of a word, as a number (00_scope R9). -/
def field (hi lo : Nat) (v : Word) : Nat :=
  (v.extractLsb hi lo).toNat

/-- FMT, bit 9 (30_encoding R101). -/
def fmtOf (v : Word) : Format :=
  if v.getLsbD 9 then .legacy else .current

/-- EW, bits 8:7 (30_encoding R104). -/
def ewOf (v : Word) : ElemWidth :=
  match field 8 7 v with
  | 0 => .e64
  | 1 => .e32
  | 2 => .e16
  | _ => .e8

/-- PRED, bits 6:4; 7 is no predicate (30_encoding R103). -/
def predOf (v : Word) : Option Pred :=
  match field 6 4 v with
  | 0 => some .eq
  | 1 => some .ne
  | 2 => some .lt
  | 3 => some .le
  | 4 => some .gt
  | 5 => some .ge
  | 6 => some .bw
  | _ => none

/-- The CMP command of a predicate (30_encoding R113). -/
def cmpInstr : Pred → Format → Instr
  | .eq, fmt => .cmpEq fmt
  | .ne, fmt => .cmpNe fmt
  | .lt, fmt => .cmpLt fmt
  | .le, fmt => .cmpLe fmt
  | .gt, fmt => .cmpGt fmt
  | .ge, fmt => .cmpGe fmt
  | .bw, fmt => .cmpBw fmt

/-- The CMPW command of a predicate (30_encoding R113). -/
def cmpwInstr : Pred → Format → Instr
  | .eq, fmt => .cmpwEq fmt
  | .ne, fmt => .cmpwNe fmt
  | .lt, fmt => .cmpwLt fmt
  | .le, fmt => .cmpwLe fmt
  | .gt, fmt => .cmpwGt fmt
  | .ge, fmt => .cmpwGe fmt
  | .bw, fmt => .cmpwBw fmt

/-- The command that a command word stands for, or why it stands for none (30_encoding R108). -/
def decodeCmd (v : Word) : Except Reject Instr :=
  if field 63 14 v ≠ 0 then .error .reservedBits
  else
    match field 3 0 v with
    | 1 => .ok (.encode (ewOf v) (fmtOf v))
    | 2 => .ok (.decode (ewOf v) (fmtOf v))
    | 3 => .ok (.count (fmtOf v))
    | 4 =>
      match predOf v with
      | some p => .ok (cmpInstr p (fmtOf v))
      | none => .error .noSuchPred
    | 5 => .ok (.packw (ewOf v) (fmtOf v) (field 13 10 v))
    | 6 =>
      match predOf v with
      | some p => .ok (cmpwInstr p (fmtOf v))
      | none => .error .noSuchPred
    | _ => .error .noSuchOp

/-- The instruction read from a row of the opcode table whose bits are `w`, or none. A row is one 64-bit
command word (30_encoding R100), so a value that does not fit 64 bits is no command. -/
def decodeTableWord (nbits w : Nat) : Option Instr :=
  if w % 2 ^ nbits < 2 ^ 64 then
    match decodeCmd (BitVec.ofNat 64 (w % 2 ^ nbits)) with
    | .ok i => some i
    | .error _ => none
  else none

/-- A row of the opcode map: a word belongs to it when its masked bits are the pattern (30_encoding R113). -/
structure OpcodeRow where
  pattern : Word
  mask : Word
  instr : Word → Instr

/-- The opcode map, row by row (30_encoding R113). -/
def opcodeMap : List OpcodeRow :=
  [⟨0x01#64, 0xFFFFFFFFFFFFC00F#64, fun v => .encode (ewOf v) (fmtOf v)⟩,
   ⟨0x02#64, 0xFFFFFFFFFFFFC00F#64, fun v => .decode (ewOf v) (fmtOf v)⟩,
   ⟨0x03#64, 0xFFFFFFFFFFFFC00F#64, fun v => .count (fmtOf v)⟩,
   ⟨0x04#64, 0xFFFFFFFFFFFFC07F#64, fun v => .cmpEq (fmtOf v)⟩,
   ⟨0x14#64, 0xFFFFFFFFFFFFC07F#64, fun v => .cmpNe (fmtOf v)⟩,
   ⟨0x24#64, 0xFFFFFFFFFFFFC07F#64, fun v => .cmpLt (fmtOf v)⟩,
   ⟨0x34#64, 0xFFFFFFFFFFFFC07F#64, fun v => .cmpLe (fmtOf v)⟩,
   ⟨0x44#64, 0xFFFFFFFFFFFFC07F#64, fun v => .cmpGt (fmtOf v)⟩,
   ⟨0x54#64, 0xFFFFFFFFFFFFC07F#64, fun v => .cmpGe (fmtOf v)⟩,
   ⟨0x64#64, 0xFFFFFFFFFFFFC07F#64, fun v => .cmpBw (fmtOf v)⟩,
   ⟨0x05#64, 0xFFFFFFFFFFFFC00F#64, fun v => .packw (ewOf v) (fmtOf v) (field 13 10 v)⟩,
   ⟨0x06#64, 0xFFFFFFFFFFFFC07F#64, fun v => .cmpwEq (fmtOf v)⟩,
   ⟨0x16#64, 0xFFFFFFFFFFFFC07F#64, fun v => .cmpwNe (fmtOf v)⟩,
   ⟨0x26#64, 0xFFFFFFFFFFFFC07F#64, fun v => .cmpwLt (fmtOf v)⟩,
   ⟨0x36#64, 0xFFFFFFFFFFFFC07F#64, fun v => .cmpwLe (fmtOf v)⟩,
   ⟨0x46#64, 0xFFFFFFFFFFFFC07F#64, fun v => .cmpwGt (fmtOf v)⟩,
   ⟨0x56#64, 0xFFFFFFFFFFFFC07F#64, fun v => .cmpwGe (fmtOf v)⟩,
   ⟨0x66#64, 0xFFFFFFFFFFFFC07F#64, fun v => .cmpwBw (fmtOf v)⟩]

/-! The encoder: every ignored field and every reserved bit is 0 (30_encoding R111). -/

/-- The FMT bit (30_encoding R101). -/
def fmtBits : Format → Nat
  | .current => 0
  | .legacy => 1

/-- The EW field (30_encoding R104). -/
def ewBits : ElemWidth → Nat
  | .e64 => 0
  | .e32 => 1
  | .e16 => 2
  | .e8 => 3

/-- The PRED field (30_encoding R103). -/
def predBits : Pred → Nat
  | .eq => 0
  | .ne => 1
  | .lt => 2
  | .le => 3
  | .gt => 4
  | .ge => 5
  | .bw => 6

/-- A command word from its five fields (30_encoding R100). -/
def assemble (op pred ew fmt sel : Nat) : Word :=
  BitVec.ofNat 64 op ||| BitVec.ofNat 64 pred <<< 4 ||| BitVec.ofNat 64 ew <<< 7 |||
    BitVec.ofNat 64 fmt <<< 9 ||| BitVec.ofNat 64 sel <<< 10

/-- The command word of a command (30_encoding R111, R113). -/
def encode : Instr → Word
  | .encode ew fmt => assemble 1 0 (ewBits ew) (fmtBits fmt) 0
  | .decode ew fmt => assemble 2 0 (ewBits ew) (fmtBits fmt) 0
  | .count fmt => assemble 3 0 0 (fmtBits fmt) 0
  | .cmpEq fmt => assemble 4 0 0 (fmtBits fmt) 0
  | .cmpNe fmt => assemble 4 1 0 (fmtBits fmt) 0
  | .cmpLt fmt => assemble 4 2 0 (fmtBits fmt) 0
  | .cmpLe fmt => assemble 4 3 0 (fmtBits fmt) 0
  | .cmpGt fmt => assemble 4 4 0 (fmtBits fmt) 0
  | .cmpGe fmt => assemble 4 5 0 (fmtBits fmt) 0
  | .cmpBw fmt => assemble 4 6 0 (fmtBits fmt) 0
  | .packw ew fmt sel => assemble 5 0 (ewBits ew) (fmtBits fmt) sel
  | .cmpwEq fmt => assemble 6 0 0 (fmtBits fmt) 0
  | .cmpwNe fmt => assemble 6 1 0 (fmtBits fmt) 0
  | .cmpwLt fmt => assemble 6 2 0 (fmtBits fmt) 0
  | .cmpwLe fmt => assemble 6 3 0 (fmtBits fmt) 0
  | .cmpwGt fmt => assemble 6 4 0 (fmtBits fmt) 0
  | .cmpwGe fmt => assemble 6 5 0 (fmtBits fmt) 0
  | .cmpwBw fmt => assemble 6 6 0 (fmtBits fmt) 0

end Sys2Proof
end

