-- ==== Sys2Proof/Config.lean ====
section
/-! DEFINITION. What the spec leaves to the implementation or leaves unspecified: the open parameters
ID_VALUE and BASE (00_scope R8), and the free values (93_implementation_defined U1, U8, U9, U12).
Each is a constant with no body, so no proof can see which value it is. MEM_OK, the third open parameter,
is plain data in State (`memMap`), because it may change between two commands. -/

namespace Sys2Proof

/-- `ID_VALUE`, what register ID reads (00_scope R8, 10_state R23; U4). -/
opaque Config.idValue : Word

/-- `BASE`, the host address of the register window (00_scope R8, 10_state R20; U5). The spec gives host addresses no width:
DESIGN CHOICE 64 bits (log 2). -/
opaque Config.base : Word

/-- A byte the spec calls unspecified: the free value number `n` at memory address `a`
(60_exceptions R280, 70_reset_and_hazards R301; U1, U9, U12). -/
opaque Config.freeByte : (n a : Nat) → Byte

/-- A 64-bit register value the spec calls unspecified: the free value number `n`, output `which`
(0 is RESULT, 1 is WORD; 70_reset_and_hazards R309; U9). -/
opaque Config.freeWord : (n which : Nat) → Word

/-- An outcome the spec leaves open among several: the free choice number `n`
(70_reset_and_hazards R309, 20_memory R72; U8, U9). -/
opaque Config.freeChoice : (n : Nat) → Nat

end Sys2Proof
end

