-- ==== Sys2Proof/Machine/State.lean ====
section
/-! DEFINITION. The state of the S8B engine as plain data: the register window (10_state), the memory
(20_memory R60), and the model's own fields (the inputs still to come, the platform's MEM_OK, what the last host
read returned, the counter of free values). Views that the spec computes from these (STATUS, ERR, the phase,
IRQ) are functions, in Machine/Flags.lean. -/

namespace Sys2Proof.Machine

/-- The error codes of STATUS.ERRCODE (60_exceptions R271); codes 8 to 15 are never produced. -/
inductive ErrCode where
  | none
  | invalidBufferLength
  | valueOutOfBounds
  | destinationTooSmall
  | illegalCommand
  | unsupportedFormat
  | addressRange
  | busError
  deriving DecidableEq, Repr

/-- The two kinds of byte access of the memory port (20_memory R64). -/
inductive AccessKind where
  | read
  | write
  deriving DecidableEq, Repr

/-- What is special about a region of addresses: which accesses the platform refuses (MEM_OK false,
20_memory R64), or that reads have side effects (20_memory R69). -/
inductive RegionKind where
  | noRead
  | noWrite
  | noAccess
  | device
  deriving DecidableEq, Repr

/-- A range of addresses and what is special about it. -/
structure Region where
  base : Nat
  size : Nat
  kind : RegionKind
  deriving DecidableEq, Repr

/-- The memory (20_memory R60): the bytes that differ from what an unlisted address reads as, by strictly
rising address. -/
structure Memory where
  cells : List Host.Cell
  deriving DecidableEq, Repr

/-- One action from outside the engine. -/
inductive HostOp where
  /-- the host writes `value` at window offset `offset`, with an access of `width` bits (10_state R21) -/
  | regWrite (offset width : Nat) (value : Word)
  /-- the host reads `width` bits at window offset `offset` (10_state R21) -/
  | regRead (offset width : Nat)
  /-- the host writes bytes to memory, the first at `addr` (30_encoding R112 MEMW) -/
  | memWrite (addr : Word) (bytes : List Byte)
  /-- the host reads the byte of memory at `addr` -/
  | memRead (addr : Word)
  /-- the platform asserts the reset input (70_reset_and_hazards R300) -/
  | reset
  /-- the platform changes MEM_OK between two commands (00_scope R8) -/
  | setMemMap (map : List Region)
  deriving DecidableEq, Repr

/-- Who moves in one step: host and engine interleave in any order (00_scope R12). -/
inductive Turn where
  | host (op : HostOp)
  | engine
  /-- a host register write and the engine's completion in the same step (10_state R26) -/
  | both (offset width : Nat) (value : Word)
  deriving DecidableEq, Repr

/-- The state of the machine. The registers are those of 10_state R22, less ID, which reads a constant
(10_state R23). -/
structure State where
  /-- CTRL.IE (10_state R24) -/
  ie : Bool
  /-- STATUS.BUSY (10_state R25); the phase is RUN exactly when it is set (10_state R45) -/
  busy : Bool
  /-- STATUS.DONE (10_state R26) -/
  done : Bool
  /-- STATUS.OVR (10_state R28) -/
  ovr : Bool
  /-- STATUS.ERRCODE (10_state R29) -/
  errCode : ErrCode
  /-- CMD (10_state R31) -/
  cmd : Word
  /-- SRC_ADDR (10_state R32) -/
  srcAddr : Word
  /-- SRC_LEN (10_state R33) -/
  srcLen : Word
  /-- DST_ADDR (10_state R34) -/
  dstAddr : Word
  /-- DST_LEN (10_state R35) -/
  dstLen : Word
  /-- MINV (10_state R36) -/
  minv : Word
  /-- MAXV (10_state R37) -/
  maxv : Word
  /-- OPA (10_state R38) -/
  opa : Word
  /-- OPB (10_state R39) -/
  opb : Word
  /-- WORD (10_state R40) -/
  word : Word
  /-- MASK (10_state R41) -/
  mask : Word
  /-- RESULT (10_state R42) -/
  result : Word
  /-- the memory (20_memory R60) -/
  mem : Memory
  /-- the platform's MEM_OK and device windows (00_scope R8, 20_memory R64 and R69; log 3 and log 14) -/
  memMap : List Region
  /-- the model's own: the host wrote into the running command's buffers
  (70_reset_and_hazards R308, R309; log 11) -/
  disturbed : Bool
  /-- the model's own: who moves next; when it is empty the engine moves (log 6) -/
  turns : List Turn
  /-- the model's own: what the host's last read returned (log 7) -/
  readData : Word
  /-- the model's own: how many free values have been used (log 8) -/
  freeCount : Nat
  deriving DecidableEq, Repr

/-- Why the machine stops with a fault. -/
inductive Fault where
  /-- Raised by a host memory access that goes past the last of the 2^64 addresses (20_memory R60); no such byte
  exists. Safe: the hardware has nothing there to do. -/
  | addressOutsideMemory
  deriving DecidableEq, Repr

/-- Why a step has no meaning. -/
inductive Refusal where
  /-- Raised by `exec` for an instruction without a meaning; no arm uses it. Safe. -/
  | notModelled (mnemonic : String)
  /-- Raised by a host register access that is not an aligned 64-bit access inside the window
  (10_state R21, U7: "refuse"). Safe: the spec gives it no meaning. -/
  | registerAccess
  /-- Raised by a command that is about to access memory while one of its buffers lies in memory whose reads have
  side effects (20_memory R69, U10: "refuse: outside the defined interface"). Safe. -/
  | deviceBuffer
  /-- Raised when the platform would change MEM_OK while a command runs (00_scope R8: "fixed for the duration of one
  command"). Safe: the spec excludes it. -/
  | memMapWhileBusy
  deriving DecidableEq, Repr

/-- The machine right after reset (10_state R51, 70_reset_and_hazards R302): every register 0, phase IDLE. Memory is not
reset; here nothing has been written to it yet. The last five fields are the model's own or the platform's
(DESIGN CHOICE, log 3, 6, 7, 8, 11). -/
def State.reset : State where
  ie := false
  busy := false
  done := false
  ovr := false
  errCode := .none
  cmd := 0
  srcAddr := 0
  srcLen := 0
  dstAddr := 0
  dstLen := 0
  minv := 0
  maxv := 0
  opa := 0
  opb := 0
  word := 0
  mask := 0
  result := 0
  mem := ⟨[]⟩
  memMap := []
  disturbed := false
  turns := []
  readData := 0
  freeCount := 0

end Sys2Proof.Machine
end

