-- ==== Sys2Proof/Machine/Flags.lean ====
section
/-! DEFINITION. The views that the spec computes from the stored fields: the numbers of the error codes, STATUS and CTRL as
64-bit words, the phase, and the interrupt line. The engine has no other flags (10_state R49). -/

namespace Sys2Proof.Machine

/-- The number of an error code (60_exceptions R271). -/
def ErrCode.code : ErrCode → Nat
  | .none => 0
  | .invalidBufferLength => 1
  | .valueOutOfBounds => 2
  | .destinationTooSmall => 3
  | .illegalCommand => 4
  | .unsupportedFormat => 5
  | .addressRange => 6
  | .busError => 7

/-- STATUS.ERR: ERRCODE is not 0 (10_state R27). -/
def State.err (s : State) : Bool :=
  decide (s.errCode.code ≠ 0)

/-- STATUS as the host reads it: BUSY, DONE, ERR, OVR, ERRCODE in bits 7:4, and 0 above (10_state R25 to R30). -/
def State.statusWord (s : State) : Word :=
  BitVec.ofNat 64 (s.busy.toNat + 2 * s.done.toNat + 4 * s.err.toNat + 8 * s.ovr.toNat + 16 * s.errCode.code)

/-- CTRL as the host reads it: IE in bit 0, and 0 above (10_state R24). -/
def State.ctrlWord (s : State) : Word :=
  BitVec.ofNat 64 s.ie.toNat

/-- The engine's phase (10_state R45). -/
inductive Phase where
  | idle
  | run
  deriving DecidableEq, Repr

/-- The phase is RUN exactly when STATUS.BUSY is 1 (10_state R45). -/
def State.phase (s : State) : Phase :=
  if s.busy then .run else .idle

/-- The interrupt output `IRQ` (10_state R44, 60_exceptions R283). -/
def State.irq (s : State) : Bool :=
  s.ie && s.done

end Sys2Proof.Machine
end

