-- ==== Sys2Proof/Machine/Kernels.lean ====
section
/-! DEFINITION. The selector table (30_encoding R85 to R90) and the per-selector kernels as pure functions
(40_kernels R120 to R134): FOR arithmetic, pack, unpack, predicates, compare. -/

namespace Sys2Proof.Machine

/-! ## The selector table -/

/-- `Ncap(fmt, s)`: how many values a word of selector `s` holds (30_encoding R86). -/
def ncap : Format → Nat → Nat
  | .current, s => [128, 128, 60, 30, 20, 15, 12, 10, 8, 7, 6, 5, 4, 3, 2, 1].getD s 0
  | .legacy, s => [240, 120, 60, 30, 20, 15, 12, 10, 8, 7, 6, 5, 4, 3, 2, 1].getD s 0

/-- `Bw(s)`: the slot width of selector `s` in 2 to 15 (30_encoding R87); not applied to 0 and 1. -/
def bw (s : Nat) : Nat :=
  [1, 2, 3, 4, 5, 6, 7, 8, 10, 12, 15, 20, 30, 60].getD (s - 2) 0

/-- `isRun(s)` (30_encoding R88). -/
def isRun (s : Nat) : Bool :=
  s == 0 || s == 1

/-- `runVal(fmt, s)`: the value a run selector repeats (30_encoding R89). -/
def runVal : Format → Nat → Word
  | .current, s => if s = 0 then 0 else 1
  | .legacy, _ => 1

/-- The selectors 2 to 15 in rising order. -/
def packedSelectors : List Nat :=
  List.range' 2 14

/-- `selForBits(w)`: the smallest packed selector whose slots hold `w` bits, for `w` up to 60 (30_encoding R90). -/
def selForBits (w : Nat) : Nat :=
  (packedSelectors.find? fun s => decide (w ≤ bw s)).getD 15

/-- The selector of a code word, bits 63:60 (30_encoding R80, 40_kernels R134). -/
def selOf (w : Word) : Nat :=
  (w >>> 60).toNat

/-- `bitlen(v)` (00_scope R9). -/
def bitlen (v : Word) : Nat :=
  if v = 0 then 0 else v.toNat.log2 + 1

/-! ## Frame of reference -/

/-- The element width in bits (30_encoding R104). -/
def ewBitCount : ElemWidth → Nat
  | .e64 => 64
  | .e32 => 32
  | .e16 => 16
  | .e8 => 8

/-- `EB`, the element size in bytes (30_encoding R104). -/
def ewByteCount : ElemWidth → Nat
  | .e64 => 8
  | .e32 => 4
  | .e16 => 2
  | .e8 => 1

/-- `forSub(v, m, EW)`: the difference modulo 2^EW, zero-extended (40_kernels R120). -/
def forSub (v m : Word) (ew : ElemWidth) : Word :=
  (v.setWidth (ewBitCount ew) - m.setWidth (ewBitCount ew)).setWidth 64

/-- `forAdd(x, m, EW)`: the sum modulo 2^EW, zero-extended (40_kernels R121). -/
def forAdd (x m : Word) (ew : ElemWidth) : Word :=
  ((x + m).setWidth (ewBitCount ew)).setWidth 64

/-! ## Pack and unpack -/

/-- The payload of a packed word with slots of `b` bits, value 0 lowest (30_encoding R82, 40_kernels R122). The slots of
values that fit do not meet, so OR is the rule's sum (log 19). -/
def packSlots (b : Nat) : List Word → Word
  | [] => 0
  | u :: us => u ||| packSlots b us <<< b

/-- `packWord(s, u)`, selector 2 to 15 (40_kernels R122). -/
def packWord (s : Nat) (u : List Word) : Word :=
  BitVec.ofNat 64 s <<< 60 ||| packSlots (bw s) u

/-- `packRun(s)`, selector 0 or 1 (40_kernels R123). -/
def packRun (s : Nat) : Word :=
  BitVec.ofNat 64 s <<< 60

/-- Value `i` of a word with slots of `b` bits, zero-extended (30_encoding R82). -/
def slot (w : Word) (b i : Nat) : Word :=
  (w.extractLsb' (i * b) b).setWidth 64

/-- `unpackWord(fmt, w)`: the stored values of a word (40_kernels R124). -/
def unpackWord (fmt : Format) (w : Word) : List Word :=
  if isRun (selOf w) then List.replicate (ncap fmt (selOf w)) (runVal fmt (selOf w))
  else (List.range (ncap fmt (selOf w))).map fun i => slot w (bw (selOf w)) i

/-- The logical value sequence of a stream (30_encoding R92). -/
def streamValues (fmt : Format) (ws : List Word) : List Word :=
  ws.flatMap (unpackWord fmt)

/-- `countValues(fmt, stream)`, a function of the selectors alone (42_decode R204). -/
def countValues (fmt : Format) (ws : List Word) : Nat :=
  (ws.map fun w => ncap fmt (selOf w)).sum

/-- `fits(s, u)`: the values fill a packed word of selector `s` (40_kernels R133). -/
def fits (s : Nat) (u : List Word) : Bool :=
  decide (u.length = ncap .current s) && u.all fun x => decide (x.toNat < 2 ^ bw s)

/-- One value fits selector `s` of the current format: it is the run value, or it fits a slot
(40_kernels R133, R135). -/
def fitsOne (s : Nat) (u : Word) : Bool :=
  if isRun s then decide (u = runVal .current s) else decide (u.toNat < 2 ^ bw s)

/-! ## Compare -/

/-- `P(p, x, a, b)`: the predicate on one stored value, unsigned at 64 bits (40_kernels R125, R127). -/
def predHolds : Pred → (x a b : Word) → Bool
  | .eq, x, a, _ => x == a
  | .ne, x, a, _ => !(x == a)
  | .lt, x, a, _ => !(decide (a ≤ x))
  | .le, x, a, _ => !(decide (a < x))
  | .gt, x, a, _ => decide (a < x)
  | .ge, x, a, _ => decide (a ≤ x)
  | .bw, x, a, b => decide (x - a ≤ b - a)

/-- The mask whose bit `i` is entry `i` of a list (40_kernels R128). -/
def maskOf : List Bool → Word
  | [] => 0
  | h :: hs => BitVec.ofNat 64 h.toNat ||| maskOf hs <<< 1

/-- `maskWidth(fmt, s)` (40_kernels R132). -/
def maskWidth (fmt : Format) (s : Nat) : Nat :=
  if isRun s then 1 else ncap fmt s

/-- `cmpKernel(fmt, p, w, a, b)`: how many values the word holds and the mask of those that satisfy the predicate; one bit
for all values of a run word (40_kernels R128, R129). -/
def cmpKernel (fmt : Format) (p : Pred) (w a b : Word) : Nat × Word :=
  if isRun (selOf w) then
    (ncap fmt (selOf w), BitVec.ofNat 64 (predHolds p (runVal fmt (selOf w)) a b).toNat)
  else
    (ncap fmt (selOf w), maskOf ((unpackWord fmt w).map fun x => predHolds p x a b))

/-- The kernel whose mask NE, LT and LE negate (40_kernels R125, R126). -/
def positivePred : Pred → Pred
  | .eq => .eq
  | .ne => .eq
  | .lt => .ge
  | .le => .gt
  | .gt => .gt
  | .ge => .ge
  | .bw => .bw

/-- The predicates that the source evaluates by negating another's mask (40_kernels R126). -/
def negatedPred : Pred → Bool
  | .ne => true
  | .lt => true
  | .le => true
  | .eq => false
  | .gt => false
  | .ge => false
  | .bw => false

/-- The mask as the source's kernels compute it: the positive mask, negated over its valid bits for NE, LT and LE
(40_kernels R126). -/
def kernelMask (fmt : Format) (p : Pred) (w a b : Word) : Word :=
  let positive := (cmpKernel fmt (positivePred p) w a b).2
  if negatedPred p then ~~~positive &&& ((1#64 <<< maskWidth fmt (selOf w)) - 1#64) else positive

/-- The result bit of each value of a word, in order (43_compare R231). -/
def wordHits (fmt : Format) (p : Pred) (w a b : Word) : List Bool :=
  (List.range (cmpKernel fmt p w a b).1).map fun i =>
    (cmpKernel fmt p w a b).2.getLsbD (if isRun (selOf w) then 0 else i)

end Sys2Proof.Machine
end

