-- ==== Sys2Proof/Machine/Ops.lean ====
section
/-! DEFINITION. The named operations over memory and registers: reading and writing bytes, MEM_OK, the memory port's
little-endian accesses, ranges and their checks, the unspecified bytes of a destination, and the four events that change
the whole register file: acceptance of a command, its completion without error, its completion with an error (the
engine's only kind of exception, 60_exceptions R285), and reset. -/

namespace Sys2Proof.Machine

/-! ## Memory -/

/-- One more than the last address (20_memory R60). -/
def memSize : Nat := 2 ^ 64

/-- What a byte of memory that nothing has written reads as. DESIGN CHOICE (log 4): 0, the start state of
95_test_vectors section 0; the spec says only that memory is not reset (10_state R51). -/
def unlisted : Byte := 0

/-- The byte listed at an address, or what an unlisted address reads as. -/
def readCells : List Host.Cell → Nat → Byte
  | [], _ => unlisted
  | (k, b) :: rest, a => if a = k then b else readCells rest a

/-- The list after a byte is written: rising addresses, and no entry for a byte that reads as unlisted. -/
def writeCells : List Host.Cell → Nat → Byte → List Host.Cell
  | [], a, b => if b = unlisted then [] else [(a, b)]
  | (k, c) :: rest, a, b =>
    if a < k then (if b = unlisted then (k, c) :: rest else (a, b) :: (k, c) :: rest)
    else if a = k then (if b = unlisted then rest else (a, b) :: rest)
    else (k, c) :: writeCells rest a b

/-- The byte of memory at an address. -/
def Memory.read (m : Memory) (a : Nat) : Byte :=
  readCells m.cells a

/-- Memory after one byte is written. There is no byte past the last address (20_memory R60). -/
def Memory.write (m : Memory) (a : Nat) (b : Byte) : Memory :=
  if a < memSize then ⟨writeCells m.cells a b⟩ else m

/-- The canonical form: strictly rising addresses inside the address space, and no byte that equals what an
unlisted address reads as. -/
abbrev Memory.wf (m : Memory) : Prop :=
  m.cells.Pairwise (fun x y => x.1 < y.1) ∧ ∀ c ∈ m.cells, c.2 ≠ unlisted ∧ c.1 < memSize

/-- Memory after `n` bytes from `a` on are replaced, each as `f` says from its address and its old value. -/
def Memory.replace (f : Nat → Byte → Byte) (a : Nat) : Nat → Memory → Memory
  | 0, m => m
  | n + 1, m => Memory.replace f (a + 1) n (m.write a (f a (m.read a)))

/-- Memory after the bytes of a list are written from `a` on. -/
def Memory.writeBytes (a : Nat) : List Byte → Memory → Memory
  | [], m => m
  | b :: bs, m => Memory.writeBytes (a + 1) bs (m.write a b)

/-! ## The memory port -/

/-- A region covers an address. -/
def Region.covers (r : Region) (a : Nat) : Bool :=
  decide (r.base ≤ a) && decide (a < r.base + r.size)

/-- A region refuses an access of a kind. -/
def RegionKind.refuses : RegionKind → AccessKind → Bool
  | .noRead, .read => true
  | .noRead, .write => false
  | .noWrite, .read => false
  | .noWrite, .write => true
  | .noAccess, _ => true
  | .device, _ => false

/-- `MEM_OK(addr, kind)`: a one-byte access completes (00_scope R8, 20_memory R64). -/
def memOk (map : List Region) (a : Nat) (k : AccessKind) : Bool :=
  decide (a < memSize) && !(map.any fun r => r.covers a && r.kind.refuses k)

/-- `MemRead(addr, n)`, little-endian, or nothing where a byte access does not complete (00_scope R10,
20_memory R64). -/
def memRead (map : List Region) (m : Memory) (a : Nat) : Nat → Option Word
  | 0 => some 0
  | n + 1 =>
    if memOk map a .read then
      match memRead map m (a + 1) n with
      | some hi => some ((m.read a).setWidth 64 ||| hi <<< 8)
      | none => none
    else none

/-- `MemWrite(addr, n, v)`, little-endian, or nothing where a byte access does not complete (00_scope R10,
20_memory R64). -/
def memWrite (map : List Region) (m : Memory) (a : Nat) : Nat → Word → Option Memory
  | 0, _ => some m
  | n + 1, v =>
    if memOk map a .write then memWrite map (m.write a (v.setWidth 8)) (a + 1) n (v >>> 8)
    else none

/-- The code word at an address, whatever MEM_OK says (20_memory R63). -/
def wordAt (m : Memory) (a : Nat) : Word :=
  (memRead [] m a 8).getD 0

/-- The `n` code words of a stream at address `a`, in order (42_decode R200). -/
def wordsAt (m : Memory) (n a : Nat) : List Word :=
  (List.range n).map fun w => wordAt m (a + 8 * w)

/-- Element `i` of an array of `eb`-byte elements at address `a`, whatever MEM_OK says (20_memory R65). -/
def elemAt (m : Memory) (eb a i : Nat) : Word :=
  (memRead [] m (a + i * eb) eb).getD 0

/-! ## Ranges -/

/-- A range of bytes, in exact integer arithmetic (20_memory R61). -/
structure Span where
  start : Nat
  size : Nat
  deriving DecidableEq, Repr

/-- The source and destination range of a command; one it lacks has size 0 (20_memory R61). -/
structure Buffers where
  src : Span
  dst : Span
  deriving DecidableEq, Repr

/-- The range of a command that has none. -/
def Span.empty : Span := ⟨0, 0⟩

/-- An address lies in a range. -/
def Span.has (r : Span) (a : Nat) : Bool :=
  decide (r.start ≤ a) && decide (a < r.start + r.size)

/-- `wraps`: a non-empty range goes past 2^64 (20_memory R62). -/
def Span.wraps (r : Span) : Bool :=
  decide (0 < r.size) && decide (memSize < r.start + r.size)

/-- `overlap`: two non-empty ranges share a byte (20_memory R62). -/
def Span.overlaps (r t : Span) : Bool :=
  decide (0 < r.size) && decide (0 < t.size) && decide (r.start < t.start + t.size) &&
    decide (t.start < r.start + r.size)

/-- The range check of 20_memory R62 fails. -/
def Buffers.badRange (b : Buffers) : Bool :=
  b.src.wraps || b.dst.wraps || b.src.overlaps b.dst

/-- A buffer lies, in part at least, in memory whose reads have side effects (20_memory R69; U10). -/
def Buffers.onDevice (b : Buffers) (map : List Region) : Bool :=
  map.any fun r => decide (r.kind = .device) &&
    (b.src.overlaps ⟨r.base, r.size⟩ || b.dst.overlaps ⟨r.base, r.size⟩)

/-! ## Acceptance and completion -/

/-- A command word is accepted (10_state R31). -/
def State.accept (s : State) (v : Word) : State :=
  { s with cmd := v, busy := true, done := false, errCode := .none, disturbed := false }

/-- `complete(r)`: the command ends without error (60_exceptions R281). -/
def State.complete (s : State) (r : Word) : State :=
  { s with busy := false, done := true, errCode := .none, result := r, disturbed := false }

/-- `raise E`: the command ends with an error code, RESULT is 0, WORD and MASK are kept (60_exceptions R270, R280). -/
def State.raiseError (s : State) (e : ErrCode) : State :=
  { s with busy := false, done := true, errCode := e, result := 0, disturbed := false }

/-- The return from an error: the host's acknowledge, a write of STATUS with bit 1 set, clears DONE; ERRCODE and RESULT
stay (60_exceptions R284, R286). -/
def State.acknowledge (s : State) : State :=
  { s with done := false }

/-- Memory takes a new value. -/
def State.withMem (s : State) (m : Memory) : State :=
  { s with mem := m }

/-- WORD takes a new value (60_exceptions R281). -/
def State.withWord (s : State) (w : Word) : State :=
  { s with word := w }

/-- MASK takes a new value (60_exceptions R281). -/
def State.withMask (s : State) (w : Word) : State :=
  { s with mask := w }

/-- One more free value has been used. -/
def State.nextFree (s : State) : State :=
  { s with freeCount := s.freeCount + 1 }

/-! ## Unspecified outcomes -/

/-- Every byte of a range holds an unspecified value (60_exceptions R280; U1): one free byte per address. -/
def State.scramble (s : State) (r : Span) : State :=
  (s.withMem (s.mem.replace (fun a _ => Config.freeByte s.freeCount a) r.start r.size)).nextFree

/-- A late error: the destination range is unspecified, then the command ends with the error
(60_exceptions R280). -/
def State.raiseLate (s : State) (dst : Span) (e : ErrCode) : State :=
  (s.scramble dst).raiseError e

/-- The end of a command whose buffers the host wrote while it ran: any value in the destination range and in RESULT,
and success or any error code of `errs`, those that the command's pseudocode can raise for some bytes
(70_reset_and_hazards R308, R309; U9). `out` is the value WORD takes on success. -/
def State.endDisturbed (s : State) (dst : Span) (errs : List ErrCode) (out : Word) : State :=
  let t := s.scramble dst
  match errs[Config.freeChoice s.freeCount]? with
  | some e => { t.raiseError e with result := Config.freeWord s.freeCount 0 }
  | none => (t.withWord out).complete (Config.freeWord s.freeCount 0)

/-- A command that is about to access its buffers: refused where one lies in device memory (U10), with an open outcome where
the host disturbed it (U9), and otherwise ending in `settled`. A command with a non-empty range that would access no byte of it (an empty
input) counts as about to access it (DESIGN CHOICE, log 11 and log 14). -/
def State.onBuffers (s : State) (b : Buffers) (errs : List ErrCode) (out : Word) (settled : State) :
    Host.Outcome State Fault Refusal :=
  if b.onDevice s.memMap then .refused .deviceBuffer
  else if s.disturbed then .next (s.endDisturbed b.dst errs out)
  else .next settled

/-! ## Reset -/

/-- The registers after reset; memory, the platform's map and the model's own fields stay
(10_state R51, 70_reset_and_hazards R300). -/
def State.resetRegisters (s : State) : State :=
  { State.reset with
    mem := s.mem, memMap := s.memMap, turns := s.turns, readData := s.readData, freeCount := s.freeCount }

/-- The reset event, with `b` the running command's buffers: a command that runs is abandoned, and each byte of its
destination range that is no byte of its source range holds an unspecified value (70_reset_and_hazards R300, R301). -/
def State.resetEvent (s : State) (b : Buffers) : State :=
  if s.busy then
    ((s.resetRegisters).withMem
      (s.mem.replace (fun a old => if b.src.has a then old else Config.freeByte s.freeCount a)
        b.dst.start b.dst.size)).nextFree
  else s.resetRegisters

end Sys2Proof.Machine
end

