-- ==== Sys2Proof/Machine/Operands.lean ====
section
/-! DEFINITION. Where a command's operands are: the register window with the access rule of each register (10_state R20 to
R43, R52), and the source and destination range of each command (20_memory R61). -/

namespace Sys2Proof.Machine

/-! ## The register window -/

/-- The registers of the window (10_state R22). -/
inductive Reg where
  | id
  | ctrl
  | status
  | cmd
  | srcAddr
  | srcLen
  | dstAddr
  | dstLen
  | minv
  | maxv
  | opa
  | opb
  | word
  | mask
  | result
  deriving DecidableEq, Repr

/-- The register at an offset of the window, none where the slot is reserved (10_state R22). -/
def regAt : Nat → Option Reg
  | 0x00 => some .id
  | 0x08 => some .ctrl
  | 0x10 => some .status
  | 0x18 => some .cmd
  | 0x20 => some .srcAddr
  | 0x28 => some .srcLen
  | 0x30 => some .dstAddr
  | 0x38 => some .dstLen
  | 0x40 => some .minv
  | 0x48 => some .maxv
  | 0x50 => some .opa
  | 0x58 => some .opb
  | 0x60 => some .word
  | 0x68 => some .mask
  | 0x70 => some .result
  | _ => none

/-- The host address of the slot at an offset (10_state R20). The spec does not say what happens to a window that passes the top of
the host's address space: DESIGN CHOICE, the sum is modulo 2^64 (log 2). -/
def regAddress (offset : Nat) : Word :=
  Config.base + BitVec.ofNat 64 offset

/-- The offset in the window of a host address, none outside the 256 bytes (10_state R20); a window that passes the top goes on at
address 0 (DESIGN CHOICE, log 2). -/
def windowOffset (addr : Word) : Option Nat :=
  if (addr - Config.base).toNat < 256 then some (addr - Config.base).toNat else none

/-- A register access the interface defines: 64 bits wide, at a multiple of 8 inside the window (10_state R20, R21). -/
def definedAccess (offset width : Nat) : Bool :=
  decide (width = 64) && decide (offset % 8 = 0) && decide (offset < 256)

/-- What a host read of a register returns (10_state R22 to R42); ID reads ID_VALUE in every state (10_state R23). -/
def State.readReg (s : State) : Reg → Word
  | .id => Config.idValue
  | .ctrl => s.ctrlWord
  | .status => s.statusWord
  | .cmd => s.cmd
  | .srcAddr => s.srcAddr
  | .srcLen => s.srcLen
  | .dstAddr => s.dstAddr
  | .dstLen => s.dstLen
  | .minv => s.minv
  | .maxv => s.maxv
  | .opa => s.opa
  | .opb => s.opb
  | .word => s.word
  | .mask => s.mask
  | .result => s.result

/-- What a host read of a slot returns; a reserved slot reads 0 (10_state R52). -/
def State.readSlot (s : State) (offset : Nat) : Word :=
  match regAt offset with
  | some r => s.readReg r
  | none => 0

/-- A host write of STATUS: bit 1 clears DONE, as the acknowledge does, bit 3 clears OVR, and the rest is ignored
(10_state R26, R28, R30). -/
def State.writeStatus (s : State) (v : Word) : State :=
  let t := if v.getLsbD 1 then s.acknowledge else s
  if v.getLsbD 3 then { t with ovr := false } else t

/-- A host write of CMD: accepted when idle; dropped, with OVR set, when busy (10_state R28, R31). -/
def State.writeCmd (s : State) (v : Word) : State :=
  if s.busy then { s with ovr := true } else s.accept v

/-- A host write of an operand register, dropped while a command runs (10_state R43). -/
def State.writeOperand (s : State) (t : State) : State :=
  if s.busy then s else t

/-- A host write of a register; a read-only one ignores it (10_state R22 to R43). -/
def State.writeReg (s : State) (v : Word) : Reg → State
  | .id => s
  | .ctrl => { s with ie := v.getLsbD 0 }
  | .status => s.writeStatus v
  | .cmd => s.writeCmd v
  | .srcAddr => s.writeOperand { s with srcAddr := v }
  | .srcLen => s.writeOperand { s with srcLen := v }
  | .dstAddr => s.writeOperand { s with dstAddr := v }
  | .dstLen => s.writeOperand { s with dstLen := v }
  | .minv => s.writeOperand { s with minv := v }
  | .maxv => s.writeOperand { s with maxv := v }
  | .opa => s.writeOperand { s with opa := v }
  | .opb => s.writeOperand { s with opb := v }
  | .word => s.writeOperand { s with word := v }
  | .mask => s
  | .result => s

/-- A host write of a slot; a reserved slot ignores it (10_state R52). -/
def State.writeSlot (s : State) (offset : Nat) (v : Word) : State :=
  match regAt offset with
  | some r => s.writeReg v r
  | none => s

/-! ## The ranges of each command -/

/-- `ceil_div` (00_scope R9). -/
def ceilDiv (a b : Nat) : Nat :=
  (a + b - 1) / b

/-- The ranges of ENCODE (20_memory R61). -/
def encodeBuffers (ew : ElemWidth) (s : State) : Buffers :=
  ⟨⟨s.srcAddr.toNat, s.srcLen.toNat * ewByteCount ew⟩, ⟨s.dstAddr.toNat, s.dstLen.toNat⟩⟩

/-- The ranges of DECODE (20_memory R61). -/
def decodeBuffers (ew : ElemWidth) (s : State) : Buffers :=
  ⟨⟨s.srcAddr.toNat, s.srcLen.toNat⟩, ⟨s.dstAddr.toNat, s.dstLen.toNat * ewByteCount ew⟩⟩

/-- The ranges of COUNT (20_memory R61). -/
def countBuffers (s : State) : Buffers :=
  ⟨⟨s.srcAddr.toNat, s.srcLen.toNat⟩, Span.empty⟩

/-- The ranges of CMP (20_memory R61). -/
def cmpBuffers (s : State) : Buffers :=
  ⟨⟨s.srcAddr.toNat, s.srcLen.toNat⟩, ⟨s.dstAddr.toNat, ceilDiv s.dstLen.toNat 8⟩⟩

/-- The ranges of PACKW (20_memory R61). -/
def packwBuffers (ew : ElemWidth) (sel : Nat) (s : State) : Buffers :=
  ⟨⟨s.srcAddr.toNat, ncap .current sel * ewByteCount ew⟩, Span.empty⟩

/-- The ranges of CMPW: none (20_memory R61). -/
def cmpwBuffers : Buffers :=
  ⟨Span.empty, Span.empty⟩

/-- The ranges of a command in a state (20_memory R61). -/
def buffersOf : Instr → State → Buffers
  | .encode ew _, s => encodeBuffers ew s
  | .decode ew _, s => decodeBuffers ew s
  | .count _, s => countBuffers s
  | .cmpEq _, s => cmpBuffers s
  | .cmpNe _, s => cmpBuffers s
  | .cmpLt _, s => cmpBuffers s
  | .cmpLe _, s => cmpBuffers s
  | .cmpGt _, s => cmpBuffers s
  | .cmpGe _, s => cmpBuffers s
  | .cmpBw _, s => cmpBuffers s
  | .packw ew _ sel, s => packwBuffers ew sel s
  | .cmpwEq _, _ => cmpwBuffers
  | .cmpwNe _, _ => cmpwBuffers
  | .cmpwLt _, _ => cmpwBuffers
  | .cmpwLe _, _ => cmpwBuffers
  | .cmpwGt _, _ => cmpwBuffers
  | .cmpwGe _, _ => cmpwBuffers
  | .cmpwBw _, _ => cmpwBuffers

end Sys2Proof.Machine
end

