-- ==== Sys2Proof/Machine/Compare.lean ====
section
/-! DEFINITION. CMP, the compressed-domain comparison engine (43_compare): setting a bit, the loop over the stream, the
common command and its seven predicates; and the source's aggregation buffer with its flush, a second form of the same
effect (43_compare R234, R235). -/

namespace Sys2Proof.Machine

/-! ## Setting bits -/

/-- `setBit(A, j)`: a read-modify-write of one byte (43_compare R232, 20_memory R66). -/
def setBit (map : List Region) (base j : Nat) (m : Memory) : Option Memory :=
  match memRead map m (base + j / 8) 1 with
  | none => none
  | some b => memWrite map m (base + j / 8) 1 (b ||| 1#64 <<< (j % 8))

/-- The bits of one word's hits, from position `k` on; a position without a hit is not accessed
(43_compare R231 to R233). -/
def setHits (map : List Region) (base : Nat) : List Bool → (k : Nat) → Memory → Option Memory
  | [], _, m => some m
  | false :: hs, k, m => setHits map base hs (k + 1) m
  | true :: hs, k, m =>
    match setBit map base k m with
    | none => none
    | some m' => setHits map base hs (k + 1) m'

/-- What a comparison needs besides memory: format, predicate and operands (43_compare R240). -/
structure CmpArgs where
  fmt : Format
  pred : Pred
  a : Word
  b : Word
  deriving DecidableEq, Repr

/-- The result bits of one word (43_compare R230, R231). -/
def CmpArgs.hits (q : CmpArgs) (w : Word) : List Bool :=
  wordHits q.fmt q.pred w q.a q.b

/-- The compare engine's loop over `n` words from address `a` on, with logical position `k`: memory and the final position,
or the first error (43_compare R230, R240). -/
def cmpLoop (map : List Region) (q : CmpArgs) (dst cap : Nat) :
    (n a k : Nat) → Memory → Except ErrCode (Memory × Nat)
  | 0, _, k, m => .ok (m, k)
  | n + 1, a, k, m =>
    match memRead map m a 8 with
    | none => .error .busError
    | some w =>
      if cap < k + (q.hits w).length then .error .destinationTooSmall
      else
        match setHits map dst (q.hits w) k m with
        | none => .error .busError
        | some m' => cmpLoop map q dst cap n (a + 8) (k + (q.hits w).length) m'

/-! ## The bitset after an error -/

/-- The result bits of all positions of a stream of `n` words at address `a` (43_compare R231). -/
def streamHits (q : CmpArgs) (m : Memory) (n a : Nat) : List Bool :=
  (wordsAt m n a).flatMap q.hits

/-- The result bits of positions `8 * q` to `8 * q + 7` as a byte (20_memory R66). -/
def hitByte (hs : List Bool) (q : Nat) : Byte :=
  (maskOf ((hs.drop (8 * q)).take 8)).setWidth 8

/-- The bitset after a late error: a bit that was 1 stays 1, and another may become 1 only at a position with a hit
(60_exceptions R280, 43_compare R232; log 10). -/
def State.scrambleHits (s : State) (dst : Span) (hs : List Bool) : State :=
  (s.withMem
    (s.mem.replace (fun a old => old ||| Config.freeByte s.freeCount a &&& hitByte hs (a - dst.start))
      dst.start dst.size)).nextFree

/-! ## The commands -/

/-- The checks that CMP makes before any memory access, in order (43_compare R240). -/
def cmpCheck (s : State) : Option ErrCode :=
  if s.srcLen.toNat % 8 ≠ 0 then some .invalidBufferLength
  else if (cmpBuffers s).badRange then some .addressRange
  else none

/-- The arguments of CMP and CMPW in a state: val or lo is OPA, hi is OPB (10_state R38, R39). -/
def cmpArgs (p : Pred) (fmt : Format) (s : State) : CmpArgs :=
  ⟨fmt, p, s.opa, s.opb⟩

/-- CMP after its checks (43_compare R240; 60_exceptions R280). Bits of hits may rise after an error raised before any write too, where D23
and U1 leave memory unchanged (DESIGN CHOICE, log 10). -/
def cmpRun (p : Pred) (fmt : Format) (s : State) : State :=
  match cmpLoop s.memMap (cmpArgs p fmt s) s.dstAddr.toNat s.dstLen.toNat (s.srcLen.toNat / 8) s.srcAddr.toNat 0
      s.mem with
  | .error e =>
    (s.scrambleHits (cmpBuffers s).dst
      (streamHits (cmpArgs p fmt s) s.mem (s.srcLen.toNat / 8) s.srcAddr.toNat)).raiseError e
  | .ok (m, k) => (s.withMem m).complete (BitVec.ofNat 64 k)

/-- The common definition of the seven CMP commands (43_compare R240). An empty stream whose bitset the host wrote while the command
ran has the open outcome of U9 (DESIGN CHOICE, log 11). -/
def compareStream (p : Pred) (fmt : Format) (s : State) : Host.Outcome State Fault Refusal :=
  match cmpCheck s with
  | some e => .next (s.raiseError e)
  | none => s.onBuffers (cmpBuffers s) [.destinationTooSmall, .busError] s.word (cmpRun p fmt s)

/-- CMP.EQ (43_compare R241). -/
def execCmpEq (fmt : Format) (s : State) : Host.Outcome State Fault Refusal :=
  compareStream .eq fmt s

/-- CMP.NE (43_compare R242). -/
def execCmpNe (fmt : Format) (s : State) : Host.Outcome State Fault Refusal :=
  compareStream .ne fmt s

/-- CMP.LT (43_compare R243). -/
def execCmpLt (fmt : Format) (s : State) : Host.Outcome State Fault Refusal :=
  compareStream .lt fmt s

/-- CMP.LE (43_compare R244). -/
def execCmpLe (fmt : Format) (s : State) : Host.Outcome State Fault Refusal :=
  compareStream .le fmt s

/-- CMP.GT (43_compare R245). -/
def execCmpGt (fmt : Format) (s : State) : Host.Outcome State Fault Refusal :=
  compareStream .gt fmt s

/-- CMP.GE (43_compare R246). -/
def execCmpGe (fmt : Format) (s : State) : Host.Outcome State Fault Refusal :=
  compareStream .ge fmt s

/-- CMP.BW (43_compare R247). -/
def execCmpBw (fmt : Format) (s : State) : Host.Outcome State Fault Refusal :=
  compareStream .bw fmt s

/-! ## The aggregation buffer -/

/-- OR of a byte into memory; a zero byte is not accessed (43_compare R235). -/
def orByte (map : List Region) (a : Nat) (b : Byte) (m : Memory) : Option Memory :=
  if b = 0 then some m
  else
    match memRead map m a 1 with
    | none => none
    | some old => memWrite map m a 1 (old ||| b.setWidth 64)

/-- OR of the low `n` bytes of a word into memory, from address `a` on (43_compare R235). -/
def orBytes (map : List Region) : (n a : Nat) → (v : Word) → Memory → Option Memory
  | 0, _, _, m => some m
  | n + 1, a, v, m =>
    match orByte map a (v.setWidth 8) m with
    | none => none
    | some m' => orBytes map n (a + 1) (v >>> 8) m'

/-- The flush of `outn` buffered bits that end at position `k` (43_compare R235). -/
def flush (map : List Region) (dst : Nat) (out : Word) (outn k : Nat) (m : Memory) : Option Memory :=
  if out = 0 then some m
  else
    match orBytes map 8 (dst + (k - outn) / 8) (out <<< ((k - outn) % 8)) m with
    | none => none
    | some m' =>
      orByte map (dst + (k - outn) / 8 + 8)
        (if (k - outn) % 8 = 0 then 0 else (out >>> (64 - (k - outn) % 8)).setWidth 8) m'

/-- The source's procedure: matched bits of packed words gather in a 64-bit buffer that is flushed when the next merge
would exceed 64 bits, before a run word, and at stream end (43_compare R234). -/
def aggregateLoop (map : List Region) (q : CmpArgs) (dst cap : Nat) :
    (n a k : Nat) → (out : Word) → (outn : Nat) → Memory → Except ErrCode (Memory × Nat)
  | 0, _, k, out, outn, m =>
    match flush map dst out outn k m with
    | none => .error .busError
    | some m' => .ok (m', k)
  | n + 1, a, k, out, outn, m =>
    match memRead map m a 8 with
    | none => .error .busError
    | some w =>
      let nm := cmpKernel q.fmt q.pred w q.a q.b
      if cap < k + nm.1 then .error .destinationTooSmall
      else if isRun (selOf w) then
        match flush map dst out outn k m with
        | none => .error .busError
        | some m1 =>
          match (if nm.2 = 1 then setHits map dst (List.replicate nm.1 true) k m1 else some m1) with
          | none => .error .busError
          | some m2 => aggregateLoop map q dst cap n (a + 8) (k + nm.1) 0 0 m2
      else if 64 < outn + nm.1 then
        match flush map dst out outn k m with
        | none => .error .busError
        | some m1 => aggregateLoop map q dst cap n (a + 8) (k + nm.1) nm.2 nm.1 m1
      else aggregateLoop map q dst cap n (a + 8) (k + nm.1) (out ||| nm.2 <<< outn) (outn + nm.1) m

end Sys2Proof.Machine
end

