-- ==== Sys2Proof/Machine/Encoder.lean ====
section
/-! DEFINITION. ENCODE (41_encode): the validation pass, the run detector, the selector choice, word emission, the
command; and the source's greedy selector procedure, a second form of the choice (41_encode R176). -/

namespace Sys2Proof.Machine

/-! ## From stored values to code words -/

/-- The run detector: at least 128 values remain, the first is 0 or 1, and the next 128 equal it (41_encode R174). -/
def runDetected : List Word → Bool
  | [] => false
  | x :: xs =>
    decide (128 ≤ (x :: xs).length) && decide (x ≤ 1) && ((x :: xs).take 128).all fun y => y == x

/-- `chooseSel`: the smallest packed selector whose capacity the values left fill and whose slots hold them
(41_encode R175). -/
def chooseSel (u : List Word) : Nat :=
  (packedSelectors.find? fun s => fits s (u.take (ncap .current s))).getD 15

/-- The next code word and how many values it covers (41_encode R174, R175). -/
def nextWord (u : List Word) : Word × Nat :=
  if runDetected u then (packRun (u.headD 0).toNat, 128)
  else (packWord (chooseSel u) (u.take (ncap .current (chooseSel u))), ncap .current (chooseSel u))

/-- The code words of the values left; every word covers at least one value, so `fuel` values need at most `fuel` words
(41_encode R180, encoding pass). -/
def encodeFrom : (fuel : Nat) → List Word → List Word
  | 0, _ => []
  | _ + 1, [] => []
  | fuel + 1, u => (nextWord u).1 :: encodeFrom fuel (u.drop (nextWord u).2)

/-- The stream that ENCODE makes of a stored-value sequence (41_encode R180). -/
def encodeStream (u : List Word) : List Word :=
  encodeFrom u.length u

/-! ## The greedy form of the selector choice -/

/-- The growing loop of the greedy procedure: `i` values taken so far, their maximum `m`, the selector `s` they need, the
values left after them. It answers the selector of an early exit, or where it stopped (41_encode R176). -/
def greedyGrow (a top : Nat) : (rest : List Word) → (i m s : Nat) → Sum Nat (Nat × Nat)
  | [], i, _, s => .inr (i, s)
  | x :: xs, i, m, s =>
    let m2 := max m x.toNat
    let s2 := selForBits (bitlen (BitVec.ofNat 64 m2))
    if ncap .current s2 < i + 1 then .inr (i, s)
    else if i + 1 = ncap .current s2 then .inr (i + 1, s2)
    else if s2 = top ∧ ncap .current top ≤ a then .inl top
    else greedyGrow a top xs (i + 1) m2 s2

/-- `greedySel`: grow, then widen when the word is not full (41_encode R176). -/
def greedySel (u : List Word) (maxLog2 : Nat) : Nat :=
  match greedyGrow u.length (selForBits maxLog2) u 0 0 2 with
  | .inl top => top
  | .inr (i, s) =>
    if i < ncap .current s then
      (packedSelectors.find? fun t => decide (s ≤ t) && decide (ncap .current t ≤ i)).getD 15
    else s

/-! ## The passes over memory -/

/-- The validation pass over `n` elements from address `a` on: the stored values, or the first error in index order
(41_encode R170, R173). -/
def validate (map : List Region) (mem : Memory) (ew : ElemWidth) (minv : Word) (maxLog2 : Nat) :
    (n a : Nat) → Except ErrCode (List Word)
  | 0, _ => .ok []
  | n + 1, a =>
    match memRead map mem a (ewByteCount ew) with
    | none => .error .busError
    | some v =>
      if maxLog2 < bitlen (forSub v minv ew) then .error .valueOutOfBounds
      else
        match validate map mem ew minv maxLog2 n (a + ewByteCount ew) with
        | .ok us => .ok (forSub v minv ew :: us)
        | .error e => .error e

/-- Word emission from word number `w` on: capacity check, then the write (41_encode R177). -/
def emitWords (map : List Region) (dst cap : Nat) : List Word → (w : Nat) → Memory → Except ErrCode Memory
  | [], _, m => .ok m
  | x :: xs, w, m =>
    if cap < 8 * (w + 1) then .error .destinationTooSmall
    else
      match memWrite map m (dst + 8 * w) 8 x with
      | none => .error .busError
      | some m' => emitWords map dst cap xs (w + 1) m'

/-! ## The command -/

/-- `maxLog2` (41_encode R172). -/
def maxLog2 (ew : ElemWidth) (s : State) : Nat :=
  bitlen (forSub s.maxv s.minv ew)

/-- The checks that ENCODE makes before any memory access, in order (41_encode R180). -/
def encodeCheck (ew : ElemWidth) (fmt : Format) (s : State) : Option ErrCode :=
  if fmt = .legacy then some .unsupportedFormat
  else if s.dstLen.toNat % 8 ≠ 0 then some .invalidBufferLength
  else if (encodeBuffers ew s).badRange then some .addressRange
  else if s.srcLen = 0 then none
  else if 60 < maxLog2 ew s then some .valueOutOfBounds
  else none

/-- ENCODE after its checks: an error of the validation pass leaves memory unchanged, one of the encoding pass leaves the
destination unspecified (41_encode R171, R180; 60_exceptions R280), also one raised before any write, where D23 and U1 leave memory
unchanged (DESIGN CHOICE, log 9). -/
def encodeRun (ew : ElemWidth) (s : State) : State :=
  if s.srcLen = 0 then s.complete 0
  else
    match validate s.memMap s.mem ew s.minv (maxLog2 ew s) s.srcLen.toNat s.srcAddr.toNat with
    | .error e => s.raiseError e
    | .ok u =>
      match emitWords s.memMap s.dstAddr.toNat s.dstLen.toNat (encodeStream u) 0 s.mem with
      | .error e => s.raiseLate (encodeBuffers ew s).dst e
      | .ok m => (s.withMem m).complete (BitVec.ofNat 64 (8 * (encodeStream u).length))

/-- ENCODE (41_encode R180). An empty input whose destination range the host wrote while the command ran has the open outcome of U9,
not RESULT 0 of 41_encode R171 (DESIGN CHOICE, log 11). -/
def execEncode (ew : ElemWidth) (fmt : Format) (s : State) : Host.Outcome State Fault Refusal :=
  match encodeCheck ew fmt s with
  | some e => .next (s.raiseError e)
  | none =>
    s.onBuffers (encodeBuffers ew s) [.valueOutOfBounds, .destinationTooSmall, .busError] s.word (encodeRun ew s)

end Sys2Proof.Machine
end

