-- ==== Sys2Proof/Machine/StreamReader.lean ====
section
/-! DEFINITION. DECODE and COUNT (42_decode). -/

namespace Sys2Proof.Machine

/-! ## DECODE -/

/-- The element writes of one word's values, from address `a` on, or nothing where a byte write does not complete
(42_decode R201, R202). -/
def writeElems (map : List Region) (ew : ElemWidth) (minv : Word) : List Word → (a : Nat) → Memory → Option Memory
  | [], _, m => some m
  | x :: xs, a, m =>
    match memWrite map m a (ewByteCount ew) (forAdd x minv ew) with
    | none => none
    | some m' => writeElems map ew minv xs (a + ewByteCount ew) m'

/-- The decoder's loop over `n` words from address `a` on, with `c` elements written so far: memory and the final count, or
the first error (42_decode R200 to R203, R205). -/
def decodeLoop (map : List Region) (fmt : Format) (ew : ElemWidth) (minv : Word) (dst cap : Nat) :
    (n a c : Nat) → Memory → Except ErrCode (Memory × Nat)
  | 0, _, c, m => .ok (m, c)
  | n + 1, a, c, m =>
    match memRead map m a 8 with
    | none => .error .busError
    | some w =>
      if cap < c + (unpackWord fmt w).length then .error .destinationTooSmall
      else
        match writeElems map ew minv (unpackWord fmt w) (dst + c * ewByteCount ew) m with
        | none => .error .busError
        | some m' => decodeLoop map fmt ew minv dst cap n (a + 8) (c + (unpackWord fmt w).length) m'

/-- The checks that DECODE makes before any memory access, in order (42_decode R205). -/
def decodeCheck (ew : ElemWidth) (s : State) : Option ErrCode :=
  if s.srcLen.toNat % 8 ≠ 0 then some .invalidBufferLength
  else if (decodeBuffers ew s).badRange then some .addressRange
  else none

/-- DECODE after its checks; an error leaves the destination unspecified (42_decode R205; 60_exceptions R280), also one raised before any
write, where D23 and U1 leave memory unchanged (DESIGN CHOICE, log 9). -/
def decodeRun (ew : ElemWidth) (fmt : Format) (s : State) : State :=
  match decodeLoop s.memMap fmt ew s.minv s.dstAddr.toNat s.dstLen.toNat (s.srcLen.toNat / 8) s.srcAddr.toNat 0
      s.mem with
  | .error e => s.raiseLate (decodeBuffers ew s).dst e
  | .ok (m, c) => (s.withMem m).complete (BitVec.ofNat 64 c)

/-- DECODE (42_decode R205). An empty stream whose destination range the host wrote while the command ran has the open outcome of U9
(DESIGN CHOICE, log 11). -/
def execDecode (ew : ElemWidth) (fmt : Format) (s : State) : Host.Outcome State Fault Refusal :=
  match decodeCheck ew s with
  | some e => .next (s.raiseError e)
  | none => s.onBuffers (decodeBuffers ew s) [.destinationTooSmall, .busError] s.word (decodeRun ew fmt s)

/-! ## COUNT -/

/-- The count over `n` words from address `a` on, reading byte 7 of each only, in a 64-bit accumulator
(42_decode R204, R206). -/
def countLoop (map : List Region) (mem : Memory) (fmt : Format) : (n a : Nat) → (c : Word) → Except ErrCode Word
  | 0, _, c => .ok c
  | n + 1, a, c =>
    match memRead map mem (a + 7) 1 with
    | none => .error .busError
    | some b => countLoop map mem fmt n (a + 8) (c + BitVec.ofNat 64 (ncap fmt (b >>> 4).toNat))

/-- The checks that COUNT makes before any memory access, in order (42_decode R206). -/
def countCheck (s : State) : Option ErrCode :=
  if s.srcLen.toNat % 8 ≠ 0 then some .invalidBufferLength
  else if (countBuffers s).badRange then some .addressRange
  else none

/-- COUNT after its checks; it writes no memory (42_decode R206). -/
def countRun (fmt : Format) (s : State) : State :=
  match countLoop s.memMap s.mem fmt (s.srcLen.toNat / 8) s.srcAddr.toNat 0 with
  | .error e => s.raiseError e
  | .ok c => s.complete c

/-- COUNT (42_decode R206). -/
def execCount (fmt : Format) (s : State) : Host.Outcome State Fault Refusal :=
  match countCheck s with
  | some e => .next (s.raiseError e)
  | none => s.onBuffers (countBuffers s) [.busError] s.word (countRun fmt s)

end Sys2Proof.Machine
end

