-- ==== Sys2Proof/Machine/WordCommands.lean ====
section
/-! DEFINITION. The commands on one code word (40_kernels): PACKW and the seven CMPW. -/

namespace Sys2Proof.Machine

/-! ## PACKW -/

/-- PACKW's loop over `n` elements from address `a` on: the stored values, or the first error in index order
(40_kernels R135). -/
def packElems (map : List Region) (mem : Memory) (ew : ElemWidth) (minv : Word) (sel : Nat) :
    (n a : Nat) → Except ErrCode (List Word)
  | 0, _ => .ok []
  | n + 1, a =>
    match memRead map mem a (ewByteCount ew) with
    | none => .error .busError
    | some v =>
      if fitsOne sel (forSub v minv ew) then
        match packElems map mem ew minv sel n (a + ewByteCount ew) with
        | .ok us => .ok (forSub v minv ew :: us)
        | .error e => .error e
      else .error .valueOutOfBounds

/-- The code word of a selector and the values that fit it (40_kernels R122, R123, R135). -/
def packBySel (sel : Nat) (u : List Word) : Word :=
  if isRun sel then packRun sel else packWord sel u

/-- The checks that PACKW makes before any memory access, in order (40_kernels R135). -/
def packwCheck (ew : ElemWidth) (fmt : Format) (sel : Nat) (s : State) : Option ErrCode :=
  if fmt = .legacy then some .unsupportedFormat
  else if (packwBuffers ew sel s).badRange then some .addressRange
  else none

/-- PACKW after its checks; it writes no memory (40_kernels R135). -/
def packwRun (ew : ElemWidth) (sel : Nat) (s : State) : State :=
  match packElems s.memMap s.mem ew s.minv sel (ncap .current sel) s.srcAddr.toNat with
  | .error e => s.raiseError e
  | .ok u => (s.withWord (packBySel sel u)).complete (BitVec.ofNat 64 (ncap .current sel))

/-- PACKW (40_kernels R135). -/
def execPackw (ew : ElemWidth) (fmt : Format) (sel : Nat) (s : State) : Host.Outcome State Fault Refusal :=
  match packwCheck ew fmt sel s with
  | some e => .next (s.raiseError e)
  | none =>
    s.onBuffers (packwBuffers ew sel s) [.valueOutOfBounds, .busError] (Config.freeWord s.freeCount 1)
      (packwRun ew sel s)

/-! ## CMPW -/

/-- The common definition of the seven CMPW commands: the kernel on WORD, its mask in MASK and its count in RESULT
(40_kernels R136). -/
def compareWord (p : Pred) (fmt : Format) (s : State) : Host.Outcome State Fault Refusal :=
  .next ((s.withMask (cmpKernel fmt p s.word s.opa s.opb).2).complete
    (BitVec.ofNat 64 (cmpKernel fmt p s.word s.opa s.opb).1))

/-- CMPW.EQ (40_kernels R137). -/
def execCmpwEq (fmt : Format) (s : State) : Host.Outcome State Fault Refusal :=
  compareWord .eq fmt s

/-- CMPW.NE (40_kernels R138). -/
def execCmpwNe (fmt : Format) (s : State) : Host.Outcome State Fault Refusal :=
  compareWord .ne fmt s

/-- CMPW.LT (40_kernels R139). -/
def execCmpwLt (fmt : Format) (s : State) : Host.Outcome State Fault Refusal :=
  compareWord .lt fmt s

/-- CMPW.LE (40_kernels R140). -/
def execCmpwLe (fmt : Format) (s : State) : Host.Outcome State Fault Refusal :=
  compareWord .le fmt s

/-- CMPW.GT (40_kernels R141). -/
def execCmpwGt (fmt : Format) (s : State) : Host.Outcome State Fault Refusal :=
  compareWord .gt fmt s

/-- CMPW.GE (40_kernels R142). -/
def execCmpwGe (fmt : Format) (s : State) : Host.Outcome State Fault Refusal :=
  compareWord .ge fmt s

/-- CMPW.BW (40_kernels R143). -/
def execCmpwBw (fmt : Format) (s : State) : Host.Outcome State Fault Refusal :=
  compareWord .bw fmt s

end Sys2Proof.Machine
end

