-- ==== Sys2Proof/Machine/Dispatch.lean ====
section
/-! DEFINITION. Which meaning each command has: one arm per row of the opcode table (30_encoding R113), in its order. -/

namespace Sys2Proof.Machine

def exec (i : Instr) (s : State) : Host.Outcome State Fault Refusal :=
  match i with
  | .encode ew fmt => Sys2Proof.Machine.execEncode ew fmt s
  | .decode ew fmt => Sys2Proof.Machine.execDecode ew fmt s
  | .count fmt => Sys2Proof.Machine.execCount fmt s
  | .cmpEq fmt => Sys2Proof.Machine.execCmpEq fmt s
  | .cmpNe fmt => Sys2Proof.Machine.execCmpNe fmt s
  | .cmpLt fmt => Sys2Proof.Machine.execCmpLt fmt s
  | .cmpLe fmt => Sys2Proof.Machine.execCmpLe fmt s
  | .cmpGt fmt => Sys2Proof.Machine.execCmpGt fmt s
  | .cmpGe fmt => Sys2Proof.Machine.execCmpGe fmt s
  | .cmpBw fmt => Sys2Proof.Machine.execCmpBw fmt s
  | .packw ew fmt sel => Sys2Proof.Machine.execPackw ew fmt sel s
  | .cmpwEq fmt => Sys2Proof.Machine.execCmpwEq fmt s
  | .cmpwNe fmt => Sys2Proof.Machine.execCmpwNe fmt s
  | .cmpwLt fmt => Sys2Proof.Machine.execCmpwLt fmt s
  | .cmpwLe fmt => Sys2Proof.Machine.execCmpwLe fmt s
  | .cmpwGt fmt => Sys2Proof.Machine.execCmpwGt fmt s
  | .cmpwGe fmt => Sys2Proof.Machine.execCmpwGe fmt s
  | .cmpwBw fmt => Sys2Proof.Machine.execCmpwBw fmt s

end Sys2Proof.Machine
end

