-- ==== Sys2Proof/Machine/Turns.lean ====
section
/-! DEFINITION. What each agent does in one step (00_scope R12): the engine takes its running command to completion
(70_reset_and_hazards R319), the host accesses the register window and memory, the platform resets the engine or changes
MEM_OK between commands. -/

namespace Sys2Proof.Machine

/-- The engine's turn: a running command goes to its completion, an illegal command word completes with ILLEGAL_COMMAND
(30_encoding R108, 60_exceptions R275), an idle engine does nothing (10_state R45). -/
def engineTurn (s : State) : Host.Outcome State Fault Refusal :=
  if s.busy then
    match decodeCmd s.cmd with
    | .ok i => exec i s
    | .error _ => .next (s.raiseError .illegalCommand)
  else .next s

/-- The ranges of the running command; an illegal command word has none (20_memory R61, 60_exceptions R275). -/
def runningBuffers (s : State) : Buffers :=
  match decodeCmd s.cmd with
  | .ok i => buffersOf i s
  | .error _ => cmpwBuffers

/-- The running command is a CMP, which only sets bits (43_compare R232). -/
def onlySetsBits (s : State) : Bool :=
  decide (field 3 0 s.cmd = 4)

/-- A destination byte as a host read during RUN sees it: any value it held since acceptance (20_memory R72; U8). It held its
value now, then what the command leaves there, and for CMP, in between, any part of the bits that the command sets;
once the host has disturbed the command, anything (U9). When the command's turn is refused because a buffer lies in device memory (U10),
the spec gives the read no value and the byte is free (DESIGN CHOICE, log 12). -/
def heldByte (s : State) (a : Nat) : Byte :=
  if s.disturbed then Config.freeByte s.freeCount a
  else
    match engineTurn s with
    | .next t =>
      if onlySetsBits s then s.mem.read a ||| Config.freeByte s.freeCount a &&& t.mem.read a
      else if Config.freeChoice s.freeCount = 0 then s.mem.read a
      else t.mem.read a
    | .fault _ => Config.freeByte s.freeCount a
    | .refused _ => Config.freeByte s.freeCount a

/-- A host write of a slot of the window; any access but an aligned 64-bit one is refused (10_state R21). -/
def hostRegWrite (s : State) (offset width : Nat) (value : Word) : Host.Outcome State Fault Refusal :=
  if definedAccess offset width then .next (s.writeSlot offset value) else .refused .registerAccess

/-- A host read of a slot of the window; any access but an aligned 64-bit one is refused (10_state R21). -/
def hostRegRead (s : State) (offset width : Nat) : Host.Outcome State Fault Refusal :=
  if definedAccess offset width then .next { s with readData := s.readSlot offset } else .refused .registerAccess

/-- A host write of bytes of memory. One that reaches a buffer of the running command leaves that command's outcome open
(70_reset_and_hazards R308, R309; U9). MEM_OK does not apply to the host, and a byte of a device region is written as any other
(DESIGN CHOICE, log 17 and log 24). -/
def hostMemWrite (s : State) (addr : Word) (bytes : List Byte) : Host.Outcome State Fault Refusal :=
  if memSize < addr.toNat + bytes.length then .fault .addressOutsideMemory
  else
    .next { s with
      mem := Memory.writeBytes addr.toNat bytes s.mem
      disturbed := s.disturbed || s.busy &&
        (Span.overlaps ⟨addr.toNat, bytes.length⟩ (runningBuffers s).src ||
          Span.overlaps ⟨addr.toNat, bytes.length⟩ (runningBuffers s).dst) }

/-- A host read of a byte of memory; a destination byte of the running command reads as `heldByte` says
(20_memory R72). MEM_OK does not apply to the host, and a read of a device region returns the byte without a side effect
(DESIGN CHOICE, log 17 and log 24), but for the destination bytes of a running command with a buffer there (log 12). -/
def hostMemRead (s : State) (addr : Word) : State :=
  if s.busy && (runningBuffers s).dst.has addr.toNat then
    { s.nextFree with readData := (heldByte s addr.toNat).setWidth 64 }
  else { s with readData := (s.mem.read addr.toNat).setWidth 64 }

/-- The platform changes MEM_OK, between two commands only (00_scope R8). -/
def changeMemMap (s : State) (map : List Region) : Host.Outcome State Fault Refusal :=
  if s.busy then .refused .memMapWhileBusy else .next { s with memMap := map }

/-- One action from outside the engine. -/
def hostTurn (op : HostOp) (s : State) : Host.Outcome State Fault Refusal :=
  match op with
  | .regWrite offset width value => hostRegWrite s offset width value
  | .regRead offset width => hostRegRead s offset width
  | .memWrite addr bytes => hostMemWrite s addr bytes
  | .memRead addr => .next (hostMemRead s addr)
  | .reset => .next (s.resetEvent (runningBuffers s))
  | .setMemMap map => changeMemMap s map

/-- A host register write in the very step of a completion: the write meets the engine still busy, and the completion's
values win (10_state R26; log 15). With no command running it is a host write. -/
def bothTurn (s : State) (offset width : Nat) (value : Word) : Host.Outcome State Fault Refusal :=
  if definedAccess offset width then
    if s.busy then engineTurn (s.writeSlot offset value) else .next (s.writeSlot offset value)
  else .refused .registerAccess

/-- What happens in a turn. -/
def takeTurn (t : Turn) (s : State) : Host.Outcome State Fault Refusal :=
  match t with
  | .host op => hostTurn op s
  | .engine => engineTurn s
  | .both offset width value => bothTurn s offset width value

end Sys2Proof.Machine
end

