-- ==== Sys2Proof/Machine/Step.lean ====
section
/-! DEFINITION. One step of the machine: the next turn of the list; when the list is empty, the engine's turn. -/

namespace Sys2Proof.Machine

/-- The machine takes the next turn (00_scope R12; log 6). -/
def step (s : State) : Host.Outcome State Fault Refusal :=
  match s.turns with
  | [] => engineTurn s
  | t :: ts => takeTurn t { s with turns := ts }

/-- The state in which the command word `w` of `nbits` bits has just been accepted and the engine moves next, so that the
next step runs it (10_state R31; log 6). It stands for the host's write of CMD. -/
def State.withFetchWord (s : State) (nbits w : Nat) : State :=
  { s.accept (BitVec.ofNat 64 (w % 2 ^ nbits)) with turns := [] }

end Sys2Proof.Machine
end

