-- ==== Sys2Proof/Safety.lean ====
section
/-! DEFINITION. The terms in which the statements speak: the invariant of the machine, the bytes an access needs, and, for each
command, the state in which it completes with its own effect: the host's duties kept (70_reset_and_hazards R305 to R309), the
checks passed, the bytes accessible and the destination large enough. -/

namespace Sys2Proof.Machine

/-- What every step keeps: memory in canonical form; while a command runs, DONE and ERRCODE are clear (10_state R26, R29, R31);
MASK holds at most 60 bits (40_kernels R132); only a running command can be disturbed (log 11). -/
abbrev State.Inv (s : State) : Prop :=
  s.mem.wf ∧ (s.busy = true → s.done = false ∧ s.errCode = .none) ∧ s.mask.toNat < 2 ^ 60 ∧
    (s.disturbed = true → s.busy = true)

/-- `n` bytes from address `a` on can be read (20_memory R64). -/
abbrev readable (map : List Region) (a n : Nat) : Prop :=
  ∀ i < n, memOk map (a + i) .read = true

/-- `n` bytes from address `a` on can be written (20_memory R64). -/
abbrev writable (map : List Region) (a n : Nat) : Prop :=
  ∀ i < n, memOk map (a + i) .write = true

/-- The host kept its duties towards a command with these buffers: it wrote none of their bytes while the command runs, and none of
them is in device memory (70_reset_and_hazards R308, R309; 20_memory R69). -/
abbrev State.calm (s : State) (b : Buffers) : Prop :=
  s.disturbed = false ∧ b.onDevice s.memMap = false

/-- A command has ended without error: what completion does to the registers, with this RESULT, WORD, MASK and memory
(60_exceptions R281). -/
def State.endedWith (s : State) (result word mask : Word) (mem : Memory) : State :=
  { s with busy := false, done := true, errCode := .none, disturbed := false,
           result := result, word := word, mask := mask, mem := mem }

/-- A command has ended with an error code before it wrote memory (60_exceptions R280). -/
def State.failedWith (s : State) (e : ErrCode) : State :=
  { s with busy := false, done := true, errCode := e, disturbed := false, result := 0 }

/-- A command has ended with an error code after it may have written memory, which is now `m`; one free value has been used
(60_exceptions R280). -/
def State.failedLate (s : State) (e : ErrCode) (m : Memory) : State :=
  { s.failedWith e with mem := m, freeCount := s.freeCount + 1 }

/-- Two memories agree outside a range. -/
abbrev agreeOutside (r : Span) (m k : Memory) : Prop :=
  ∀ a, r.has a = false → m.read a = k.read a

/-! ## Command words -/

/-- The illegal command words (30_encoding R109). -/
abbrev illegalWord (v : Word) : Prop :=
  field 63 14 v ≠ 0 ∨ field 3 0 v = 0 ∨ 7 ≤ field 3 0 v ∨
    ((field 3 0 v = 4 ∨ field 3 0 v = 6) ∧ field 6 4 v = 7)

/-- The bits of the command word that a command does not ignore (30_encoding R100, R107). -/
def usedBits : Instr → Word
  | .encode _ _ => 0xFFFFFFFFFFFFC38F#64
  | .decode _ _ => 0xFFFFFFFFFFFFC38F#64
  | .count _ => 0xFFFFFFFFFFFFC20F#64
  | .cmpEq _ => 0xFFFFFFFFFFFFC27F#64
  | .cmpNe _ => 0xFFFFFFFFFFFFC27F#64
  | .cmpLt _ => 0xFFFFFFFFFFFFC27F#64
  | .cmpLe _ => 0xFFFFFFFFFFFFC27F#64
  | .cmpGt _ => 0xFFFFFFFFFFFFC27F#64
  | .cmpGe _ => 0xFFFFFFFFFFFFC27F#64
  | .cmpBw _ => 0xFFFFFFFFFFFFC27F#64
  | .packw _ _ _ => 0xFFFFFFFFFFFFFF8F#64
  | .cmpwEq _ => 0xFFFFFFFFFFFFC27F#64
  | .cmpwNe _ => 0xFFFFFFFFFFFFC27F#64
  | .cmpwLt _ => 0xFFFFFFFFFFFFC27F#64
  | .cmpwLe _ => 0xFFFFFFFFFFFFC27F#64
  | .cmpwGt _ => 0xFFFFFFFFFFFFC27F#64
  | .cmpwGe _ => 0xFFFFFFFFFFFFC27F#64
  | .cmpwBw _ => 0xFFFFFFFFFFFFC27F#64

/-- The error codes that a command can end with (60_exceptions R271). -/
def mayRaise : Instr → List ErrCode
  | .encode _ _ => [.invalidBufferLength, .valueOutOfBounds, .destinationTooSmall, .unsupportedFormat, .addressRange,
      .busError]
  | .decode _ _ => [.invalidBufferLength, .destinationTooSmall, .addressRange, .busError]
  | .count _ => [.invalidBufferLength, .addressRange, .busError]
  | .cmpEq _ => [.invalidBufferLength, .destinationTooSmall, .addressRange, .busError]
  | .cmpNe _ => [.invalidBufferLength, .destinationTooSmall, .addressRange, .busError]
  | .cmpLt _ => [.invalidBufferLength, .destinationTooSmall, .addressRange, .busError]
  | .cmpLe _ => [.invalidBufferLength, .destinationTooSmall, .addressRange, .busError]
  | .cmpGt _ => [.invalidBufferLength, .destinationTooSmall, .addressRange, .busError]
  | .cmpGe _ => [.invalidBufferLength, .destinationTooSmall, .addressRange, .busError]
  | .cmpBw _ => [.invalidBufferLength, .destinationTooSmall, .addressRange, .busError]
  | .packw _ _ _ => [.valueOutOfBounds, .unsupportedFormat, .addressRange, .busError]
  | .cmpwEq _ => []
  | .cmpwNe _ => []
  | .cmpwLt _ => []
  | .cmpwLe _ => []
  | .cmpwGt _ => []
  | .cmpwGe _ => []
  | .cmpwBw _ => []

/-- A command writes WORD: PACKW (10_state R40). -/
def writesWord : Instr → Bool
  | .packw _ _ _ => true
  | .encode _ _ => false
  | .decode _ _ => false
  | .count _ => false
  | .cmpEq _ => false
  | .cmpNe _ => false
  | .cmpLt _ => false
  | .cmpLe _ => false
  | .cmpGt _ => false
  | .cmpGe _ => false
  | .cmpBw _ => false
  | .cmpwEq _ => false
  | .cmpwNe _ => false
  | .cmpwLt _ => false
  | .cmpwLe _ => false
  | .cmpwGt _ => false
  | .cmpwGe _ => false
  | .cmpwBw _ => false

/-- A command writes MASK: the seven CMPW (10_state R41). -/
def writesMask : Instr → Bool
  | .cmpwEq _ => true
  | .cmpwNe _ => true
  | .cmpwLt _ => true
  | .cmpwLe _ => true
  | .cmpwGt _ => true
  | .cmpwGe _ => true
  | .cmpwBw _ => true
  | .encode _ _ => false
  | .decode _ _ => false
  | .count _ => false
  | .cmpEq _ => false
  | .cmpNe _ => false
  | .cmpLt _ => false
  | .cmpLe _ => false
  | .cmpGt _ => false
  | .cmpGe _ => false
  | .cmpBw _ => false
  | .packw _ _ _ => false

/-- A command has a destination range in memory: ENCODE, DECODE and the seven CMP (20_memory R61). -/
def writesMemory : Instr → Bool
  | .encode _ _ => true
  | .decode _ _ => true
  | .cmpEq _ => true
  | .cmpNe _ => true
  | .cmpLt _ => true
  | .cmpLe _ => true
  | .cmpGt _ => true
  | .cmpGe _ => true
  | .cmpBw _ => true
  | .count _ => false
  | .packw _ _ _ => false
  | .cmpwEq _ => false
  | .cmpwNe _ => false
  | .cmpwLt _ => false
  | .cmpwLe _ => false
  | .cmpwGt _ => false
  | .cmpwGe _ => false
  | .cmpwBw _ => false

/-- The offsets of the operand registers that a running command protects (10_state R43). -/
def operandOffsets : List Nat :=
  [0x20, 0x28, 0x30, 0x38, 0x40, 0x48, 0x50, 0x58, 0x60]

/-! ## Streams and arrays in memory -/

/-- The code words of the source stream (42_decode R200). -/
def srcWords (s : State) : List Word :=
  wordsAt s.mem (s.srcLen.toNat / 8) s.srcAddr.toNat

/-- The stored value of source element `i` (41_encode R170). -/
def srcValue (ew : ElemWidth) (s : State) (i : Nat) : Word :=
  forSub (elemAt s.mem (ewByteCount ew) s.srcAddr.toNat i) s.minv ew

/-- The stored values of the first `n` source elements (41_encode R170). -/
def srcStored (ew : ElemWidth) (s : State) (n : Nat) : List Word :=
  (List.range n).map (srcValue ew s)

/-- `hit(j)`: the predicate on stored value `j` of the source stream (43_compare R231). -/
def srcHit (p : Pred) (fmt : Format) (s : State) (j : Nat) : Bool :=
  match (streamValues fmt (srcWords s))[j]? with
  | some x => predHolds p x s.opa s.opb
  | none => false

/-- Bit `j` of the bitset at address `base` (20_memory R66). -/
def bitAt (m : Memory) (base j : Nat) : Bool :=
  (m.read (base + j / 8)).getLsbD (j % 8)

/-! ## When a command completes with its own effect -/

/-- PACKW completes: the source range does not wrap and can be read, and every value fits (40_kernels R135). -/
abbrev packwReady (ew : ElemWidth) (sel : Nat) (s : State) : Prop :=
  s.calm (packwBuffers ew sel s) ∧ (packwBuffers ew sel s).badRange = false ∧
    readable s.memMap s.srcAddr.toNat (ncap .current sel * ewByteCount ew) ∧
    (srcStored ew s (ncap .current sel)).all (fitsOne sel) = true

/-- ENCODE completes: the checks pass, the source can be read, every value is in range, and the stream fits the destination and can
be written (41_encode R180). -/
abbrev encodeReady (ew : ElemWidth) (s : State) : Prop :=
  s.calm (encodeBuffers ew s) ∧ s.dstLen.toNat % 8 = 0 ∧ (encodeBuffers ew s).badRange = false ∧
    (s.srcLen = 0 ∨ maxLog2 ew s ≤ 60) ∧
    readable s.memMap s.srcAddr.toNat (s.srcLen.toNat * ewByteCount ew) ∧
    ((srcStored ew s s.srcLen.toNat).all fun u => decide (bitlen u ≤ maxLog2 ew s)) = true ∧
    8 * (encodeStream (srcStored ew s s.srcLen.toNat)).length ≤ s.dstLen.toNat ∧
    writable s.memMap s.dstAddr.toNat (8 * (encodeStream (srcStored ew s s.srcLen.toNat)).length)

/-- A stream command's checks pass (42_decode R205, 43_compare R240). -/
abbrev streamChecks (b : Buffers) (s : State) : Prop :=
  s.calm b ∧ s.srcLen.toNat % 8 = 0 ∧ b.badRange = false

/-- A stream command's checks pass and its stream can be read (42_decode R205, 43_compare R240). -/
abbrev streamReady (b : Buffers) (s : State) : Prop :=
  streamChecks b s ∧ readable s.memMap s.srcAddr.toNat s.srcLen.toNat

/-- DECODE completes: the stream's values fit the destination, which can be written (42_decode R205). -/
abbrev decodeReady (ew : ElemWidth) (fmt : Format) (s : State) : Prop :=
  streamReady (decodeBuffers ew s) s ∧ countValues fmt (srcWords s) ≤ s.dstLen.toNat ∧
    writable s.memMap s.dstAddr.toNat (countValues fmt (srcWords s) * ewByteCount ew)

/-- COUNT completes: the checks pass and byte 7 of every word can be read (42_decode R206). -/
abbrev countReady (s : State) : Prop :=
  s.calm (countBuffers s) ∧ s.srcLen.toNat % 8 = 0 ∧ (countBuffers s).badRange = false ∧
    ∀ w < s.srcLen.toNat / 8, memOk s.memMap (s.srcAddr.toNat + 8 * w + 7) .read = true

/-- CMP can access the bitset bytes of all hits below position `k` (43_compare R233). -/
abbrev hitsAccessible (p : Pred) (fmt : Format) (s : State) (k : Nat) : Prop :=
  ∀ j < k, srcHit p fmt s j = true →
    memOk s.memMap (s.dstAddr.toNat + j / 8) .read = true ∧ memOk s.memMap (s.dstAddr.toNat + j / 8) .write = true

/-- CMP completes: the stream's positions fit the bitset, and every byte with a hit can be read and written
(43_compare R233, R240). -/
abbrev cmpReady (p : Pred) (fmt : Format) (s : State) : Prop :=
  streamReady (cmpBuffers s) s ∧ countValues fmt (srcWords s) ≤ s.dstLen.toNat ∧
    hitsAccessible p fmt s (countValues fmt (srcWords s))

/-! ## How far a command gets, word by word (60_exceptions R279) -/

/-- ENCODE gets to its encoding pass: the checks pass, the source can be read, and every value is in range (41_encode R180). -/
abbrev encodeValidated (ew : ElemWidth) (s : State) : Prop :=
  s.calm (encodeBuffers ew s) ∧ s.dstLen.toNat % 8 = 0 ∧ (encodeBuffers ew s).badRange = false ∧ maxLog2 ew s ≤ 60 ∧
    readable s.memMap s.srcAddr.toNat (s.srcLen.toNat * ewByteCount ew) ∧
    ∀ i < s.srcLen.toNat, bitlen (srcValue ew s i) ≤ maxLog2 ew s

/-- How many words ENCODE's stream has (41_encode R180). -/
def encodedLength (ew : ElemWidth) (s : State) : Nat :=
  (encodeStream (srcStored ew s s.srcLen.toNat)).length

/-- The first `w` words of ENCODE's output fit the destination and can be written (41_encode R177). -/
abbrev encodePast (s : State) (w : Nat) : Prop :=
  8 * w ≤ s.dstLen.toNat ∧ writable s.memMap s.dstAddr.toNat (8 * w)

/-- How many values stand in the first `w` words of the source stream (42_decode R204). -/
def countBefore (fmt : Format) (s : State) (w : Nat) : Nat :=
  countValues fmt ((srcWords s).take w)

/-- The first `w` words of the source stream can be read, and their values fit DECODE's destination and can be written
(42_decode R205). -/
abbrev decodePast (ew : ElemWidth) (fmt : Format) (s : State) (w : Nat) : Prop :=
  readable s.memMap s.srcAddr.toNat (8 * w) ∧ countBefore fmt s w ≤ s.dstLen.toNat ∧
    writable s.memMap s.dstAddr.toNat (countBefore fmt s w * ewByteCount ew)

/-- The first `w` words of the source stream can be read, and their positions fit CMP's bitset and can be accessed where there is a hit
(43_compare R240). -/
abbrev cmpPast (p : Pred) (fmt : Format) (s : State) (w : Nat) : Prop :=
  readable s.memMap s.srcAddr.toNat (8 * w) ∧ countBefore fmt s w ≤ s.dstLen.toNat ∧
    hitsAccessible p fmt s (countBefore fmt s w)

end Sys2Proof.Machine
end

