-- ==== Sys2Proof/Certificates/Slice0/Obligations.lean ====
section
/-! DEFINITION. The statements for the provers, one per numbered rule or law of spec/ that says what a command or the machine does. -/

open Sys2Proof Sys2Proof.Machine

/-! ## Command words -/

/-- 30_encoding R100, R108, R111: the decoder reads back every well-formed command from the word the encoder writes for it, every
field at every value. -/
def Obligations.DecodeEncodeRoundTrip : Prop :=
  ∀ i : Instr, i.wellFormed = true →
    decodeCmd (encode i) = .ok i ∧ decodeTableWord 64 (encode i).toNat = some i

/-- 30_encoding R107, R111: a legal word decodes to a well-formed command, whose own encoding is the word with the ignored
fields cleared. -/
def Obligations.EncodeDecodeClearsIgnored : Prop :=
  ∀ (v : Word) (i : Instr), decodeCmd v = .ok i → i.wellFormed = true ∧ encode i = v &&& usedBits i

/-- 30_encoding R109: the illegal command words. -/
def Obligations.IllegalWordsExactly : Prop :=
  ∀ v : Word, (∃ r, decodeCmd v = .error r) ↔ illegalWord v

/-- 30_encoding R113: a word in a row of the opcode map decodes to that row's command, no word is in two rows, and a word in no row
is illegal. -/
def Obligations.OpcodeMapDecodes : Prop :=
  (∀ r ∈ opcodeMap, ∀ v : Word, v &&& r.mask = r.pattern → decodeCmd v = .ok (r.instr v)) ∧
    opcodeMap.Pairwise (fun r q => ∀ v : Word, ¬(v &&& r.mask = r.pattern ∧ v &&& q.mask = q.pattern)) ∧
    ∀ v : Word, (∀ r ∈ opcodeMap, v &&& r.mask ≠ r.pattern) → ∃ e, decodeCmd v = .error e

/-- 30_encoding R111: its four examples, and one more word of each family written out from R100 (tier 1). -/
def Obligations.WrittenWordsDecode : Prop :=
  decodeCmd 0x101#64 = .ok (.encode .e16 .current) ∧ decodeCmd 0x44#64 = .ok (.cmpGt .current) ∧
    decodeCmd 0x1405#64 = .ok (.packw .e64 .current 5) ∧ decodeCmd 0x382#64 = .ok (.decode .e8 .legacy) ∧
    decodeCmd 0x203#64 = .ok (.count .legacy) ∧ decodeCmd 0x266#64 = .ok (.cmpwBw .legacy)

/-! ## Steps -/

/-- 00_scope R12, 10_state R45, R47: in RUN the engine's step runs the decoded command on the state it finds; in IDLE the engine does
nothing. That an empty list of turns is the engine's turn is the model's choice (log 6). -/
def Obligations.StepRunsCommand : Prop :=
  (∀ (s : State) (i : Instr), s.busy = true → decodeCmd s.cmd = .ok i →
    (s.turns = [] → step s = exec i s) ∧
      ∀ ts, s.turns = .engine :: ts → step s = exec i { s with turns := ts }) ∧
    ∀ s : State, s.busy = false →
      (s.turns = [] → step s = .next s) ∧
        ∀ ts, s.turns = .engine :: ts → step s = .next { s with turns := ts }

/-- 10_state R31, 70_reset_and_hazards R303: the host's write of a command word to CMD of an idle engine, and the engine's turn after
it, run that command with the registers of the instant of the write. -/
def Obligations.IssueThenRun : Prop :=
  ∀ (s : State) (i : Instr) (ts : List Turn), i.wellFormed = true → s.busy = false →
    s.turns = .host (.regWrite 0x18 64 (encode i)) :: .engine :: ts →
    ∃ t, step s = .next t ∧ t = { s.accept (encode i) with turns := .engine :: ts } ∧
      step t = exec i ({ s with turns := ts }.accept (encode i))

/-- 60_exceptions R275: an illegal command word completes with ILLEGAL_COMMAND; every register but STATUS and RESULT, and all of
memory, stays. -/
def Obligations.IllegalCommandCompletes : Prop :=
  ∀ s : State, s.busy = true → illegalWord s.cmd → engineTurn s = .next (s.failedWith .illegalCommand)

/-- Every step keeps the invariant of the model: memory in canonical form; DONE and ERRCODE clear while a command runs (10_state
R26, R29, R31); MASK at most 60 bits (40_kernels R132); only a running command is disturbed (log 11). -/
def Obligations.StepKeepsInvariant : Prop :=
  ∀ s t : State, s.Inv → step s = .next t → t.Inv

/-- The invariant holds after reset (tier 1). -/
def Obligations.ResetStateInvariant : Prop :=
  State.reset.Inv

/-! ## Registers -/

/-- 10_state R51: after the reset event every register but ID reads 0, ID reads ID_VALUE, the phase is IDLE and IRQ is 0;
memory is not reset (what happens to the destination range of a command that runs is R301, `ResetDuringCommand`); and `State.reset`
is such a state. -/
def Obligations.ResetValues : Prop :=
  (∀ s : State, ∃ t, hostTurn .reset s = .next t ∧ t.readReg .id = Config.idValue ∧
    (∀ r : Reg, r ≠ .id → t.readReg r = 0) ∧ t.phase = .idle ∧ t.irq = false ∧
    (s.busy = false → t.mem = s.mem) ∧ agreeOutside (runningBuffers s).dst t.mem s.mem) ∧
    (∀ r : Reg, r ≠ .id → State.reset.readReg r = 0) ∧ State.reset.phase = .idle ∧ State.reset.irq = false

/-- 70_reset_and_hazards R301: reset abandons a running command, with free bytes in its destination range and nothing else of memory
changed; the engine then makes no access. That a byte of both ranges keeps its value is the model's reading (log 13, DEDUCED). -/
def Obligations.ResetDuringCommand : Prop :=
  ∀ s : State, s.busy = true → ∃ t, hostTurn .reset s = .next t ∧
    t.busy = false ∧ t.done = false ∧ t.errCode = .none ∧ engineTurn t = .next t ∧
    agreeOutside (runningBuffers s).dst t.mem s.mem ∧
    (s.mem.wf →
      (∀ a, (runningBuffers s).src.has a = true → t.mem.read a = s.mem.read a) ∧
      ∀ a < memSize, (runningBuffers s).dst.has a = true → (runningBuffers s).src.has a = false →
        t.mem.read a = Config.freeByte s.freeCount a)

/-- 10_state R24: CTRL holds IE in bit 0; its other bits read 0 and ignore writes; a write takes effect at once, also while a
command runs. -/
def Obligations.CtrlRegister : Prop :=
  (∀ (s : State) (v : Word), ∃ t, hostRegWrite s 0x08 64 v = .next t ∧ t = { s with ie := v.getLsbD 0 } ∧
    hostRegRead t 0x08 64 = .next { t with readData := v &&& 1 } ∧ t.irq = (v.getLsbD 0 && s.done)) ∧
    State.reset.readReg .ctrl = 0

/-- 10_state R27 and the layout of STATUS (R25, R26, R28, R29): BUSY, DONE, ERR, OVR in bits 0 to 3, ERRCODE in bits 7:4, at most
7; ERR equals ERRCODE != 0. -/
def Obligations.StatusLayout : Prop :=
  (∀ s : State, (s.readReg .status).getLsbD 0 = s.busy ∧ (s.readReg .status).getLsbD 1 = s.done ∧
    (s.readReg .status).getLsbD 2 = decide (field 7 4 (s.readReg .status) ≠ 0) ∧
    (s.readReg .status).getLsbD 3 = s.ovr ∧ field 7 4 (s.readReg .status) = s.errCode.code ∧
    field 7 4 (s.readReg .status) ≤ 7) ∧ (State.reset.readReg .status).getLsbD 2 = false

/-- 10_state R30: a host write of STATUS changes DONE and OVR only, each by its write-one-to-clear bit; bits 63:8 read 0. -/
def Obligations.StatusWrite : Prop :=
  (∀ (s : State) (v : Word), hostRegWrite s 0x10 64 v =
    .next { s with done := s.done && !v.getLsbD 1, ovr := s.ovr && !v.getLsbD 3 }) ∧
    (∀ s : State, field 63 8 (s.readReg .status) = 0) ∧ State.reset.readReg .status = 0

/-- 10_state R25: BUSY is 1 from the acceptance of a command until its completion, and 0 otherwise. -/
def Obligations.BusyFlag : Prop :=
  (∀ (s : State) (v : Word), s.busy = false → ∃ t, hostRegWrite s 0x18 64 v = .next t ∧ t.busy = true) ∧
    (∀ s t : State, s.busy = true → engineTurn s = .next t → t.busy = false) ∧
    (∀ (s t : State) (op : HostOp), s.busy = true → op ≠ .reset → hostTurn op s = .next t → t.busy = true) ∧
    (∀ (s t : State) (x : Turn), s.busy = false → takeTurn x s = .next t → t.busy = true →
      ∃ v, x = .host (.regWrite 0x18 64 v) ∨ x = .both 0x18 64 v) ∧ State.reset.busy = false

/-- 10_state R26: every completion sets DONE, acceptance clears it, a write of STATUS clears it by bit 1 only, and a completion in
the same step as a host clear wins. -/
def Obligations.DoneFlag : Prop :=
  (∀ s t : State, s.busy = true → engineTurn s = .next t → t.done = true) ∧
    (∀ (s : State) (v : Word), s.busy = false → ∃ t, hostRegWrite s 0x18 64 v = .next t ∧ t.done = false) ∧
    (∀ (s : State) (v : Word), ∃ t, hostRegWrite s 0x10 64 v = .next t ∧ t.done = (s.done && !v.getLsbD 1)) ∧
    (∀ (s t : State) (v : Word), s.busy = true → takeTurn (.both 0x10 64 v) s = .next t → t.done = true) ∧
    State.reset.done = false

/-- 10_state R28: OVR is set exactly by a write of CMD while BUSY; only a write of STATUS with bit 3 set, and reset, clear it. -/
def Obligations.OvrFlag : Prop :=
  (∀ (s : State) (v : Word), s.busy = true → ∃ t, hostRegWrite s 0x18 64 v = .next t ∧ t.ovr = true) ∧
    (∀ (s t : State) (x : Turn), takeTurn x s = .next t → s.ovr = true → t.ovr = false →
      x = .host .reset ∨ ∃ v : Word, v.getLsbD 3 = true ∧ (x = .host (.regWrite 0x10 64 v) ∨ x = .both 0x10 64 v)) ∧
    (∀ (s t : State) (x : Turn), takeTurn x s = .next t → s.ovr = false → t.ovr = true →
      s.busy = true ∧ ∃ v : Word, x = .host (.regWrite 0x18 64 v) ∨ x = .both 0x18 64 v) ∧
    (∀ (s : State) (v : Word), v.getLsbD 3 = true → ∃ t, hostRegWrite s 0x10 64 v = .next t ∧ t.ovr = false) ∧
    (∀ (s : State) (v : Word), s.busy = false → ∃ t, hostRegWrite s 0x18 64 v = .next t ∧ t.ovr = s.ovr) ∧
    State.reset.ovr = false

/-- 10_state R31: a write of CMD is accepted when BUSY is 0 and dropped, with OVR set, when it is 1; CMD reads the last accepted
word, also after its completion. -/
def Obligations.CmdWrite : Prop :=
  (∀ (s : State) (v : Word), s.busy = false → hostRegWrite s 0x18 64 v =
    .next { s with cmd := v, busy := true, done := false, errCode := .none, disturbed := false }) ∧
    (∀ (s : State) (v : Word), s.busy = true → hostRegWrite s 0x18 64 v = .next { s with ovr := true }) ∧
    (∀ s : State, hostRegRead s 0x18 64 = .next { s with readData := s.cmd }) ∧
    (∀ s t : State, engineTurn s = .next t → t.cmd = s.cmd) ∧ State.reset.cmd = 0

/-- 10_state R43: while BUSY, writes to the operand registers are dropped without a flag, and no host action but reset
changes a register that the running command reads; CTRL and STATUS are written, CMD follows R31. -/
def Obligations.OperandsHeld : Prop :=
  (∀ (s : State) (v : Word), s.busy = true → ∀ o ∈ operandOffsets, hostRegWrite s o 64 v = .next s) ∧
    (∀ (s t : State) (op : HostOp), s.busy = true → op ≠ .reset → hostTurn op s = .next t →
      t.cmd = s.cmd ∧ ∀ o ∈ operandOffsets, t.readSlot o = s.readSlot o) ∧
    (∀ (s : State) (v : Word), hostRegWrite s 0x08 64 v = .next { s with ie := v.getLsbD 0 }) ∧
    (∀ (s : State) (v : Word), hostRegWrite s 0x10 64 v =
      .next { s with done := s.done && !v.getLsbD 1, ovr := s.ovr && !v.getLsbD 3 }) ∧
    ∀ (s : State) (v : Word), s.busy = true → hostRegWrite s 0x18 64 v = .next { s with ovr := true }

/-- 10_state R22, R23: in IDLE an operand register reads back what is written to it, and no other slot changes; ID, MASK and RESULT
ignore writes; ID reads ID_VALUE in every state; a read changes only what the host read (log 7). -/
def Obligations.RegistersReadBack : Prop :=
  (∀ (s : State) (v : Word), s.busy = false → ∀ o ∈ operandOffsets, ∃ t, hostRegWrite s o 64 v = .next t ∧
    t.readSlot o = v ∧ (∀ q, q ≠ o → t.readSlot q = s.readSlot q) ∧ t.mem = s.mem ∧ t.busy = false ∧ t.turns = s.turns) ∧
    (∀ (s : State) (v : Word), ∀ o ∈ [0x00, 0x68, 0x70], hostRegWrite s o 64 v = .next s) ∧
    (∀ (s : State) (o : Nat), o % 8 = 0 → o < 256 → hostRegRead s o 64 = .next { s with readData := s.readSlot o }) ∧
    ∀ s : State, s.readSlot 0x00 = Config.idValue

/-- 10_state R52: reserved slots read 0 and ignore writes, and so do the reserved bits of CTRL and STATUS. -/
def Obligations.ReservedSlotsAndBits : Prop :=
  (∀ (s : State) (o : Nat), 0x78 ≤ o → o ≤ 0xF8 → o % 8 = 0 →
    hostRegRead s o 64 = .next { s with readData := 0 } ∧ ∀ v, hostRegWrite s o 64 v = .next s) ∧
    (∀ s : State, field 63 1 (s.readReg .ctrl) = 0 ∧ field 63 8 (s.readReg .status) = 0) ∧
    ∀ (s : State) (v w : Word),
      (v &&& 1 = w &&& 1 → hostRegWrite s 0x08 64 v = hostRegWrite s 0x08 64 w) ∧
        (v &&& 0xFF = w &&& 0xFF → hostRegWrite s 0x10 64 v = hostRegWrite s 0x10 64 w)

/-- 10_state R20, R21: the model refuses a register access of another width, at an offset that is no multiple of 8, or outside the
window. -/
def Obligations.UndefinedAccessRefused : Prop :=
  ∀ (s : State) (o w : Nat) (v : Word), w ≠ 64 ∨ o % 8 ≠ 0 ∨ 256 ≤ o →
    hostRegRead s o w = .refused .registerAccess ∧ hostRegWrite s o w v = .refused .registerAccess

/-- 60_exceptions R283: IRQ is IE and DONE; a completion with IE raises it, the four events lower it, nothing else does
either. -/
def Obligations.Interrupt : Prop :=
  (∀ s : State, s.irq = (s.ie && s.done)) ∧
    (∀ s t : State, s.busy = true → s.ie = true → engineTurn s = .next t → t.irq = true) ∧
    (∀ (s : State) (v : Word), v.getLsbD 1 = true → ∃ t, hostRegWrite s 0x10 64 v = .next t ∧ t.irq = false) ∧
    (∀ (s : State) (v : Word), v.getLsbD 0 = false → ∃ t, hostRegWrite s 0x08 64 v = .next t ∧ t.irq = false) ∧
    (∀ (s : State) (v : Word), s.busy = false → ∃ t, hostRegWrite s 0x18 64 v = .next t ∧ t.irq = false) ∧
    (∀ s : State, ∃ t, hostTurn .reset s = .next t ∧ t.irq = false) ∧
    (∀ (s : State) (v : Word), s.done = true → v.getLsbD 0 = true →
      ∃ t, hostRegWrite s 0x08 64 v = .next t ∧ t.irq = true) ∧
    (∀ (s t : State) (x : Turn), takeTurn x s = .next t → s.irq = true → t.irq = false →
      x = .host .reset ∨ ∃ (o : Nat) (v : Word), (x = .host (.regWrite o 64 v) ∨ x = .both o 64 v) ∧
        (o = 0x10 ∧ v.getLsbD 1 = true ∨ o = 0x08 ∧ v.getLsbD 0 = false ∨ o = 0x18 ∧ s.busy = false)) ∧
    ∀ (s t : State) (x : Turn), takeTurn x s = .next t → s.irq = false → t.irq = true →
      s.busy = true ∧ (x = .engine ∨ ∃ o v, x = .both o 64 v) ∨
        s.done = true ∧ ∃ v : Word, v.getLsbD 0 = true ∧ (x = .host (.regWrite 0x08 64 v) ∨ x = .both 0x08 64 v)

/-! ## What every command does and leaves alone -/

/-- 60_exceptions R280, R281, R282: what a command leaves unchanged when it ends, by success or by an error: every register
but STATUS and RESULT, but for WORD of PACKW and MASK of CMPW; with an error, WORD and MASK too, and RESULT is 0
unless the host disturbed the command (log 11). -/
def Obligations.CompletionFrame : Prop :=
  ∀ (i : Instr) (s t : State), exec i s = .next t →
    t.busy = false ∧ t.done = true ∧ t.ie = s.ie ∧ t.ovr = s.ovr ∧ t.cmd = s.cmd ∧
    t.srcAddr = s.srcAddr ∧ t.srcLen = s.srcLen ∧ t.dstAddr = s.dstAddr ∧ t.dstLen = s.dstLen ∧
    t.minv = s.minv ∧ t.maxv = s.maxv ∧ t.opa = s.opa ∧ t.opb = s.opb ∧
    (writesWord i = false → t.word = s.word) ∧ (writesMask i = false → t.mask = s.mask) ∧
    (t.errCode ≠ .none → t.word = s.word ∧ t.mask = s.mask ∧ (s.disturbed = false → t.result = 0)) ∧
    t.memMap = s.memMap ∧ t.turns = s.turns ∧ t.readData = s.readData ∧ t.disturbed = false

/-- 20_memory R68, 60_exceptions R280: whatever way a command ends, each byte outside its destination range and each byte of its source
range is unchanged; a command without a destination range, and one that ends with UNSUPPORTED_FORMAT, INVALID_BUFFER_LENGTH or
ADDRESS_RANGE, changes no memory. -/
def Obligations.OnlyDestinationWritten : Prop :=
  ∀ (i : Instr) (s t : State), exec i s = .next t →
    agreeOutside (buffersOf i s).dst t.mem s.mem ∧
    (∀ a, (buffersOf i s).src.has a = true → t.mem.read a = s.mem.read a) ∧
    (writesMemory i = false → t.mem = s.mem) ∧
    (t.errCode = .unsupportedFormat ∨ t.errCode = .invalidBufferLength ∨ t.errCode = .addressRange → t.mem = s.mem)

/-- 60_exceptions R270, R271: a command ends with no error or with a code that the table gives it, and it never faults; the only
other outcome is the refusal of a buffer in device memory (U10; log 14). -/
def Obligations.CommandsComplete : Prop :=
  ∀ (i : Instr) (s : State),
    (∃ t, exec i s = .next t ∧ (t.errCode = .none ∨ t.errCode ∈ mayRaise i)) ∨
      exec i s = .refused .deviceBuffer ∧ (buffersOf i s).onDevice s.memMap = true

/-! ## Errors -/

/-- 60_exceptions R272, R276: a byte length that is no multiple of 8, and a command that would produce the legacy format; memory is
unchanged. -/
def Obligations.LengthAndFormatChecks : Prop :=
  (∀ (ew : ElemWidth) (s : State), s.dstLen.toNat % 8 ≠ 0 →
    exec (.encode ew .current) s = .next (s.failedWith .invalidBufferLength)) ∧
    (∀ s : State, s.srcLen.toNat % 8 ≠ 0 →
      (∀ ew fmt, exec (.decode ew fmt) s = .next (s.failedWith .invalidBufferLength)) ∧
      (∀ fmt, exec (.count fmt) s = .next (s.failedWith .invalidBufferLength)) ∧
      ∀ p fmt, exec (cmpInstr p fmt) s = .next (s.failedWith .invalidBufferLength)) ∧
    ∀ (ew : ElemWidth) (s : State),
      exec (.encode ew .legacy) s = .next (s.failedWith .unsupportedFormat) ∧
        ∀ sel, exec (.packw ew .legacy sel) s = .next (s.failedWith .unsupportedFormat)

/-- 20_memory R62: what the range check tests, in exact arithmetic: a non-empty range that goes past 2^64, or a byte in both ranges. A
range of size zero holds no byte and passes. -/
def Obligations.RangeCheck : Prop :=
  (∀ b : Buffers, b.badRange = true ↔
    (0 < b.src.size ∧ 2 ^ 64 < b.src.start + b.src.size) ∨ (0 < b.dst.size ∧ 2 ^ 64 < b.dst.start + b.dst.size) ∨
      ∃ a, b.src.has a = true ∧ b.dst.has a = true) ∧
    ∀ (r : Span) (a : Nat), r.size = 0 → r.has a = false

/-- 60_exceptions R277: the range check raises ADDRESS_RANGE, before any memory access. -/
def Obligations.AddressRange : Prop :=
  ∀ s : State,
    (∀ ew, s.dstLen.toNat % 8 = 0 → (encodeBuffers ew s).badRange = true →
      exec (.encode ew .current) s = .next (s.failedWith .addressRange)) ∧
    (∀ ew fmt, s.srcLen.toNat % 8 = 0 → (decodeBuffers ew s).badRange = true →
      exec (.decode ew fmt) s = .next (s.failedWith .addressRange)) ∧
    (∀ fmt, s.srcLen.toNat % 8 = 0 → (countBuffers s).badRange = true →
      exec (.count fmt) s = .next (s.failedWith .addressRange)) ∧
    (∀ p fmt, s.srcLen.toNat % 8 = 0 → (cmpBuffers s).badRange = true →
      exec (cmpInstr p fmt) s = .next (s.failedWith .addressRange)) ∧
    ∀ ew sel, sel < 16 → (packwBuffers ew sel s).badRange = true →
      exec (.packw ew .current sel) s = .next (s.failedWith .addressRange)

/-- 60_exceptions R273: the three cases of VALUE_OUT_OF_BOUNDS, with no memory written. -/
def Obligations.ValueOutOfBounds : Prop :=
  (∀ (ew : ElemWidth) (s : State), s.dstLen.toNat % 8 = 0 →
    (encodeBuffers ew s).badRange = false → s.srcLen ≠ 0 → 60 < maxLog2 ew s →
    exec (.encode ew .current) s = .next (s.failedWith .valueOutOfBounds)) ∧
    (∀ (ew : ElemWidth) (s : State) (i : Nat), s.calm (encodeBuffers ew s) → s.dstLen.toNat % 8 = 0 →
      (encodeBuffers ew s).badRange = false → maxLog2 ew s ≤ 60 → i < s.srcLen.toNat →
      readable s.memMap s.srcAddr.toNat ((i + 1) * ewByteCount ew) →
      (∀ j < i, bitlen (srcValue ew s j) ≤ maxLog2 ew s) → maxLog2 ew s < bitlen (srcValue ew s i) →
      exec (.encode ew .current) s = .next (s.failedWith .valueOutOfBounds)) ∧
    ∀ (ew : ElemWidth) (sel : Nat) (s : State) (i : Nat), sel < 16 → s.calm (packwBuffers ew sel s) →
      (packwBuffers ew sel s).badRange = false → i < ncap .current sel →
      readable s.memMap s.srcAddr.toNat ((i + 1) * ewByteCount ew) →
      (∀ j < i, fitsOne sel (srcValue ew s j) = true) → fitsOne sel (srcValue ew s i) = false →
      exec (.packw ew .current sel) s = .next (s.failedWith .valueOutOfBounds)

/-- 60_exceptions R274, R279: the first word, in word order, whose output would end beyond the destination ends ENCODE (in its encoding
pass), DECODE and CMP with DESTINATION_TOO_SMALL, when every access that the words before it need completes, and the read of that word
itself; whatever accesses later words would need. Memory outside the destination range is unchanged. -/
def Obligations.DestinationTooSmall : Prop :=
  (∀ (ew : ElemWidth) (s : State) (w : Nat), encodeValidated ew s → encodePast s w → w < encodedLength ew s →
    s.dstLen.toNat < 8 * (w + 1) →
    ∃ m, exec (.encode ew .current) s = .next (s.failedLate .destinationTooSmall m) ∧
      agreeOutside (encodeBuffers ew s).dst m s.mem) ∧
    (∀ (ew : ElemWidth) (fmt : Format) (s : State) (w : Nat), streamChecks (decodeBuffers ew s) s →
      w < s.srcLen.toNat / 8 → decodePast ew fmt s w → readable s.memMap (s.srcAddr.toNat + 8 * w) 8 →
      s.dstLen.toNat < countBefore fmt s (w + 1) →
      ∃ m, exec (.decode ew fmt) s = .next (s.failedLate .destinationTooSmall m) ∧
        agreeOutside (decodeBuffers ew s).dst m s.mem) ∧
    ∀ (p : Pred) (fmt : Format) (s : State) (w : Nat), streamChecks (cmpBuffers s) s →
      w < s.srcLen.toNat / 8 → cmpPast p fmt s w → readable s.memMap (s.srcAddr.toNat + 8 * w) 8 →
      s.dstLen.toNat < countBefore fmt s (w + 1) →
      ∃ m, exec (cmpInstr p fmt) s = .next (s.failedLate .destinationTooSmall m) ∧
        agreeOutside (cmpBuffers s).dst m s.mem

/-- 60_exceptions R278, R280: a refused read of COUNT, of ENCODE's validation pass and of PACKW ends the command with BUS_ERROR and
leaves memory unchanged. -/
def Obligations.BusErrorBeforeWrites : Prop :=
  (∀ (fmt : Format) (s : State), s.calm (countBuffers s) → s.srcLen.toNat % 8 = 0 →
    (countBuffers s).badRange = false →
    (∃ w < s.srcLen.toNat / 8, memOk s.memMap (s.srcAddr.toNat + 8 * w + 7) .read = false) →
    exec (.count fmt) s = .next (s.failedWith .busError)) ∧
    (∀ (ew : ElemWidth) (s : State) (i : Nat), s.calm (encodeBuffers ew s) → s.dstLen.toNat % 8 = 0 →
      (encodeBuffers ew s).badRange = false → maxLog2 ew s ≤ 60 → i < s.srcLen.toNat →
      (∀ j < i, bitlen (srcValue ew s j) ≤ maxLog2 ew s) →
      ¬ readable s.memMap s.srcAddr.toNat ((i + 1) * ewByteCount ew) →
      exec (.encode ew .current) s = .next (s.failedWith .busError)) ∧
    ∀ (ew : ElemWidth) (sel : Nat) (s : State) (i : Nat), sel < 16 → s.calm (packwBuffers ew sel s) →
      (packwBuffers ew sel s).badRange = false → i < ncap .current sel →
      (∀ j < i, fitsOne sel (srcValue ew s j) = true) →
      ¬ readable s.memMap s.srcAddr.toNat ((i + 1) * ewByteCount ew) →
      exec (.packw ew .current sel) s = .next (s.failedWith .busError)

/-- 60_exceptions R278, R279, R280: the first word, in word order, that needs a refused access ends ENCODE (in its encoding pass), DECODE
and CMP with BUS_ERROR, when the words before it pass: a refused read of the word, whatever the destination; a refused access of its
output, when that output fits; whatever later words would need. Memory outside the destination range is unchanged. -/
def Obligations.BusErrorAfterWrites : Prop :=
  (∀ (ew : ElemWidth) (s : State) (w : Nat), encodeValidated ew s → encodePast s w → w < encodedLength ew s →
    8 * (w + 1) ≤ s.dstLen.toNat → ¬ writable s.memMap s.dstAddr.toNat (8 * (w + 1)) →
    ∃ m, exec (.encode ew .current) s = .next (s.failedLate .busError m) ∧
      agreeOutside (encodeBuffers ew s).dst m s.mem) ∧
    (∀ (ew : ElemWidth) (fmt : Format) (s : State) (w : Nat), streamChecks (decodeBuffers ew s) s →
      w < s.srcLen.toNat / 8 → decodePast ew fmt s w →
      ¬ readable s.memMap (s.srcAddr.toNat + 8 * w) 8 ∨
        countBefore fmt s (w + 1) ≤ s.dstLen.toNat ∧
          ¬ writable s.memMap s.dstAddr.toNat (countBefore fmt s (w + 1) * ewByteCount ew) →
      ∃ m, exec (.decode ew fmt) s = .next (s.failedLate .busError m) ∧
        agreeOutside (decodeBuffers ew s).dst m s.mem) ∧
    ∀ (p : Pred) (fmt : Format) (s : State) (w : Nat), streamChecks (cmpBuffers s) s →
      w < s.srcLen.toNat / 8 → cmpPast p fmt s w →
      ¬ readable s.memMap (s.srcAddr.toNat + 8 * w) 8 ∨
        countBefore fmt s (w + 1) ≤ s.dstLen.toNat ∧ ¬ hitsAccessible p fmt s (countBefore fmt s (w + 1)) →
      ∃ m, exec (cmpInstr p fmt) s = .next (s.failedLate .busError m) ∧ agreeOutside (cmpBuffers s).dst m s.mem

/-! ## The selector table and the kernels -/

/-- 30_encoding R90: `selForBits` is the smallest packed selector whose slots hold `w` bits. -/
def Obligations.SelForBitsIsSmallest : Prop :=
  ∀ w ≤ 60, 2 ≤ selForBits w ∧ selForBits w ≤ 15 ∧ w ≤ bw (selForBits w) ∧
    ∀ s, 2 ≤ s → s ≤ 15 → w ≤ bw s → selForBits w ≤ s

/-- 40_kernels R120, R121: the FOR subtractor is the difference modulo 2^EW, read as unsigned; it is the same for all integers that are
congruent to the operands modulo 2^EW, so signed and unsigned readings agree. The FOR adder is the sum modulo 2^EW, the identity for
m = 0 at 64 bits, and it undoes the subtractor on an EW-bit element. -/
def Obligations.ForArithmetic : Prop :=
  (∀ (ew : ElemWidth) (v m : Word) (x y : Int),
    (x - v.toNat) % 2 ^ ewBitCount ew = 0 → (y - m.toNat) % 2 ^ ewBitCount ew = 0 →
    ((forSub v m ew).toNat : Int) = (x - y) % 2 ^ ewBitCount ew) ∧
    (∀ (ew : ElemWidth) (x m : Word), (forAdd x m ew).toNat = (x.toNat + m.toNat) % 2 ^ ewBitCount ew) ∧
    (∀ x : Word, forAdd x 0 .e64 = x) ∧
    ∀ (ew : ElemWidth) (v m : Word), v.toNat < 2 ^ ewBitCount ew → forAdd (forSub v m ew) m ew = v

/-- 40_kernels R122: the packed word is the selector in bits 63:60 plus the sum of the values, each shifted to its slot; slot i holds
value i, and the payload above the slots is 0. Unpacking it in either format, and unpacking a run word of the current format, gives
the values back (R123, R124). -/
def Obligations.PackKernels : Prop :=
  (∀ (s : Nat) (u : List Word), 2 ≤ s → s ≤ 15 → fits s u = true →
    (packWord s u).toNat =
      s * 2 ^ 60 + ((List.range u.length).map fun i => (u.getD i 0).toNat * 2 ^ (i * bw s)).sum ∧
    (∀ i < u.length, slot (packWord s u) (bw s) i = u.getD i 0) ∧
    (∀ j, ncap .current s * bw s ≤ j → j < 60 → (packWord s u).getLsbD j = false) ∧
    selOf (packWord s u) = s ∧ ∀ fmt, unpackWord fmt (packWord s u) = u) ∧
    ∀ s ≤ 1, unpackWord .current (packRun s) = List.replicate 128 (BitVec.ofNat 64 s) ∧ selOf (packRun s) = s

/-- 30_encoding R83, R84: the unused payload bits of a packed word and the payload of a run word change neither its values nor its
compare result. -/
def Obligations.UnusedPayloadIgnored : Prop :=
  ∀ (fmt : Format) (w v : Word), selOf w = selOf v →
    (isRun (selOf w) = true ∨ ∀ j < ncap fmt (selOf w) * bw (selOf w), w.getLsbD j = v.getLsbD j) →
    unpackWord fmt w = unpackWord fmt v ∧ ∀ p a b, cmpKernel fmt p w a b = cmpKernel fmt p v a b

/-- 40_kernels R125, R127: the predicates in unsigned arithmetic, BW modulo 2^64; with lo at most hi, BW is the closed range, and with
lo above hi it is the values at or above lo or at or below hi. -/
def Obligations.PredicatesUnsigned : Prop :=
  ∀ x a b : Word,
    predHolds .eq x a b = decide (x.toNat = a.toNat) ∧ predHolds .ne x a b = decide (x.toNat ≠ a.toNat) ∧
    predHolds .lt x a b = decide (x.toNat < a.toNat) ∧ predHolds .le x a b = decide (x.toNat ≤ a.toNat) ∧
    predHolds .gt x a b = decide (a.toNat < x.toNat) ∧ predHolds .ge x a b = decide (a.toNat ≤ x.toNat) ∧
    predHolds .bw x a b =
      decide (((x.toNat : Int) - a.toNat) % 2 ^ 64 ≤ ((b.toNat : Int) - a.toNat) % 2 ^ 64) ∧
    (a.toNat ≤ b.toNat → (predHolds .bw x a b = true ↔ a.toNat ≤ x.toNat ∧ x.toNat ≤ b.toNat)) ∧
    (b.toNat < a.toNat → (predHolds .bw x a b = true ↔ a.toNat ≤ x.toNat ∨ x.toNat ≤ b.toNat))

/-- 40_kernels R130: the kernel correctness law. -/
def Obligations.KernelCorrectness : Prop :=
  ∀ (fmt : Format) (p : Pred) (w a b : Word),
    (cmpKernel fmt p w a b).1 = (unpackWord fmt w).length ∧
      ∀ (i : Nat) (x : Word), (unpackWord fmt w)[i]? = some x →
        (cmpKernel fmt p w a b).2.getLsbD (if isRun (selOf w) then 0 else i) = predHolds p x a b

/-- 40_kernels R126, R132: the masks of NE, LT and LE are those of EQ, GE and GT, negated over the mask's valid bits. The mask width is 1
for a run word and the word's number of values, at most 60, otherwise; every mask is 0 at and above it. -/
def Obligations.MaskWidthAndNegation : Prop :=
  (∀ (fmt : Format) (w a b : Word),
    (cmpKernel fmt .ne w a b).2 = ~~~(cmpKernel fmt .eq w a b).2 &&& ((1#64 <<< maskWidth fmt (selOf w)) - 1#64) ∧
    (cmpKernel fmt .lt w a b).2 = ~~~(cmpKernel fmt .ge w a b).2 &&& ((1#64 <<< maskWidth fmt (selOf w)) - 1#64) ∧
    (cmpKernel fmt .le w a b).2 = ~~~(cmpKernel fmt .gt w a b).2 &&& ((1#64 <<< maskWidth fmt (selOf w)) - 1#64)) ∧
    (∀ (fmt : Format) (s : Nat), isRun s = true → maskWidth fmt s = 1) ∧
    (∀ (fmt : Format) (s : Nat), isRun s = false → maskWidth fmt s = ncap fmt s ∧ maskWidth fmt s ≤ 60) ∧
    ∀ (fmt : Format) (p : Pred) (w a b : Word) (j : Nat), maskWidth fmt (selOf w) ≤ j →
      (cmpKernel fmt p w a b).2.getLsbD j = false

/-! ## The commands' results -/

/-- 40_kernels R136 to R143: each of the seven CMPW completes in every state, with the kernel's count in RESULT and its mask in
MASK, bit by bit; every other register and all of memory stay. -/
def Obligations.CmpwResult : Prop :=
  ∀ (p : Pred) (fmt : Format) (s : State), ∃ m : Word,
    exec (cmpwInstr p fmt) s =
      .next (s.endedWith (BitVec.ofNat 64 (ncap fmt (selOf s.word))) s.word m s.mem) ∧
    ∀ j, m.getLsbD j =
      (decide (j < maskWidth fmt (selOf s.word)) && predHolds p ((unpackWord fmt s.word).getD j 0) s.opa s.opb)

/-- 40_kernels R135: PACKW completes when its source range does not wrap, can be read, and holds values that fit; the
packed word goes to WORD, the number of values to RESULT. -/
def Obligations.PackwResult : Prop :=
  ∀ (ew : ElemWidth) (sel : Nat) (s : State), sel < 16 → packwReady ew sel s →
    exec (.packw ew .current sel) s =
      .next (s.endedWith (BitVec.ofNat 64 (ncap .current sel))
        (if sel < 2 then BitVec.ofNat 64 sel <<< 60 else packWord sel (srcStored ew s (ncap .current sel)))
        s.mask s.mem)

/-- 42_decode R204, R206: COUNT completes when its checks pass and byte 7 of every word can be read; RESULT is the sum of the words'
capacities, modulo 2^64, and nothing else changes. -/
def Obligations.CountResult : Prop :=
  ∀ (fmt : Format) (s : State), countReady s →
    exec (.count fmt) s =
      .next (s.endedWith (BitVec.ofNat 64 (countValues fmt (srcWords s))) s.word s.mask s.mem)

/-- 42_decode R200 to R205: DECODE completes when its checks pass, its stream can be read, and its elements fit and can be
written; element j is the FOR sum of stored value j, and every other byte of memory and every other register stay. -/
def Obligations.DecodeResult : Prop :=
  ∀ (ew : ElemWidth) (fmt : Format) (s : State), s.mem.wf → decodeReady ew fmt s → ∃ m : Memory,
    exec (.decode ew fmt) s =
      .next (s.endedWith (BitVec.ofNat 64 (countValues fmt (srcWords s))) s.word s.mask m) ∧
    (∀ (j : Nat) (x : Word), (streamValues fmt (srcWords s))[j]? = some x →
      elemAt m (ewByteCount ew) s.dstAddr.toNat j = forAdd x s.minv ew) ∧
    agreeOutside ⟨s.dstAddr.toNat, countValues fmt (srcWords s) * ewByteCount ew⟩ m s.mem

/-- 43_compare R230 to R233, R236, R240 to R247: each of the seven CMP completes when its checks pass, its stream can be read, its
positions fit the bitset and the bytes with a hit can be read and written; the bits of hits are set, every other bit and every byte
without a hit stay, RESULT is the number of values. -/
def Obligations.CmpResult : Prop :=
  ∀ (p : Pred) (fmt : Format) (s : State), s.mem.wf → cmpReady p fmt s → ∃ m : Memory,
    exec (cmpInstr p fmt) s =
      .next (s.endedWith (BitVec.ofNat 64 (countValues fmt (srcWords s))) s.word s.mask m) ∧
    (∀ j, bitAt m s.dstAddr.toNat j = (bitAt s.mem s.dstAddr.toNat j || srcHit p fmt s j)) ∧
    ∀ a, (∀ j, srcHit p fmt s j = true → a ≠ s.dstAddr.toNat + j / 8) → m.read a = s.mem.read a

/-- 43_compare R232, R236, 60_exceptions R280: CMP never clears a bit, and sets one only at a position with a hit, whatever way it
ends (undisturbed). -/
def Obligations.CmpOnlySetsHits : Prop :=
  ∀ (p : Pred) (fmt : Format) (s t : State), s.mem.wf → s.disturbed = false →
    exec (cmpInstr p fmt) s = .next t → ∀ j,
      (bitAt s.mem s.dstAddr.toNat j = true → bitAt t.mem s.dstAddr.toNat j = true) ∧
      (bitAt t.mem s.dstAddr.toNat j = true → bitAt s.mem s.dstAddr.toNat j = true ∨ srcHit p fmt s j = true)

/-- 43_compare R240: running the same CMP again changes nothing. -/
def Obligations.CmpIdempotent : Prop :=
  ∀ (p : Pred) (fmt : Format) (s t : State), s.mem.wf → s.disturbed = false →
    exec (cmpInstr p fmt) s = .next t → t.errCode = .none → exec (cmpInstr p fmt) t = .next t

/-- 43_compare R234, R235: the source's aggregation buffer with its flush completes exactly when the bit-by-bit engine does, with the
same memory and the same count, for a stream and a bitset that do not overlap. -/
def Obligations.AggregationMatches : Prop :=
  ∀ (map : List Region) (q : CmpArgs) (dst cap n a : Nat) (m : Memory) (r : Memory × Nat), m.wf →
    Buffers.badRange ⟨⟨a, 8 * n⟩, ⟨dst, ceilDiv cap 8⟩⟩ = false →
    (aggregateLoop map q dst cap n a 0 0 0 m = .ok r ↔ cmpLoop map q dst cap n a 0 m = .ok r)

/-- 43_compare R248: CMP into a cleared bitset of exactly the stream's count leaves bit j equal to the predicate on element j of
DECODE of the same stream with 64-bit elements and MINV 0. -/
def Obligations.PredicateEquivalence : Prop :=
  ∀ (p : Pred) (fmt : Format) (s d : State), s.mem.wf → cmpReady p fmt s →
    s.dstLen.toNat = countValues fmt (srcWords s) →
    (∀ j < s.dstLen.toNat, bitAt s.mem s.dstAddr.toNat j = false) →
    d.mem.wf → decodeReady .e64 fmt d → d.minv = 0 → srcWords d = srcWords s →
    ∃ t e, exec (cmpInstr p fmt) s = .next t ∧ exec (.decode .e64 fmt) d = .next e ∧
      ∀ j < s.dstLen.toNat,
        bitAt t.mem s.dstAddr.toNat j = predHolds p (elemAt e.mem 8 d.dstAddr.toNat j) s.opa s.opb

/-- 10_state R36, R39, 43_compare R249: CMP and CMPW do not read MINV, and only the BW forms read OPB. -/
def Obligations.CompareReadsOnlyItsOperands : Prop :=
  ∀ (p : Pred) (fmt : Format) (s t : State) (m b : Word), s.disturbed = false →
    (exec (cmpInstr p fmt) s = .next t → exec (cmpInstr p fmt) { s with minv := m } = .next { t with minv := m }) ∧
    (exec (cmpwInstr p fmt) s = .next t → exec (cmpwInstr p fmt) { s with minv := m } = .next { t with minv := m }) ∧
    (p ≠ .bw →
      (exec (cmpInstr p fmt) s = .next t → exec (cmpInstr p fmt) { s with opb := b } = .next { t with opb := b }) ∧
      (exec (cmpwInstr p fmt) s = .next t → exec (cmpwInstr p fmt) { s with opb := b } = .next { t with opb := b }))

/-- 41_encode R170 to R180: ENCODE completes when its checks pass, its elements can be read and are in range, and its words fit and
can be written; the words at the destination are the stream of the stored values, RESULT is their length in bytes, and every other
byte of memory and every other register stay. -/
def Obligations.EncodeResult : Prop :=
  ∀ (ew : ElemWidth) (s : State), s.mem.wf → encodeReady ew s → ∃ m : Memory,
    exec (.encode ew .current) s =
      .next (s.endedWith (BitVec.ofNat 64 (8 * (encodeStream (srcStored ew s s.srcLen.toNat)).length))
        s.word s.mask m) ∧
    wordsAt m (encodeStream (srcStored ew s s.srcLen.toNat)).length s.dstAddr.toNat =
      encodeStream (srcStored ew s s.srcLen.toNat) ∧
    agreeOutside ⟨s.dstAddr.toNat, 8 * (encodeStream (srcStored ew s s.srcLen.toNat)).length⟩ m s.mem

/-- 41_encode R181 (a), (b): the stream of values of at most 60 bits holds exactly those values, and counts them. -/
def Obligations.EncodeStreamRoundTrip : Prop :=
  ∀ u : List Word, (∀ x ∈ u, bitlen x ≤ 60) →
    streamValues .current (encodeStream u) = u ∧ countValues .current (encodeStream u) = u.length

/-- 41_encode R181 (c): a full word of values that need selector s packs into one word of selector s, and one value more needs a
second word. -/
def Obligations.SelectorBoundary : Prop :=
  ∀ (s : Nat) (u : List Word), 2 ≤ s → s ≤ 15 → (∀ x ∈ u, bitlen x ≤ bw s) →
    (s = 2 ∨ ∃ x ∈ u, bw (s - 1) < bitlen x) →
    (u.length = ncap .current s → encodeStream u = [packWord s u]) ∧
      (u.length = ncap .current s + 1 → (encodeStream u).length = 2)

/-- 41_encode R174: the run detector and the run word it emits. -/
def Obligations.RunDetector : Prop :=
  ∀ (x : Word) (xs : List Word),
    (runDetected (x :: xs) = true ↔
      128 ≤ (x :: xs).length ∧ x.toNat ≤ 1 ∧ ∀ j < 128, (x :: xs)[j]? = some x) ∧
    (runDetected (x :: xs) = true → nextWord (x :: xs) = (packRun x.toNat, 128)) ∧
    (runDetected (x :: xs) = false →
      nextWord (x :: xs) = (packWord (chooseSel (x :: xs)) ((x :: xs).take (ncap .current (chooseSel (x :: xs)))),
        ncap .current (chooseSel (x :: xs))))

/-- 41_encode R175: the chosen selector is the smallest one whose capacity the values left fill and whose slots hold them; it
always exists. -/
def Obligations.SelectorChoice : Prop :=
  ∀ u : List Word, u ≠ [] → (∀ x ∈ u, x.toNat < 2 ^ 60) →
    (2 ≤ chooseSel u ∧ chooseSel u ≤ 15 ∧ ncap .current (chooseSel u) ≤ u.length ∧
      ∀ x ∈ u.take (ncap .current (chooseSel u)), x.toNat < 2 ^ bw (chooseSel u)) ∧
    ∀ s, 2 ≤ s → s ≤ 15 → ncap .current s ≤ u.length → (∀ x ∈ u.take (ncap .current s), x.toNat < 2 ^ bw s) →
      chooseSel u ≤ s

/-- 41_encode R176: the source's greedy procedure chooses the canonical selector. -/
def Obligations.GreedyMatchesCanonical : Prop :=
  ∀ (u : List Word) (top : Nat), u ≠ [] → top ≤ 60 → (∀ x ∈ u, bitlen x ≤ top) → greedySel u top = chooseSel u

/-! ## Host and memory while a command runs -/

/-- 20_memory R72 (3): while a command runs, the host's accesses to bytes outside its ranges are unaffected by the engine: a read returns
the byte, a write is still there after the command. That the host's accesses complete whatever MEM_OK says, in a device region too, is
the model's choice (log 17, log 24), and so is the mark of a disturbed command, which they leave as it is (log 11). -/
def Obligations.HostOutsideRanges : Prop :=
  (∀ (s : State) (addr : Word), s.busy = true → (runningBuffers s).dst.has addr.toNat = false →
    hostTurn (.memRead addr) s = .next { s with readData := (s.mem.read addr.toNat).setWidth 64 }) ∧
    ∀ (s : State) (addr : Word) (bytes : List Byte), s.mem.wf → s.busy = true →
      addr.toNat + bytes.length ≤ 2 ^ 64 →
      Span.overlaps ⟨addr.toNat, bytes.length⟩ (runningBuffers s).src = false →
      Span.overlaps ⟨addr.toNat, bytes.length⟩ (runningBuffers s).dst = false →
      ∃ t, hostTurn (.memWrite addr bytes) s = .next t ∧
        t = { s with mem := Memory.writeBytes addr.toNat bytes s.mem } ∧
        (∀ k b, bytes[k]? = some b → t.mem.read (addr.toNat + k) = b) ∧
        ∀ e, engineTurn t = .next e → ∀ k b, bytes[k]? = some b → e.mem.read (addr.toNat + k) = b

/-- 20_memory R72 (2), U8: a host read of a destination byte of a running, undisturbed command returns the byte as it is or as
the command leaves it; for CMP, each bit lies between the two. Which of them is the model's free choice (log 12). -/
def Obligations.HostReadsHeldByte : Prop :=
  ∀ (s t : State) (addr : Word), s.busy = true → s.disturbed = false → engineTurn s = .next t →
    (runningBuffers s).dst.has addr.toNat = true →
    ∃ b : Byte,
      hostTurn (.memRead addr) s = .next { s with readData := b.setWidth 64, freeCount := s.freeCount + 1 } ∧
      (onlySetsBits s = false → b = s.mem.read addr.toNat ∨ b = t.mem.read addr.toNat) ∧
      (onlySetsBits s = true → ∀ k,
        ((s.mem.read addr.toNat).getLsbD k = true → b.getLsbD k = true) ∧
        (b.getLsbD k = true →
          (s.mem.read addr.toNat).getLsbD k = true ∨ (t.mem.read addr.toNat).getLsbD k = true))

/-- 20_memory R71, R72 (1), R74: between commands a host write of memory lands and changes nothing else, the bytes read back, and the next
accepted command runs on that memory and reads those bytes where MEM_OK lets it. That the host's accesses complete whatever MEM_OK says,
in a device region too, and that a write past the last address faults, is the model's choice (log 17, log 24). -/
def Obligations.HostMemoryWhenIdle : Prop :=
  (∀ (s : State) (addr : Word), s.busy = false →
    hostTurn (.memRead addr) s = .next { s with readData := (s.mem.read addr.toNat).setWidth 64 }) ∧
    (∀ (s : State) (addr : Word) (bytes : List Byte), 2 ^ 64 < addr.toNat + bytes.length →
      hostTurn (.memWrite addr bytes) s = .fault .addressOutsideMemory) ∧
    ∀ (s : State) (addr : Word) (bytes : List Byte), s.mem.wf → s.busy = false → addr.toNat + bytes.length ≤ 2 ^ 64 →
      ∃ t, hostTurn (.memWrite addr bytes) s = .next t ∧
        t = { s with mem := Memory.writeBytes addr.toNat bytes s.mem } ∧
        agreeOutside ⟨addr.toNat, bytes.length⟩ t.mem s.mem ∧
        (∀ k b, bytes[k]? = some b →
          hostTurn (.memRead (addr + BitVec.ofNat 64 k)) t = .next { t with readData := b.setWidth 64 }) ∧
        ∀ i : Instr, i.wellFormed = true → ∃ u, hostRegWrite t 0x18 64 (encode i) = .next u ∧
          engineTurn u = exec i u ∧ u.mem = t.mem ∧
          ∀ k b, bytes[k]? = some b → memOk u.memMap (addr.toNat + k) .read = true →
            memRead u.memMap u.mem (addr.toNat + k) 1 = some (b.setWidth 64)
end

