-- ==== Sys2Proof/Laws/Kernels.lean ====
section
/-! SUPPORT. The small lemmas of the selector table and the kernels: sizes, bits, lengths. -/

namespace Sys2Proof.Machine

/-! ## The selector table -/

/-- Past the table there is nothing. -/
theorem ncap_outside (fmt : Format) {s : Nat} (h : 16 ≤ s) : ncap fmt s = 0 := by
  obtain ⟨k, rfl⟩ := Nat.exists_eq_add_of_le' h
  cases fmt <;> rfl

/-- Every selector holds at least one value. -/
theorem ncap_pos (fmt : Format) {s : Nat} (h : s < 16) : 0 < ncap fmt s := by
  cases fmt <;> interval_cases s <;> decide

/-- No selector holds more than 240 values. -/
theorem ncap_le (fmt : Format) (s : Nat) : ncap fmt s ≤ 240 := by
  by_cases h : s < 16
  · cases fmt <;> interval_cases s <;> decide
  · rw [ncap_outside fmt (by omega)]; omega

/-- The packed selectors hold the same number of values in both formats. -/
theorem ncap_packed (fmt : Format) {s : Nat} (h : 2 ≤ s) : ncap fmt s = ncap .current s := by
  by_cases h16 : s < 16
  · cases fmt <;> interval_cases s <;> rfl
  · rw [ncap_outside fmt (by omega), ncap_outside .current (by omega)]

/-- A packed selector's slots are 1 to 60 bits wide and fit the payload. -/
theorem bw_bounds {s : Nat} (h2 : 2 ≤ s) (h16 : s < 16) : 0 < bw s ∧ bw s ≤ 60 ∧ ncap .current s * bw s ≤ 60 := by
  interval_cases s <;> decide

/-- A selector is one of 16. -/
theorem selOf_lt (w : Word) : selOf w < 16 := by
  unfold selOf
  rw [BitVec.toNat_ushiftRight, Nat.shiftRight_eq_div_pow]
  have := w.isLt
  omega

theorem isRun_iff (s : Nat) : isRun s = true ↔ s < 2 := by
  unfold isRun
  simp only [Bool.or_eq_true, beq_iff_eq]
  omega

theorem isRun_eq_false_iff (s : Nat) : isRun s = false ↔ 2 ≤ s := by
  rw [← Bool.not_eq_true, isRun_iff]
  omega

/-! ## Values -/

/-- A value of at most `n` bits is one below 2^n. -/
theorem bitlen_le_iff (v : Word) (n : Nat) : bitlen v ≤ n ↔ v.toNat < 2 ^ n := by
  unfold bitlen
  split
  · next h => subst h; simp
  · next h =>
    have hv : v.toNat ≠ 0 := fun h0 => h (BitVec.eq_of_toNat_eq (by simpa using h0))
    rw [← Nat.log2_lt hv]
    omega

/-- A value of more than `n` bits is one from 2^n on. -/
theorem lt_bitlen_iff (v : Word) (n : Nat) : n < bitlen v ↔ 2 ^ n ≤ v.toNat := by
  rw [← Nat.not_le, bitlen_le_iff, Nat.not_lt]

/-- A difference has the element's width (40_kernels R120). -/
theorem forSub_lt (v m : Word) (ew : ElemWidth) : (forSub v m ew).toNat < 2 ^ ewBitCount ew := by
  unfold forSub
  rw [BitVec.toNat_setWidth]
  exact Nat.lt_of_le_of_lt (Nat.mod_le _ _) (BitVec.isLt _)

/-- A sum has the element's width (40_kernels R121). -/
theorem forAdd_lt (x m : Word) (ew : ElemWidth) : (forAdd x m ew).toNat < 2 ^ ewBitCount ew := by
  unfold forAdd
  rw [BitVec.toNat_setWidth]
  exact Nat.lt_of_le_of_lt (Nat.mod_le _ _) (BitVec.isLt _)

theorem ewBitCount_eq (ew : ElemWidth) : ewBitCount ew = 8 * ewByteCount ew := by
  cases ew <;> rfl

theorem ewByteCount_bounds (ew : ElemWidth) : 0 < ewByteCount ew ∧ ewByteCount ew ≤ 8 := by
  cases ew <;> decide

/-! ## Words and streams -/

/-- A word holds as many values as its selector says (30_encoding R92). -/
@[simp] theorem unpackWord_length (fmt : Format) (w : Word) : (unpackWord fmt w).length = ncap fmt (selOf w) := by
  unfold unpackWord
  split <;> simp

/-- A stream holds as many values as it counts (42_decode R204). -/
theorem streamValues_length (fmt : Format) (ws : List Word) : (streamValues fmt ws).length = countValues fmt ws := by
  simp [streamValues, countValues, List.length_flatMap]

@[simp] theorem streamValues_nil (fmt : Format) : streamValues fmt [] = [] := rfl

@[simp] theorem streamValues_cons (fmt : Format) (w : Word) (ws : List Word) :
    streamValues fmt (w :: ws) = unpackWord fmt w ++ streamValues fmt ws := rfl

@[simp] theorem countValues_nil (fmt : Format) : countValues fmt [] = 0 := rfl

@[simp] theorem countValues_cons (fmt : Format) (w : Word) (ws : List Word) :
    countValues fmt (w :: ws) = ncap fmt (selOf w) + countValues fmt ws := by
  simp [countValues]

/-- Bit `j` of a slot is bit `i * b + j` of the word (30_encoding R82). -/
theorem slot_getLsbD {b : Nat} (w : Word) (i j : Nat) (hb : b ≤ 64) :
    (slot w b i).getLsbD j = (decide (j < b) && w.getLsbD (i * b + j)) := by
  unfold slot
  simp only [BitVec.getLsbD_setWidth, BitVec.getLsbD_extractLsb']
  by_cases hj : j < b
  · have : j < 64 := by omega
    simp [hj, this]
  · simp [hj]

/-! ## Masks -/

/-- Bit `i` of a mask is entry `i` of its list (40_kernels R128). -/
theorem maskOf_getLsbD : ∀ (l : List Bool) (i : Nat), (maskOf l).getLsbD i = (decide (i < 64) && l.getD i false)
  | [], i => by simp [maskOf]
  | h :: hs, i => by
    have ih := maskOf_getLsbD hs (i - 1)
    cases i with
    | zero => cases h <;> simp [maskOf]
    | succ i =>
      have hbit : (BitVec.ofNat 64 h.toNat).getLsbD (i + 1) = false := by
        cases h <;> simp [BitVec.getLsbD_ofNat, Nat.testBit_succ]
      simp only [maskOf, BitVec.getLsbD_or, hbit, Bool.false_or, BitVec.getLsbD_shiftLeft]
      by_cases hi : i + 1 < 64
      · have : i < 64 := by omega
        simp only [Nat.add_sub_cancel] at ih ⊢
        rw [ih]
        simp [hi, this]
      · simp [hi]

/-- The kernel's count is the word's number of values (40_kernels R128, R129). -/
@[simp] theorem cmpKernel_fst (fmt : Format) (p : Pred) (w a b : Word) :
    (cmpKernel fmt p w a b).1 = ncap fmt (selOf w) := by
  unfold cmpKernel
  split <;> rfl

/-- A word has one result bit for each of its values (43_compare R231). -/
@[simp] theorem wordHits_length (fmt : Format) (p : Pred) (w a b : Word) :
    (wordHits fmt p w a b).length = ncap fmt (selOf w) := by
  simp [wordHits]

/-- A mask of at most 60 result bits is below 2^60 (40_kernels R132). -/
theorem maskOf_lt {l : List Bool} (h : l.length ≤ 60) : (maskOf l).toNat < 2 ^ 60 := by
  refine Nat.lt_pow_two_of_testBit _ fun i hi => ?_
  rw [BitVec.testBit_toNat, maskOf_getLsbD, List.getD_eq_getElem?_getD, List.getElem?_eq_none (by omega)]
  simp

end Sys2Proof.Machine
end

