-- ==== Sys2Proof/Laws/Memory.lean ====
section
/-! SUPPORT. The laws of memory: a read after a write, the canonical form, what the memory port can do, what replacing a range
does. -/

namespace Sys2Proof.Machine

/-! ## Lists of cells -/

/-- The canonical form of a list of cells. -/
abbrev cellsWf (l : List Host.Cell) : Prop :=
  l.Pairwise (fun x y => x.1 < y.1) ∧ ∀ c ∈ l, c.2 ≠ unlisted ∧ c.1 < memSize

theorem cellsWf_tail {x : Host.Cell} {l : List Host.Cell} (h : cellsWf (x :: l)) : cellsWf l :=
  ⟨(List.pairwise_cons.mp h.1).2, fun c hc => h.2 c (List.mem_cons_of_mem _ hc)⟩

/-- An address below every listed one reads as unlisted. -/
theorem readCells_of_below {a : Nat} : ∀ {l : List Host.Cell}, (∀ c ∈ l, a < c.1) → readCells l a = unlisted
  | [], _ => rfl
  | (k, b) :: rest, h => by
    have hk : a < k := h (k, b) (by simp)
    have hr := readCells_of_below (l := rest) fun c hc => h c (List.mem_cons_of_mem _ hc)
    simp [readCells, Nat.ne_of_lt hk, hr]

theorem readCells_writeCells_ne {a c : Nat} (b : Byte) (h : c ≠ a) :
    ∀ l : List Host.Cell, readCells (writeCells l a b) c = readCells l c
  | [] => by
    by_cases hb : b = unlisted <;> simp [writeCells, readCells, hb, h]
  | (k, d) :: rest => by
    have ih := readCells_writeCells_ne b h rest
    by_cases h1 : a < k
    · by_cases hb : b = unlisted <;> simp [writeCells, readCells, h1, hb, h]
    · by_cases h2 : a = k
      · subst h2
        by_cases hb : b = unlisted <;> simp [writeCells, readCells, hb, h]
      · simp only [writeCells, h1, h2, if_false, readCells, ih]

theorem readCells_writeCells_same {a : Nat} (b : Byte) :
    ∀ {l : List Host.Cell}, cellsWf l → readCells (writeCells l a b) a = b
  | [], _ => by
    by_cases hb : b = unlisted <;> simp [writeCells, readCells, hb]
  | (k, d) :: rest, h => by
    have hlt : ∀ c ∈ rest, k < c.1 := fun c hc => (List.pairwise_cons.mp h.1).1 c hc
    by_cases h1 : a < k
    · by_cases hb : b = unlisted
      · have : readCells rest a = unlisted := readCells_of_below fun c hc => Nat.lt_trans h1 (hlt c hc)
        simp [writeCells, readCells, h1, hb, Nat.ne_of_lt h1, this]
      · simp [writeCells, readCells, h1, hb]
    · by_cases h2 : a = k
      · subst h2
        by_cases hb : b = unlisted
        · simp [writeCells, hb, readCells_of_below hlt]
        · simp [writeCells, readCells, hb]
      · simp only [writeCells, h1, h2, if_false, readCells]
        exact readCells_writeCells_same b (cellsWf_tail h)

/-- A written list holds only cells it held before, and the written one. -/
theorem mem_writeCells {a : Nat} {b : Byte} {c : Host.Cell} :
    ∀ {l : List Host.Cell}, c ∈ writeCells l a b → c ∈ l ∨ c = (a, b) ∧ b ≠ unlisted
  | [], h => by
    by_cases hb : b = unlisted <;> simp_all [writeCells]
  | (k, d) :: rest, h => by
    by_cases h1 : a < k
    · by_cases hb : b = unlisted
      · simp only [writeCells, h1, hb, if_true] at h; exact .inl h
      · simp only [writeCells, h1, hb, if_true, if_false, List.mem_cons] at h
        rcases h with h | h | h <;> simp [h, hb]
    · by_cases h2 : a = k
      · by_cases hb : b = unlisted
        · simp only [writeCells, h2, hb, if_true, Nat.lt_irrefl, if_false] at h; simp [h]
        · simp only [writeCells, h2, hb, if_true, Nat.lt_irrefl, if_false, List.mem_cons] at h
          rcases h with h | h <;> simp [h, hb, h2]
      · simp only [writeCells, h1, h2, if_false, List.mem_cons] at h
        rcases h with h | h
        · simp [h]
        · rcases mem_writeCells h with h | h
          · simp [h]
          · exact .inr h

theorem writeCells_wf {a : Nat} {b : Byte} (ha : a < memSize) :
    ∀ {l : List Host.Cell}, cellsWf l → cellsWf (writeCells l a b) := by
  intro l h
  refine ⟨?_, fun c hc => ?_⟩
  · induction l with
    | nil => by_cases hb : b = unlisted <;> simp [writeCells, hb]
    | cons x rest ih =>
      obtain ⟨k, d⟩ := x
      have hp := List.pairwise_cons.mp h.1
      by_cases h1 : a < k
      · by_cases hb : b = unlisted
        · simpa only [writeCells, h1, hb, if_true] using h.1
        · simp only [writeCells, h1, hb, if_true, if_false]
          refine List.pairwise_cons.mpr ⟨fun c hc => ?_, h.1⟩
          rcases List.mem_cons.mp hc with rfl | hc
          · exact h1
          · exact Nat.lt_trans h1 (hp.1 c hc)
      · by_cases h2 : a = k
        · by_cases hb : b = unlisted
          · simpa only [writeCells, h2, hb, if_true, Nat.lt_irrefl, if_false] using hp.2
          · simp only [writeCells, h2, hb, if_true, Nat.lt_irrefl, if_false]
            exact List.pairwise_cons.mpr ⟨fun c hc => hp.1 c hc, hp.2⟩
        · simp only [writeCells, h1, h2, if_false]
          refine List.pairwise_cons.mpr ⟨fun c hc => ?_, ih (cellsWf_tail h)⟩
          rcases mem_writeCells hc with hc | ⟨rfl, _⟩
          · exact hp.1 c hc
          · show k < a; omega
  · rcases mem_writeCells hc with hc | ⟨rfl, hb⟩
    · exact h.2 c hc
    · exact ⟨hb, ha⟩

/-! ## Bytes of memory -/

/-- Memory with nothing listed is in canonical form. -/
@[simp] theorem Memory.wf_empty : (Memory.mk []).wf := by
  simp [Memory.wf]

/-- Memory after reset is in canonical form. -/
theorem reset_mem_wf : State.reset.mem.wf := Memory.wf_empty

/-- A byte reads as what was just written to it. -/
theorem Memory.read_write_same {m : Memory} {a : Nat} (b : Byte) (h : m.wf) (ha : a < memSize) :
    (m.write a b).read a = b := by
  simp only [Memory.write, ha, if_true, Memory.read]
  exact readCells_writeCells_same b h

/-- A write leaves every other byte alone. -/
theorem Memory.read_write_other {a c : Nat} (m : Memory) (b : Byte) (h : c ≠ a) :
    (m.write a b).read c = m.read c := by
  unfold Memory.write
  split
  · exact readCells_writeCells_ne b h m.cells
  · rfl

/-- A write keeps the canonical form. -/
theorem Memory.write_wf {m : Memory} (a : Nat) (b : Byte) (h : m.wf) : (m.write a b).wf := by
  unfold Memory.write
  split
  · next ha => exact writeCells_wf ha h
  · exact h

/-- There is no byte past the last address to write. -/
theorem Memory.write_outside {a : Nat} (m : Memory) (b : Byte) (h : ¬ a < memSize) : m.write a b = m := by
  simp [Memory.write, h]

/-- Writing bytes keeps the canonical form. -/
theorem Memory.writeBytes_wf : ∀ (bs : List Byte) (a : Nat) {m : Memory}, m.wf → (Memory.writeBytes a bs m).wf
  | [], _, _, h => h
  | b :: bs, a, _, h => Memory.writeBytes_wf bs (a + 1) (Memory.write_wf a b h)

/-- Writing bytes leaves the bytes outside their range alone. -/
theorem Memory.read_writeBytes_outside {c : Nat} :
    ∀ (bs : List Byte) (a : Nat) (m : Memory), c < a ∨ a + bs.length ≤ c → (Memory.writeBytes a bs m).read c = m.read c
  | [], _, _, _ => rfl
  | b :: bs, a, m, h => by
    simp only [List.length_cons] at h
    rw [Memory.writeBytes, Memory.read_writeBytes_outside bs (a + 1) _ (by omega),
      Memory.read_write_other _ _ (by omega)]

/-- Replacing a range keeps the canonical form. -/
theorem Memory.replace_wf (f : Nat → Byte → Byte) :
    ∀ (n a : Nat) {m : Memory}, m.wf → (Memory.replace f a n m).wf
  | 0, _, _, h => h
  | n + 1, a, _, h => Memory.replace_wf f n (a + 1) (Memory.write_wf a _ h)

/-- Replacing a range leaves the bytes outside it alone. -/
theorem Memory.read_replace_outside (f : Nat → Byte → Byte) {c : Nat} :
    ∀ (n a : Nat) (m : Memory), c < a ∨ a + n ≤ c → (Memory.replace f a n m).read c = m.read c
  | 0, _, _, _ => rfl
  | n + 1, a, m, h => by
    rw [Memory.replace, Memory.read_replace_outside f n (a + 1) _ (by omega),
      Memory.read_write_other _ _ (by omega)]

/-- Replacing a range gives each of its bytes the new value. -/
theorem Memory.read_replace_inside (f : Nat → Byte → Byte) {c : Nat} (hc : c < memSize) :
    ∀ (n a : Nat) {m : Memory}, m.wf → a ≤ c → c < a + n → (Memory.replace f a n m).read c = f c (m.read c)
  | 0, _, _, _, h1, h2 => by omega
  | n + 1, a, m, h, h1, h2 => by
    rw [Memory.replace]
    by_cases hac : c = a
    · subst hac
      rw [Memory.read_replace_outside f n (c + 1) _ (by omega), Memory.read_write_same _ h hc]
    · rw [Memory.read_replace_inside f hc n (a + 1) (Memory.write_wf a _ h) (by omega) (by omega),
        Memory.read_write_other _ _ hac]

/-- A memory in canonical form is its bytes: two that read alike are equal. -/
theorem Memory.eq_of_read_eq {m n : Memory} (hm : m.wf) (hn : n.wf) (h : ∀ a, m.read a = n.read a) : m = n := by
  obtain ⟨l⟩ := m
  obtain ⟨k⟩ := n
  suffices l = k by rw [this]
  change cellsWf l at hm
  change cellsWf k at hn
  change ∀ a, readCells l a = readCells k a at h
  induction l generalizing k with
  | nil =>
    cases k with
    | nil => rfl
    | cons y k =>
      have := h y.1
      simp only [readCells, if_true] at this
      exact absurd this.symm (hn.2 y (by simp)).1
  | cons x l ih =>
    obtain ⟨xa, xb⟩ := x
    have hxl : ∀ c ∈ l, xa < c.1 := fun c hc => (List.pairwise_cons.mp hm.1).1 c hc
    have hxb : xb ≠ unlisted := (hm.2 (xa, xb) (by simp)).1
    cases k with
    | nil =>
      have := h xa
      simp only [readCells, if_true] at this
      exact absurd this hxb
    | cons y k =>
      obtain ⟨ya, yb⟩ := y
      have hyk : ∀ c ∈ k, ya < c.1 := fun c hc => (List.pairwise_cons.mp hn.1).1 c hc
      have hyb : yb ≠ unlisted := (hn.2 (ya, yb) (by simp)).1
      have hk : xa = ya := by
        rcases Nat.lt_trichotomy xa ya with hlt | heq | hlt
        · have h1 := h xa
          rw [readCells_of_below (l := (ya, yb) :: k) (a := xa)] at h1
          · simp only [readCells, if_true] at h1; exact absurd h1 hxb
          · intro c hc
            rcases List.mem_cons.mp hc with rfl | hc
            · exact hlt
            · exact Nat.lt_trans hlt (hyk c hc)
        · exact heq
        · have h1 := h ya
          rw [readCells_of_below (l := (xa, xb) :: l) (a := ya)] at h1
          · simp only [readCells, if_true] at h1; exact absurd h1.symm hyb
          · intro c hc
            rcases List.mem_cons.mp hc with rfl | hc
            · exact hlt
            · exact Nat.lt_trans hlt (hxl c hc)
      subst hk
      have hb : xb = yb := by have := h xa; simpa only [readCells, if_true] using this
      subst hb
      have : l = k := ih k (cellsWf_tail hm) (cellsWf_tail hn) fun a => by
        by_cases ha : a = xa
        · subst ha
          rw [readCells_of_below hxl, readCells_of_below hyk]
        · have := h a
          simpa only [readCells, ha, if_false] using this
      rw [this]

/-! ## The memory port -/

/-- An access that completes is to an address that exists. -/
theorem memOk_lt {map : List Region} {a : Nat} {k : AccessKind} (h : memOk map a k = true) : a < memSize := by
  simp only [memOk, Bool.and_eq_true, decide_eq_true_eq] at h
  exact h.1

/-- With no regions, exactly the addresses that exist complete. -/
@[simp] theorem memOk_nil (a : Nat) (k : AccessKind) : memOk [] a k = decide (a < memSize) := by
  simp [memOk]

/-- A read completes exactly when each byte access does. -/
theorem memRead_isSome (map : List Region) (m : Memory) :
    ∀ (n a : Nat), (memRead map m a n).isSome = true ↔ readable map a n
  | 0, a => by simp [memRead, readable]
  | n + 1, a => by
    have ih := memRead_isSome map m n (a + 1)
    have hsplit : readable map a (n + 1) ↔ memOk map a .read = true ∧ readable map (a + 1) n := by
      constructor
      · intro h
        refine ⟨by simpa using h 0 (by omega), fun i hi => ?_⟩
        have := h (i + 1) (by omega)
        rwa [show a + 1 + i = a + (i + 1) by omega]
      · rintro ⟨h0, h⟩ i hi
        cases i with
        | zero => simpa using h0
        | succ i => have := h i (by omega); rwa [show a + (i + 1) = a + 1 + i by omega]
    rw [hsplit, memRead]
    by_cases h0 : memOk map a .read = true
    · simp only [h0, if_true, true_and, ← ih]
      cases memRead map m (a + 1) n <;> simp
    · simp [h0]

/-- What a completed read returns depends only on the bytes it reads. -/
theorem memRead_value {map : List Region} {m : Memory} {v : Word} :
    ∀ {n a : Nat}, memRead map m a n = some v → memRead [] m a n = some v := by
  intro n
  induction n generalizing v with
  | zero => intro a h; simpa [memRead] using h
  | succ n ih =>
    intro a h
    rw [memRead] at h
    split at h
    · next h0 =>
      split at h
      · next hi hr =>
        have := ih hr
        simp only [memRead, memOk_nil, memOk_lt h0, decide_true, if_true, this]
        exact h
      · cases h
    · cases h

/-- Two memories with the same bytes in the range give the same read. -/
theorem memRead_congr (map : List Region) {m k : Memory} :
    ∀ (n a : Nat), (∀ i < n, m.read (a + i) = k.read (a + i)) → memRead map m a n = memRead map k a n
  | 0, _, _ => rfl
  | n + 1, a, h => by
    have h0 : m.read a = k.read a := h 0 (by omega)
    have ih : memRead map m (a + 1) n = memRead map k (a + 1) n :=
      memRead_congr map n (a + 1) fun i hi => by
        have := h (i + 1) (by omega)
        rwa [show a + 1 + i = a + (i + 1) by omega]
    simp only [memRead, h0, ih]

/-- A write completes exactly when each byte access does. -/
theorem memWrite_isSome (map : List Region) :
    ∀ (n a : Nat) (m : Memory) (v : Word), (memWrite map m a n v).isSome = true ↔ writable map a n
  | 0, a, m, v => by simp [memWrite, writable]
  | n + 1, a, m, v => by
    have ih := memWrite_isSome map n (a + 1) (m.write a (v.setWidth 8)) (v >>> 8)
    have hsplit : writable map a (n + 1) ↔ memOk map a .write = true ∧ writable map (a + 1) n := by
      constructor
      · intro h
        refine ⟨by simpa using h 0 (by omega), fun i hi => ?_⟩
        have := h (i + 1) (by omega)
        rwa [show a + 1 + i = a + (i + 1) by omega]
      · rintro ⟨h0, h⟩ i hi
        cases i with
        | zero => simpa using h0
        | succ i => have := h i (by omega); rwa [show a + (i + 1) = a + 1 + i by omega]
    rw [hsplit, memWrite]
    by_cases h0 : memOk map a .write = true
    · simp only [h0, if_true, true_and, ih]
    · simp [h0]

/-- What a completed write does: it keeps the canonical form, changes nothing outside its range, and stores byte `i` of the
value at address `a + i` (00_scope R10). -/
theorem memWrite_spec {map : List Region} :
    ∀ {n a : Nat} {m m' : Memory} {v : Word}, memWrite map m a n v = some m' →
      (m.wf → m'.wf) ∧ (∀ c, c < a ∨ a + n ≤ c → m'.read c = m.read c) ∧
        (m.wf → ∀ i < n, m'.read (a + i) = (v >>> (8 * i)).setWidth 8) := by
  intro n
  induction n with
  | zero =>
    intro a m m' v h
    simp only [memWrite, Option.some.injEq] at h
    subst h
    exact ⟨id, fun _ _ => rfl, fun _ i hi => by omega⟩
  | succ n ih =>
    intro a m m' v h
    rw [memWrite] at h
    split at h
    · next h0 =>
      obtain ⟨hwf, hframe, hbytes⟩ := ih h
      have ha : a < memSize := memOk_lt h0
      refine ⟨fun hm => hwf (Memory.write_wf _ _ hm), fun c hc => ?_, fun hm i hi => ?_⟩
      · rw [hframe c (by omega), Memory.read_write_other _ _ (by omega)]
      · cases i with
        | zero =>
          rw [Nat.add_zero, hframe a (by omega), Memory.read_write_same _ hm ha]
          simp
        | succ i =>
          have := hbytes (Memory.write_wf _ _ hm) i (by omega)
          rw [show a + (i + 1) = a + 1 + i by omega, this, ← BitVec.shiftRight_add,
            show 8 + 8 * i = 8 * (i + 1) by omega]
    · cases h

/-- Bit `j` of what a read of at most 8 bytes returns is bit `j % 8` of byte `j / 8`; above its bytes the value is 0
(00_scope R10). -/
theorem memRead_getLsbD {map : List Region} {m : Memory} :
    ∀ {n a : Nat} {v : Word}, n ≤ 8 → memRead map m a n = some v →
      ∀ j, v.getLsbD j = (decide (j < 8 * n) && (m.read (a + j / 8)).getLsbD (j % 8)) := by
  intro n
  induction n with
  | zero =>
    intro a v _ h j
    simp only [memRead, Option.some.injEq] at h
    subst h
    simp
  | succ n ih =>
    intro a v hn h j
    rw [memRead] at h
    split at h
    · split at h
      · next hi hr =>
        simp only [Option.some.injEq] at h
        subst h
        have ihj := ih (by omega) hr (j - 8)
        rw [BitVec.getLsbD_or, BitVec.getLsbD_setWidth, BitVec.getLsbD_shiftLeft, ihj]
        by_cases hj : j < 8
        · have h1 : j < 64 := by omega
          have h2 : j < 8 * (n + 1) := by omega
          simp [hj, h1, h2, Nat.div_eq_of_lt hj, Nat.mod_eq_of_lt hj]
        · have hz : (m.read a).getLsbD j = false := BitVec.getLsbD_of_ge _ _ (by omega)
          have e1 : a + 1 + (j - 8) / 8 = a + j / 8 := by omega
          have e2 : (j - 8) % 8 = j % 8 := by omega
          rw [hz, e1, e2]
          by_cases h64 : j < 64
          · by_cases h8 : j < 8 * (n + 1)
            · have : j - 8 < 8 * n := by omega
              simp [hj, h64, h8, this]
            · have : ¬ j - 8 < 8 * n := by omega
              simp [h8, this]
          · have : ¬ j - 8 < 8 * n := by omega
            have h8 : ¬ j < 8 * (n + 1) := by omega
            simp [h8, this]
      · cases h
    · cases h

/-- Bytes that exist can be read whatever they hold. -/
theorem memRead_nil_isSome (m : Memory) {a n : Nat} (h : a + n ≤ memSize) : (memRead [] m a n).isSome = true := by
  rw [memRead_isSome]
  intro i hi
  simp only [memOk_nil, decide_eq_true_eq]
  omega

/-- What was just written reads back, cut to the bytes written (00_scope R10). -/
theorem memRead_of_memWrite {map : List Region} {m m' : Memory} {a n : Nat} {v : Word} (hn : n ≤ 8) (hm : m.wf)
    (h : memWrite map m a n v = some m') : memRead [] m' a n = some ((v.setWidth (8 * n)).setWidth 64) := by
  have hw : writable map a n := (memWrite_isSome map n a m v).mp (by rw [h]; rfl)
  have hs : (memRead [] m' a n).isSome = true := by
    rw [memRead_isSome]
    intro i hi
    simpa using memOk_lt (hw i hi)
  obtain ⟨u, hu⟩ := Option.isSome_iff_exists.mp hs
  rw [hu]
  congr 1
  refine BitVec.eq_of_getLsbD_eq fun j hj => ?_
  rw [memRead_getLsbD hn hu, BitVec.getLsbD_setWidth, BitVec.getLsbD_setWidth]
  by_cases h8 : j < 8 * n
  · have hb := (memWrite_spec h).2.2 hm (j / 8) (by omega)
    rw [hb, BitVec.getLsbD_setWidth, BitVec.getLsbD_ushiftRight]
    have e : 8 * (j / 8) + j % 8 = j := by omega
    have h3 : j % 8 < 8 := by omega
    simp [h8, hj, h3, e]
  · simp [h8]

/-- A code word just written reads back. -/
theorem wordAt_of_memWrite {map : List Region} {m m' : Memory} {a : Nat} {v : Word} (hm : m.wf)
    (h : memWrite map m a 8 v = some m') : wordAt m' a = v := by
  simp [wordAt, memRead_of_memWrite (by omega) hm h]

/-- A word depends on its eight bytes only. -/
theorem wordAt_congr {m k : Memory} {a : Nat} (h : ∀ i < 8, m.read (a + i) = k.read (a + i)) :
    wordAt m a = wordAt k a := by
  simp [wordAt, memRead_congr [] 8 a h]

/-- An element depends on its bytes only. -/
theorem elemAt_congr {m k : Memory} {eb a j : Nat} (h : ∀ i < eb, m.read (a + j * eb + i) = k.read (a + j * eb + i)) :
    elemAt m eb a j = elemAt k eb a j := by
  simp [elemAt, memRead_congr [] eb (a + j * eb) h]

/-- The words of a stream, the first one split off. -/
theorem wordsAt_succ (m : Memory) (n a : Nat) : wordsAt m (n + 1) a = wordAt m a :: wordsAt m n (a + 8) := by
  simp only [wordsAt, List.range_succ_eq_map, List.map_cons, List.map_map, Nat.mul_zero, Nat.add_zero]
  refine congrArg _ (List.map_congr_left fun w _ => ?_)
  simp only [Function.comp_apply]
  congr 1
  omega

@[simp] theorem wordsAt_zero (m : Memory) (a : Nat) : wordsAt m 0 a = [] := rfl

@[simp] theorem wordsAt_length (m : Memory) (n a : Nat) : (wordsAt m n a).length = n := by
  simp [wordsAt]

/-- A completed read of a code word gives the word of the stream. -/
theorem wordAt_of_memRead {map : List Region} {m : Memory} {a : Nat} {w : Word} (h : memRead map m a 8 = some w) :
    wordAt m a = w := by
  simp [wordAt, memRead_value h]

/-- A completed read of an element gives the element of the array. -/
theorem elemAt_of_memRead {map : List Region} {m : Memory} {eb a : Nat} {v : Word}
    (h : memRead map m a eb = some v) : elemAt m eb a 0 = v := by
  simp [elemAt, memRead_value h]

end Sys2Proof.Machine
end

