-- ==== Sys2Proof/Laws/State.lean ====
section
/-! SUPPORT. One lemma per field per update of State, so that no later proof unfolds a record update; and the two ways to name an
ended command. -/

namespace Sys2Proof.Machine

/-! ### accept: acceptance of a command (10_state R31) -/

@[simp] theorem State.accept_ie (s : State) (v : Word) : (s.accept v).ie = s.ie := rfl
@[simp] theorem State.accept_busy (s : State) (v : Word) : (s.accept v).busy = true := rfl
@[simp] theorem State.accept_done (s : State) (v : Word) : (s.accept v).done = false := rfl
@[simp] theorem State.accept_ovr (s : State) (v : Word) : (s.accept v).ovr = s.ovr := rfl
@[simp] theorem State.accept_errCode (s : State) (v : Word) : (s.accept v).errCode = .none := rfl
@[simp] theorem State.accept_cmd (s : State) (v : Word) : (s.accept v).cmd = v := rfl
@[simp] theorem State.accept_srcAddr (s : State) (v : Word) : (s.accept v).srcAddr = s.srcAddr := rfl
@[simp] theorem State.accept_srcLen (s : State) (v : Word) : (s.accept v).srcLen = s.srcLen := rfl
@[simp] theorem State.accept_dstAddr (s : State) (v : Word) : (s.accept v).dstAddr = s.dstAddr := rfl
@[simp] theorem State.accept_dstLen (s : State) (v : Word) : (s.accept v).dstLen = s.dstLen := rfl
@[simp] theorem State.accept_minv (s : State) (v : Word) : (s.accept v).minv = s.minv := rfl
@[simp] theorem State.accept_maxv (s : State) (v : Word) : (s.accept v).maxv = s.maxv := rfl
@[simp] theorem State.accept_opa (s : State) (v : Word) : (s.accept v).opa = s.opa := rfl
@[simp] theorem State.accept_opb (s : State) (v : Word) : (s.accept v).opb = s.opb := rfl
@[simp] theorem State.accept_word (s : State) (v : Word) : (s.accept v).word = s.word := rfl
@[simp] theorem State.accept_mask (s : State) (v : Word) : (s.accept v).mask = s.mask := rfl
@[simp] theorem State.accept_result (s : State) (v : Word) : (s.accept v).result = s.result := rfl
@[simp] theorem State.accept_mem (s : State) (v : Word) : (s.accept v).mem = s.mem := rfl
@[simp] theorem State.accept_memMap (s : State) (v : Word) : (s.accept v).memMap = s.memMap := rfl
@[simp] theorem State.accept_disturbed (s : State) (v : Word) : (s.accept v).disturbed = false := rfl
@[simp] theorem State.accept_turns (s : State) (v : Word) : (s.accept v).turns = s.turns := rfl
@[simp] theorem State.accept_readData (s : State) (v : Word) : (s.accept v).readData = s.readData := rfl
@[simp] theorem State.accept_freeCount (s : State) (v : Word) : (s.accept v).freeCount = s.freeCount := rfl

/-! ### complete: completion without error (60_exceptions R281) -/

@[simp] theorem State.complete_ie (s : State) (r : Word) : (s.complete r).ie = s.ie := rfl
@[simp] theorem State.complete_busy (s : State) (r : Word) : (s.complete r).busy = false := rfl
@[simp] theorem State.complete_done (s : State) (r : Word) : (s.complete r).done = true := rfl
@[simp] theorem State.complete_ovr (s : State) (r : Word) : (s.complete r).ovr = s.ovr := rfl
@[simp] theorem State.complete_errCode (s : State) (r : Word) : (s.complete r).errCode = .none := rfl
@[simp] theorem State.complete_cmd (s : State) (r : Word) : (s.complete r).cmd = s.cmd := rfl
@[simp] theorem State.complete_srcAddr (s : State) (r : Word) : (s.complete r).srcAddr = s.srcAddr := rfl
@[simp] theorem State.complete_srcLen (s : State) (r : Word) : (s.complete r).srcLen = s.srcLen := rfl
@[simp] theorem State.complete_dstAddr (s : State) (r : Word) : (s.complete r).dstAddr = s.dstAddr := rfl
@[simp] theorem State.complete_dstLen (s : State) (r : Word) : (s.complete r).dstLen = s.dstLen := rfl
@[simp] theorem State.complete_minv (s : State) (r : Word) : (s.complete r).minv = s.minv := rfl
@[simp] theorem State.complete_maxv (s : State) (r : Word) : (s.complete r).maxv = s.maxv := rfl
@[simp] theorem State.complete_opa (s : State) (r : Word) : (s.complete r).opa = s.opa := rfl
@[simp] theorem State.complete_opb (s : State) (r : Word) : (s.complete r).opb = s.opb := rfl
@[simp] theorem State.complete_word (s : State) (r : Word) : (s.complete r).word = s.word := rfl
@[simp] theorem State.complete_mask (s : State) (r : Word) : (s.complete r).mask = s.mask := rfl
@[simp] theorem State.complete_result (s : State) (r : Word) : (s.complete r).result = r := rfl
@[simp] theorem State.complete_mem (s : State) (r : Word) : (s.complete r).mem = s.mem := rfl
@[simp] theorem State.complete_memMap (s : State) (r : Word) : (s.complete r).memMap = s.memMap := rfl
@[simp] theorem State.complete_disturbed (s : State) (r : Word) : (s.complete r).disturbed = false := rfl
@[simp] theorem State.complete_turns (s : State) (r : Word) : (s.complete r).turns = s.turns := rfl
@[simp] theorem State.complete_readData (s : State) (r : Word) : (s.complete r).readData = s.readData := rfl
@[simp] theorem State.complete_freeCount (s : State) (r : Word) : (s.complete r).freeCount = s.freeCount := rfl

/-! ### raiseError: completion with an error (60_exceptions R280) -/

@[simp] theorem State.raiseError_ie (s : State) (e : ErrCode) : (s.raiseError e).ie = s.ie := rfl
@[simp] theorem State.raiseError_busy (s : State) (e : ErrCode) : (s.raiseError e).busy = false := rfl
@[simp] theorem State.raiseError_done (s : State) (e : ErrCode) : (s.raiseError e).done = true := rfl
@[simp] theorem State.raiseError_ovr (s : State) (e : ErrCode) : (s.raiseError e).ovr = s.ovr := rfl
@[simp] theorem State.raiseError_errCode (s : State) (e : ErrCode) : (s.raiseError e).errCode = e := rfl
@[simp] theorem State.raiseError_cmd (s : State) (e : ErrCode) : (s.raiseError e).cmd = s.cmd := rfl
@[simp] theorem State.raiseError_srcAddr (s : State) (e : ErrCode) : (s.raiseError e).srcAddr = s.srcAddr := rfl
@[simp] theorem State.raiseError_srcLen (s : State) (e : ErrCode) : (s.raiseError e).srcLen = s.srcLen := rfl
@[simp] theorem State.raiseError_dstAddr (s : State) (e : ErrCode) : (s.raiseError e).dstAddr = s.dstAddr := rfl
@[simp] theorem State.raiseError_dstLen (s : State) (e : ErrCode) : (s.raiseError e).dstLen = s.dstLen := rfl
@[simp] theorem State.raiseError_minv (s : State) (e : ErrCode) : (s.raiseError e).minv = s.minv := rfl
@[simp] theorem State.raiseError_maxv (s : State) (e : ErrCode) : (s.raiseError e).maxv = s.maxv := rfl
@[simp] theorem State.raiseError_opa (s : State) (e : ErrCode) : (s.raiseError e).opa = s.opa := rfl
@[simp] theorem State.raiseError_opb (s : State) (e : ErrCode) : (s.raiseError e).opb = s.opb := rfl
@[simp] theorem State.raiseError_word (s : State) (e : ErrCode) : (s.raiseError e).word = s.word := rfl
@[simp] theorem State.raiseError_mask (s : State) (e : ErrCode) : (s.raiseError e).mask = s.mask := rfl
@[simp] theorem State.raiseError_result (s : State) (e : ErrCode) : (s.raiseError e).result = 0 := rfl
@[simp] theorem State.raiseError_mem (s : State) (e : ErrCode) : (s.raiseError e).mem = s.mem := rfl
@[simp] theorem State.raiseError_memMap (s : State) (e : ErrCode) : (s.raiseError e).memMap = s.memMap := rfl
@[simp] theorem State.raiseError_disturbed (s : State) (e : ErrCode) : (s.raiseError e).disturbed = false := rfl
@[simp] theorem State.raiseError_turns (s : State) (e : ErrCode) : (s.raiseError e).turns = s.turns := rfl
@[simp] theorem State.raiseError_readData (s : State) (e : ErrCode) : (s.raiseError e).readData = s.readData := rfl
@[simp] theorem State.raiseError_freeCount (s : State) (e : ErrCode) : (s.raiseError e).freeCount = s.freeCount := rfl

/-! ### acknowledge: the acknowledge (60_exceptions R284) -/

@[simp] theorem State.acknowledge_ie (s : State) : (s.acknowledge).ie = s.ie := rfl
@[simp] theorem State.acknowledge_busy (s : State) : (s.acknowledge).busy = s.busy := rfl
@[simp] theorem State.acknowledge_done (s : State) : (s.acknowledge).done = false := rfl
@[simp] theorem State.acknowledge_ovr (s : State) : (s.acknowledge).ovr = s.ovr := rfl
@[simp] theorem State.acknowledge_errCode (s : State) : (s.acknowledge).errCode = s.errCode := rfl
@[simp] theorem State.acknowledge_cmd (s : State) : (s.acknowledge).cmd = s.cmd := rfl
@[simp] theorem State.acknowledge_srcAddr (s : State) : (s.acknowledge).srcAddr = s.srcAddr := rfl
@[simp] theorem State.acknowledge_srcLen (s : State) : (s.acknowledge).srcLen = s.srcLen := rfl
@[simp] theorem State.acknowledge_dstAddr (s : State) : (s.acknowledge).dstAddr = s.dstAddr := rfl
@[simp] theorem State.acknowledge_dstLen (s : State) : (s.acknowledge).dstLen = s.dstLen := rfl
@[simp] theorem State.acknowledge_minv (s : State) : (s.acknowledge).minv = s.minv := rfl
@[simp] theorem State.acknowledge_maxv (s : State) : (s.acknowledge).maxv = s.maxv := rfl
@[simp] theorem State.acknowledge_opa (s : State) : (s.acknowledge).opa = s.opa := rfl
@[simp] theorem State.acknowledge_opb (s : State) : (s.acknowledge).opb = s.opb := rfl
@[simp] theorem State.acknowledge_word (s : State) : (s.acknowledge).word = s.word := rfl
@[simp] theorem State.acknowledge_mask (s : State) : (s.acknowledge).mask = s.mask := rfl
@[simp] theorem State.acknowledge_result (s : State) : (s.acknowledge).result = s.result := rfl
@[simp] theorem State.acknowledge_mem (s : State) : (s.acknowledge).mem = s.mem := rfl
@[simp] theorem State.acknowledge_memMap (s : State) : (s.acknowledge).memMap = s.memMap := rfl
@[simp] theorem State.acknowledge_disturbed (s : State) : (s.acknowledge).disturbed = s.disturbed := rfl
@[simp] theorem State.acknowledge_turns (s : State) : (s.acknowledge).turns = s.turns := rfl
@[simp] theorem State.acknowledge_readData (s : State) : (s.acknowledge).readData = s.readData := rfl
@[simp] theorem State.acknowledge_freeCount (s : State) : (s.acknowledge).freeCount = s.freeCount := rfl

/-! ### withMem: a new memory -/

@[simp] theorem State.withMem_ie (s : State) (m : Memory) : (s.withMem m).ie = s.ie := rfl
@[simp] theorem State.withMem_busy (s : State) (m : Memory) : (s.withMem m).busy = s.busy := rfl
@[simp] theorem State.withMem_done (s : State) (m : Memory) : (s.withMem m).done = s.done := rfl
@[simp] theorem State.withMem_ovr (s : State) (m : Memory) : (s.withMem m).ovr = s.ovr := rfl
@[simp] theorem State.withMem_errCode (s : State) (m : Memory) : (s.withMem m).errCode = s.errCode := rfl
@[simp] theorem State.withMem_cmd (s : State) (m : Memory) : (s.withMem m).cmd = s.cmd := rfl
@[simp] theorem State.withMem_srcAddr (s : State) (m : Memory) : (s.withMem m).srcAddr = s.srcAddr := rfl
@[simp] theorem State.withMem_srcLen (s : State) (m : Memory) : (s.withMem m).srcLen = s.srcLen := rfl
@[simp] theorem State.withMem_dstAddr (s : State) (m : Memory) : (s.withMem m).dstAddr = s.dstAddr := rfl
@[simp] theorem State.withMem_dstLen (s : State) (m : Memory) : (s.withMem m).dstLen = s.dstLen := rfl
@[simp] theorem State.withMem_minv (s : State) (m : Memory) : (s.withMem m).minv = s.minv := rfl
@[simp] theorem State.withMem_maxv (s : State) (m : Memory) : (s.withMem m).maxv = s.maxv := rfl
@[simp] theorem State.withMem_opa (s : State) (m : Memory) : (s.withMem m).opa = s.opa := rfl
@[simp] theorem State.withMem_opb (s : State) (m : Memory) : (s.withMem m).opb = s.opb := rfl
@[simp] theorem State.withMem_word (s : State) (m : Memory) : (s.withMem m).word = s.word := rfl
@[simp] theorem State.withMem_mask (s : State) (m : Memory) : (s.withMem m).mask = s.mask := rfl
@[simp] theorem State.withMem_result (s : State) (m : Memory) : (s.withMem m).result = s.result := rfl
@[simp] theorem State.withMem_mem (s : State) (m : Memory) : (s.withMem m).mem = m := rfl
@[simp] theorem State.withMem_memMap (s : State) (m : Memory) : (s.withMem m).memMap = s.memMap := rfl
@[simp] theorem State.withMem_disturbed (s : State) (m : Memory) : (s.withMem m).disturbed = s.disturbed := rfl
@[simp] theorem State.withMem_turns (s : State) (m : Memory) : (s.withMem m).turns = s.turns := rfl
@[simp] theorem State.withMem_readData (s : State) (m : Memory) : (s.withMem m).readData = s.readData := rfl
@[simp] theorem State.withMem_freeCount (s : State) (m : Memory) : (s.withMem m).freeCount = s.freeCount := rfl

/-! ### withWord: a new WORD -/

@[simp] theorem State.withWord_ie (s : State) (w : Word) : (s.withWord w).ie = s.ie := rfl
@[simp] theorem State.withWord_busy (s : State) (w : Word) : (s.withWord w).busy = s.busy := rfl
@[simp] theorem State.withWord_done (s : State) (w : Word) : (s.withWord w).done = s.done := rfl
@[simp] theorem State.withWord_ovr (s : State) (w : Word) : (s.withWord w).ovr = s.ovr := rfl
@[simp] theorem State.withWord_errCode (s : State) (w : Word) : (s.withWord w).errCode = s.errCode := rfl
@[simp] theorem State.withWord_cmd (s : State) (w : Word) : (s.withWord w).cmd = s.cmd := rfl
@[simp] theorem State.withWord_srcAddr (s : State) (w : Word) : (s.withWord w).srcAddr = s.srcAddr := rfl
@[simp] theorem State.withWord_srcLen (s : State) (w : Word) : (s.withWord w).srcLen = s.srcLen := rfl
@[simp] theorem State.withWord_dstAddr (s : State) (w : Word) : (s.withWord w).dstAddr = s.dstAddr := rfl
@[simp] theorem State.withWord_dstLen (s : State) (w : Word) : (s.withWord w).dstLen = s.dstLen := rfl
@[simp] theorem State.withWord_minv (s : State) (w : Word) : (s.withWord w).minv = s.minv := rfl
@[simp] theorem State.withWord_maxv (s : State) (w : Word) : (s.withWord w).maxv = s.maxv := rfl
@[simp] theorem State.withWord_opa (s : State) (w : Word) : (s.withWord w).opa = s.opa := rfl
@[simp] theorem State.withWord_opb (s : State) (w : Word) : (s.withWord w).opb = s.opb := rfl
@[simp] theorem State.withWord_word (s : State) (w : Word) : (s.withWord w).word = w := rfl
@[simp] theorem State.withWord_mask (s : State) (w : Word) : (s.withWord w).mask = s.mask := rfl
@[simp] theorem State.withWord_result (s : State) (w : Word) : (s.withWord w).result = s.result := rfl
@[simp] theorem State.withWord_mem (s : State) (w : Word) : (s.withWord w).mem = s.mem := rfl
@[simp] theorem State.withWord_memMap (s : State) (w : Word) : (s.withWord w).memMap = s.memMap := rfl
@[simp] theorem State.withWord_disturbed (s : State) (w : Word) : (s.withWord w).disturbed = s.disturbed := rfl
@[simp] theorem State.withWord_turns (s : State) (w : Word) : (s.withWord w).turns = s.turns := rfl
@[simp] theorem State.withWord_readData (s : State) (w : Word) : (s.withWord w).readData = s.readData := rfl
@[simp] theorem State.withWord_freeCount (s : State) (w : Word) : (s.withWord w).freeCount = s.freeCount := rfl

/-! ### withMask: a new MASK -/

@[simp] theorem State.withMask_ie (s : State) (w : Word) : (s.withMask w).ie = s.ie := rfl
@[simp] theorem State.withMask_busy (s : State) (w : Word) : (s.withMask w).busy = s.busy := rfl
@[simp] theorem State.withMask_done (s : State) (w : Word) : (s.withMask w).done = s.done := rfl
@[simp] theorem State.withMask_ovr (s : State) (w : Word) : (s.withMask w).ovr = s.ovr := rfl
@[simp] theorem State.withMask_errCode (s : State) (w : Word) : (s.withMask w).errCode = s.errCode := rfl
@[simp] theorem State.withMask_cmd (s : State) (w : Word) : (s.withMask w).cmd = s.cmd := rfl
@[simp] theorem State.withMask_srcAddr (s : State) (w : Word) : (s.withMask w).srcAddr = s.srcAddr := rfl
@[simp] theorem State.withMask_srcLen (s : State) (w : Word) : (s.withMask w).srcLen = s.srcLen := rfl
@[simp] theorem State.withMask_dstAddr (s : State) (w : Word) : (s.withMask w).dstAddr = s.dstAddr := rfl
@[simp] theorem State.withMask_dstLen (s : State) (w : Word) : (s.withMask w).dstLen = s.dstLen := rfl
@[simp] theorem State.withMask_minv (s : State) (w : Word) : (s.withMask w).minv = s.minv := rfl
@[simp] theorem State.withMask_maxv (s : State) (w : Word) : (s.withMask w).maxv = s.maxv := rfl
@[simp] theorem State.withMask_opa (s : State) (w : Word) : (s.withMask w).opa = s.opa := rfl
@[simp] theorem State.withMask_opb (s : State) (w : Word) : (s.withMask w).opb = s.opb := rfl
@[simp] theorem State.withMask_word (s : State) (w : Word) : (s.withMask w).word = s.word := rfl
@[simp] theorem State.withMask_mask (s : State) (w : Word) : (s.withMask w).mask = w := rfl
@[simp] theorem State.withMask_result (s : State) (w : Word) : (s.withMask w).result = s.result := rfl
@[simp] theorem State.withMask_mem (s : State) (w : Word) : (s.withMask w).mem = s.mem := rfl
@[simp] theorem State.withMask_memMap (s : State) (w : Word) : (s.withMask w).memMap = s.memMap := rfl
@[simp] theorem State.withMask_disturbed (s : State) (w : Word) : (s.withMask w).disturbed = s.disturbed := rfl
@[simp] theorem State.withMask_turns (s : State) (w : Word) : (s.withMask w).turns = s.turns := rfl
@[simp] theorem State.withMask_readData (s : State) (w : Word) : (s.withMask w).readData = s.readData := rfl
@[simp] theorem State.withMask_freeCount (s : State) (w : Word) : (s.withMask w).freeCount = s.freeCount := rfl

/-! ### nextFree: the use of a free value -/

@[simp] theorem State.nextFree_ie (s : State) : (s.nextFree).ie = s.ie := rfl
@[simp] theorem State.nextFree_busy (s : State) : (s.nextFree).busy = s.busy := rfl
@[simp] theorem State.nextFree_done (s : State) : (s.nextFree).done = s.done := rfl
@[simp] theorem State.nextFree_ovr (s : State) : (s.nextFree).ovr = s.ovr := rfl
@[simp] theorem State.nextFree_errCode (s : State) : (s.nextFree).errCode = s.errCode := rfl
@[simp] theorem State.nextFree_cmd (s : State) : (s.nextFree).cmd = s.cmd := rfl
@[simp] theorem State.nextFree_srcAddr (s : State) : (s.nextFree).srcAddr = s.srcAddr := rfl
@[simp] theorem State.nextFree_srcLen (s : State) : (s.nextFree).srcLen = s.srcLen := rfl
@[simp] theorem State.nextFree_dstAddr (s : State) : (s.nextFree).dstAddr = s.dstAddr := rfl
@[simp] theorem State.nextFree_dstLen (s : State) : (s.nextFree).dstLen = s.dstLen := rfl
@[simp] theorem State.nextFree_minv (s : State) : (s.nextFree).minv = s.minv := rfl
@[simp] theorem State.nextFree_maxv (s : State) : (s.nextFree).maxv = s.maxv := rfl
@[simp] theorem State.nextFree_opa (s : State) : (s.nextFree).opa = s.opa := rfl
@[simp] theorem State.nextFree_opb (s : State) : (s.nextFree).opb = s.opb := rfl
@[simp] theorem State.nextFree_word (s : State) : (s.nextFree).word = s.word := rfl
@[simp] theorem State.nextFree_mask (s : State) : (s.nextFree).mask = s.mask := rfl
@[simp] theorem State.nextFree_result (s : State) : (s.nextFree).result = s.result := rfl
@[simp] theorem State.nextFree_mem (s : State) : (s.nextFree).mem = s.mem := rfl
@[simp] theorem State.nextFree_memMap (s : State) : (s.nextFree).memMap = s.memMap := rfl
@[simp] theorem State.nextFree_disturbed (s : State) : (s.nextFree).disturbed = s.disturbed := rfl
@[simp] theorem State.nextFree_turns (s : State) : (s.nextFree).turns = s.turns := rfl
@[simp] theorem State.nextFree_readData (s : State) : (s.nextFree).readData = s.readData := rfl
@[simp] theorem State.nextFree_freeCount (s : State) : (s.nextFree).freeCount = s.freeCount + 1 := rfl

/-! ### scramble: an unspecified range (60_exceptions R280) -/

@[simp] theorem State.scramble_ie (s : State) (r : Span) : (s.scramble r).ie = s.ie := rfl
@[simp] theorem State.scramble_busy (s : State) (r : Span) : (s.scramble r).busy = s.busy := rfl
@[simp] theorem State.scramble_done (s : State) (r : Span) : (s.scramble r).done = s.done := rfl
@[simp] theorem State.scramble_ovr (s : State) (r : Span) : (s.scramble r).ovr = s.ovr := rfl
@[simp] theorem State.scramble_errCode (s : State) (r : Span) : (s.scramble r).errCode = s.errCode := rfl
@[simp] theorem State.scramble_cmd (s : State) (r : Span) : (s.scramble r).cmd = s.cmd := rfl
@[simp] theorem State.scramble_srcAddr (s : State) (r : Span) : (s.scramble r).srcAddr = s.srcAddr := rfl
@[simp] theorem State.scramble_srcLen (s : State) (r : Span) : (s.scramble r).srcLen = s.srcLen := rfl
@[simp] theorem State.scramble_dstAddr (s : State) (r : Span) : (s.scramble r).dstAddr = s.dstAddr := rfl
@[simp] theorem State.scramble_dstLen (s : State) (r : Span) : (s.scramble r).dstLen = s.dstLen := rfl
@[simp] theorem State.scramble_minv (s : State) (r : Span) : (s.scramble r).minv = s.minv := rfl
@[simp] theorem State.scramble_maxv (s : State) (r : Span) : (s.scramble r).maxv = s.maxv := rfl
@[simp] theorem State.scramble_opa (s : State) (r : Span) : (s.scramble r).opa = s.opa := rfl
@[simp] theorem State.scramble_opb (s : State) (r : Span) : (s.scramble r).opb = s.opb := rfl
@[simp] theorem State.scramble_word (s : State) (r : Span) : (s.scramble r).word = s.word := rfl
@[simp] theorem State.scramble_mask (s : State) (r : Span) : (s.scramble r).mask = s.mask := rfl
@[simp] theorem State.scramble_result (s : State) (r : Span) : (s.scramble r).result = s.result := rfl
@[simp] theorem State.scramble_mem (s : State) (r : Span) :
    (s.scramble r).mem = s.mem.replace (fun a _ => Config.freeByte s.freeCount a) r.start r.size := rfl
@[simp] theorem State.scramble_memMap (s : State) (r : Span) : (s.scramble r).memMap = s.memMap := rfl
@[simp] theorem State.scramble_disturbed (s : State) (r : Span) : (s.scramble r).disturbed = s.disturbed := rfl
@[simp] theorem State.scramble_turns (s : State) (r : Span) : (s.scramble r).turns = s.turns := rfl
@[simp] theorem State.scramble_readData (s : State) (r : Span) : (s.scramble r).readData = s.readData := rfl
@[simp] theorem State.scramble_freeCount (s : State) (r : Span) : (s.scramble r).freeCount = s.freeCount + 1 := rfl

/-! ### raiseLate: a late error (60_exceptions R280) -/

@[simp] theorem State.raiseLate_ie (s : State) (d : Span) (e : ErrCode) : (s.raiseLate d e).ie = s.ie := rfl
@[simp] theorem State.raiseLate_busy (s : State) (d : Span) (e : ErrCode) : (s.raiseLate d e).busy = false := rfl
@[simp] theorem State.raiseLate_done (s : State) (d : Span) (e : ErrCode) : (s.raiseLate d e).done = true := rfl
@[simp] theorem State.raiseLate_ovr (s : State) (d : Span) (e : ErrCode) : (s.raiseLate d e).ovr = s.ovr := rfl
@[simp] theorem State.raiseLate_errCode (s : State) (d : Span) (e : ErrCode) : (s.raiseLate d e).errCode = e := rfl
@[simp] theorem State.raiseLate_cmd (s : State) (d : Span) (e : ErrCode) : (s.raiseLate d e).cmd = s.cmd := rfl
@[simp] theorem State.raiseLate_srcAddr (s : State) (d : Span) (e : ErrCode) :
    (s.raiseLate d e).srcAddr = s.srcAddr := rfl
@[simp] theorem State.raiseLate_srcLen (s : State) (d : Span) (e : ErrCode) :
    (s.raiseLate d e).srcLen = s.srcLen := rfl
@[simp] theorem State.raiseLate_dstAddr (s : State) (d : Span) (e : ErrCode) :
    (s.raiseLate d e).dstAddr = s.dstAddr := rfl
@[simp] theorem State.raiseLate_dstLen (s : State) (d : Span) (e : ErrCode) :
    (s.raiseLate d e).dstLen = s.dstLen := rfl
@[simp] theorem State.raiseLate_minv (s : State) (d : Span) (e : ErrCode) : (s.raiseLate d e).minv = s.minv := rfl
@[simp] theorem State.raiseLate_maxv (s : State) (d : Span) (e : ErrCode) : (s.raiseLate d e).maxv = s.maxv := rfl
@[simp] theorem State.raiseLate_opa (s : State) (d : Span) (e : ErrCode) : (s.raiseLate d e).opa = s.opa := rfl
@[simp] theorem State.raiseLate_opb (s : State) (d : Span) (e : ErrCode) : (s.raiseLate d e).opb = s.opb := rfl
@[simp] theorem State.raiseLate_word (s : State) (d : Span) (e : ErrCode) : (s.raiseLate d e).word = s.word := rfl
@[simp] theorem State.raiseLate_mask (s : State) (d : Span) (e : ErrCode) : (s.raiseLate d e).mask = s.mask := rfl
@[simp] theorem State.raiseLate_result (s : State) (d : Span) (e : ErrCode) : (s.raiseLate d e).result = 0 := rfl
@[simp] theorem State.raiseLate_mem (s : State) (d : Span) (e : ErrCode) :
    (s.raiseLate d e).mem = s.mem.replace (fun a _ => Config.freeByte s.freeCount a) d.start d.size := rfl
@[simp] theorem State.raiseLate_memMap (s : State) (d : Span) (e : ErrCode) :
    (s.raiseLate d e).memMap = s.memMap := rfl
@[simp] theorem State.raiseLate_disturbed (s : State) (d : Span) (e : ErrCode) :
    (s.raiseLate d e).disturbed = false := rfl
@[simp] theorem State.raiseLate_turns (s : State) (d : Span) (e : ErrCode) : (s.raiseLate d e).turns = s.turns := rfl
@[simp] theorem State.raiseLate_readData (s : State) (d : Span) (e : ErrCode) :
    (s.raiseLate d e).readData = s.readData := rfl
@[simp] theorem State.raiseLate_freeCount (s : State) (d : Span) (e : ErrCode) :
    (s.raiseLate d e).freeCount = s.freeCount + 1 := rfl

/-! ### scrambleHits: an unspecified bitset (60_exceptions R280) -/

@[simp] theorem State.scrambleHits_ie (s : State) (d : Span) (hs : List Bool) : (s.scrambleHits d hs).ie = s.ie := rfl
@[simp] theorem State.scrambleHits_busy (s : State) (d : Span) (hs : List Bool) :
    (s.scrambleHits d hs).busy = s.busy := rfl
@[simp] theorem State.scrambleHits_done (s : State) (d : Span) (hs : List Bool) :
    (s.scrambleHits d hs).done = s.done := rfl
@[simp] theorem State.scrambleHits_ovr (s : State) (d : Span) (hs : List Bool) :
    (s.scrambleHits d hs).ovr = s.ovr := rfl
@[simp] theorem State.scrambleHits_errCode (s : State) (d : Span) (hs : List Bool) :
    (s.scrambleHits d hs).errCode = s.errCode := rfl
@[simp] theorem State.scrambleHits_cmd (s : State) (d : Span) (hs : List Bool) :
    (s.scrambleHits d hs).cmd = s.cmd := rfl
@[simp] theorem State.scrambleHits_srcAddr (s : State) (d : Span) (hs : List Bool) :
    (s.scrambleHits d hs).srcAddr = s.srcAddr := rfl
@[simp] theorem State.scrambleHits_srcLen (s : State) (d : Span) (hs : List Bool) :
    (s.scrambleHits d hs).srcLen = s.srcLen := rfl
@[simp] theorem State.scrambleHits_dstAddr (s : State) (d : Span) (hs : List Bool) :
    (s.scrambleHits d hs).dstAddr = s.dstAddr := rfl
@[simp] theorem State.scrambleHits_dstLen (s : State) (d : Span) (hs : List Bool) :
    (s.scrambleHits d hs).dstLen = s.dstLen := rfl
@[simp] theorem State.scrambleHits_minv (s : State) (d : Span) (hs : List Bool) :
    (s.scrambleHits d hs).minv = s.minv := rfl
@[simp] theorem State.scrambleHits_maxv (s : State) (d : Span) (hs : List Bool) :
    (s.scrambleHits d hs).maxv = s.maxv := rfl
@[simp] theorem State.scrambleHits_opa (s : State) (d : Span) (hs : List Bool) :
    (s.scrambleHits d hs).opa = s.opa := rfl
@[simp] theorem State.scrambleHits_opb (s : State) (d : Span) (hs : List Bool) :
    (s.scrambleHits d hs).opb = s.opb := rfl
@[simp] theorem State.scrambleHits_word (s : State) (d : Span) (hs : List Bool) :
    (s.scrambleHits d hs).word = s.word := rfl
@[simp] theorem State.scrambleHits_mask (s : State) (d : Span) (hs : List Bool) :
    (s.scrambleHits d hs).mask = s.mask := rfl
@[simp] theorem State.scrambleHits_result (s : State) (d : Span) (hs : List Bool) :
    (s.scrambleHits d hs).result = s.result := rfl
@[simp] theorem State.scrambleHits_mem (s : State) (d : Span) (hs : List Bool) :
    (s.scrambleHits d hs).mem = s.mem.replace
      (fun a old => old ||| Config.freeByte s.freeCount a &&& hitByte hs (a - d.start)) d.start d.size := rfl
@[simp] theorem State.scrambleHits_memMap (s : State) (d : Span) (hs : List Bool) :
    (s.scrambleHits d hs).memMap = s.memMap := rfl
@[simp] theorem State.scrambleHits_disturbed (s : State) (d : Span) (hs : List Bool) :
    (s.scrambleHits d hs).disturbed = s.disturbed := rfl
@[simp] theorem State.scrambleHits_turns (s : State) (d : Span) (hs : List Bool) :
    (s.scrambleHits d hs).turns = s.turns := rfl
@[simp] theorem State.scrambleHits_readData (s : State) (d : Span) (hs : List Bool) :
    (s.scrambleHits d hs).readData = s.readData := rfl
@[simp] theorem State.scrambleHits_freeCount (s : State) (d : Span) (hs : List Bool) :
    (s.scrambleHits d hs).freeCount = s.freeCount + 1 := rfl

/-! ### endedWith: a completion, named by its results -/

@[simp] theorem State.endedWith_ie (s : State) (r w k : Word) (m : Memory) : (s.endedWith r w k m).ie = s.ie := rfl
@[simp] theorem State.endedWith_busy (s : State) (r w k : Word) (m : Memory) :
    (s.endedWith r w k m).busy = false := rfl
@[simp] theorem State.endedWith_done (s : State) (r w k : Word) (m : Memory) :
    (s.endedWith r w k m).done = true := rfl
@[simp] theorem State.endedWith_ovr (s : State) (r w k : Word) (m : Memory) : (s.endedWith r w k m).ovr = s.ovr := rfl
@[simp] theorem State.endedWith_errCode (s : State) (r w k : Word) (m : Memory) :
    (s.endedWith r w k m).errCode = .none := rfl
@[simp] theorem State.endedWith_cmd (s : State) (r w k : Word) (m : Memory) : (s.endedWith r w k m).cmd = s.cmd := rfl
@[simp] theorem State.endedWith_srcAddr (s : State) (r w k : Word) (m : Memory) :
    (s.endedWith r w k m).srcAddr = s.srcAddr := rfl
@[simp] theorem State.endedWith_srcLen (s : State) (r w k : Word) (m : Memory) :
    (s.endedWith r w k m).srcLen = s.srcLen := rfl
@[simp] theorem State.endedWith_dstAddr (s : State) (r w k : Word) (m : Memory) :
    (s.endedWith r w k m).dstAddr = s.dstAddr := rfl
@[simp] theorem State.endedWith_dstLen (s : State) (r w k : Word) (m : Memory) :
    (s.endedWith r w k m).dstLen = s.dstLen := rfl
@[simp] theorem State.endedWith_minv (s : State) (r w k : Word) (m : Memory) :
    (s.endedWith r w k m).minv = s.minv := rfl
@[simp] theorem State.endedWith_maxv (s : State) (r w k : Word) (m : Memory) :
    (s.endedWith r w k m).maxv = s.maxv := rfl
@[simp] theorem State.endedWith_opa (s : State) (r w k : Word) (m : Memory) : (s.endedWith r w k m).opa = s.opa := rfl
@[simp] theorem State.endedWith_opb (s : State) (r w k : Word) (m : Memory) : (s.endedWith r w k m).opb = s.opb := rfl
@[simp] theorem State.endedWith_word (s : State) (r w k : Word) (m : Memory) : (s.endedWith r w k m).word = w := rfl
@[simp] theorem State.endedWith_mask (s : State) (r w k : Word) (m : Memory) : (s.endedWith r w k m).mask = k := rfl
@[simp] theorem State.endedWith_result (s : State) (r w k : Word) (m : Memory) :
    (s.endedWith r w k m).result = r := rfl
@[simp] theorem State.endedWith_mem (s : State) (r w k : Word) (m : Memory) : (s.endedWith r w k m).mem = m := rfl
@[simp] theorem State.endedWith_memMap (s : State) (r w k : Word) (m : Memory) :
    (s.endedWith r w k m).memMap = s.memMap := rfl
@[simp] theorem State.endedWith_disturbed (s : State) (r w k : Word) (m : Memory) :
    (s.endedWith r w k m).disturbed = false := rfl
@[simp] theorem State.endedWith_turns (s : State) (r w k : Word) (m : Memory) :
    (s.endedWith r w k m).turns = s.turns := rfl
@[simp] theorem State.endedWith_readData (s : State) (r w k : Word) (m : Memory) :
    (s.endedWith r w k m).readData = s.readData := rfl
@[simp] theorem State.endedWith_freeCount (s : State) (r w k : Word) (m : Memory) :
    (s.endedWith r w k m).freeCount = s.freeCount := rfl

/-! ### failedWith: an early error, named by its code -/

@[simp] theorem State.failedWith_ie (s : State) (e : ErrCode) : (s.failedWith e).ie = s.ie := rfl
@[simp] theorem State.failedWith_busy (s : State) (e : ErrCode) : (s.failedWith e).busy = false := rfl
@[simp] theorem State.failedWith_done (s : State) (e : ErrCode) : (s.failedWith e).done = true := rfl
@[simp] theorem State.failedWith_ovr (s : State) (e : ErrCode) : (s.failedWith e).ovr = s.ovr := rfl
@[simp] theorem State.failedWith_errCode (s : State) (e : ErrCode) : (s.failedWith e).errCode = e := rfl
@[simp] theorem State.failedWith_cmd (s : State) (e : ErrCode) : (s.failedWith e).cmd = s.cmd := rfl
@[simp] theorem State.failedWith_srcAddr (s : State) (e : ErrCode) : (s.failedWith e).srcAddr = s.srcAddr := rfl
@[simp] theorem State.failedWith_srcLen (s : State) (e : ErrCode) : (s.failedWith e).srcLen = s.srcLen := rfl
@[simp] theorem State.failedWith_dstAddr (s : State) (e : ErrCode) : (s.failedWith e).dstAddr = s.dstAddr := rfl
@[simp] theorem State.failedWith_dstLen (s : State) (e : ErrCode) : (s.failedWith e).dstLen = s.dstLen := rfl
@[simp] theorem State.failedWith_minv (s : State) (e : ErrCode) : (s.failedWith e).minv = s.minv := rfl
@[simp] theorem State.failedWith_maxv (s : State) (e : ErrCode) : (s.failedWith e).maxv = s.maxv := rfl
@[simp] theorem State.failedWith_opa (s : State) (e : ErrCode) : (s.failedWith e).opa = s.opa := rfl
@[simp] theorem State.failedWith_opb (s : State) (e : ErrCode) : (s.failedWith e).opb = s.opb := rfl
@[simp] theorem State.failedWith_word (s : State) (e : ErrCode) : (s.failedWith e).word = s.word := rfl
@[simp] theorem State.failedWith_mask (s : State) (e : ErrCode) : (s.failedWith e).mask = s.mask := rfl
@[simp] theorem State.failedWith_result (s : State) (e : ErrCode) : (s.failedWith e).result = 0 := rfl
@[simp] theorem State.failedWith_mem (s : State) (e : ErrCode) : (s.failedWith e).mem = s.mem := rfl
@[simp] theorem State.failedWith_memMap (s : State) (e : ErrCode) : (s.failedWith e).memMap = s.memMap := rfl
@[simp] theorem State.failedWith_disturbed (s : State) (e : ErrCode) : (s.failedWith e).disturbed = false := rfl
@[simp] theorem State.failedWith_turns (s : State) (e : ErrCode) : (s.failedWith e).turns = s.turns := rfl
@[simp] theorem State.failedWith_readData (s : State) (e : ErrCode) : (s.failedWith e).readData = s.readData := rfl
@[simp] theorem State.failedWith_freeCount (s : State) (e : ErrCode) : (s.failedWith e).freeCount = s.freeCount := rfl

/-! ### Names of an ended command -/

theorem State.failedWith_eq (s : State) (e : ErrCode) : s.failedWith e = s.raiseError e := rfl

theorem State.endedWith_of_complete (s : State) (r : Word) :
    s.complete r = s.endedWith r s.word s.mask s.mem := rfl

theorem State.endedWith_of_withMem (s : State) (m : Memory) (r : Word) :
    (s.withMem m).complete r = s.endedWith r s.word s.mask m := rfl

theorem State.endedWith_of_withWord (s : State) (w r : Word) :
    (s.withWord w).complete r = s.endedWith r w s.mask s.mem := rfl

theorem State.endedWith_of_withMask (s : State) (w r : Word) :
    (s.withMask w).complete r = s.endedWith r s.word w s.mem := rfl

end Sys2Proof.Machine
end

