-- ==== Sys2Proof/Laws/Ops.lean ====
section
/-! SUPPORT. One lemma per shared operation that says once everything it can do: ranges, free values, the way a command starts on its
buffers, reset, and the host's writes of registers. -/

namespace Sys2Proof.Machine

/-! ## Ranges -/

@[simp] theorem Span.has_iff (r : Span) (a : Nat) : r.has a = true ↔ r.start ≤ a ∧ a < r.start + r.size := by
  simp [Span.has]

theorem Span.has_eq_false_iff (r : Span) (a : Nat) : r.has a = false ↔ a < r.start ∨ r.start + r.size ≤ a := by
  rw [← Bool.not_eq_true, Span.has_iff]
  omega

/-- Two ranges overlap exactly when they share a byte (20_memory R62). -/
theorem Span.overlaps_iff (r t : Span) : r.overlaps t = true ↔ ∃ a, r.has a = true ∧ t.has a = true := by
  simp only [Span.overlaps, Bool.and_eq_true, decide_eq_true_eq, Span.has_iff]
  constructor
  · rintro ⟨⟨⟨h1, h2⟩, h3⟩, h4⟩
    exact ⟨max r.start t.start, by omega, by omega⟩
  · rintro ⟨a, h1, h2⟩
    omega

/-- A command whose range check passes has ranges inside memory and no byte in both. -/
theorem Buffers.badRange_eq_false {b : Buffers} (h : b.badRange = false) :
    (0 < b.src.size → b.src.start + b.src.size ≤ memSize) ∧ (0 < b.dst.size → b.dst.start + b.dst.size ≤ memSize) ∧
      ∀ a, b.src.has a = true → b.dst.has a = false := by
  simp only [Buffers.badRange, Bool.or_eq_false_iff] at h
  obtain ⟨⟨h1, h2⟩, h3⟩ := h
  refine ⟨fun hs => ?_, fun hs => ?_, fun a ha => ?_⟩
  · simp only [Span.wraps, Bool.and_eq_false_iff, decide_eq_false_iff_not] at h1
    omega
  · simp only [Span.wraps, Bool.and_eq_false_iff, decide_eq_false_iff_not] at h2
    omega
  · rw [← Bool.not_eq_true]
    intro hd
    rw [(Span.overlaps_iff _ _).mpr ⟨a, ha, hd⟩] at h3
    cases h3

/-- `ceilDiv n 8` bytes hold `n` bits. -/
theorem ceilDiv_lt {n j : Nat} (h : j < n) : j / 8 < ceilDiv n 8 := by
  unfold ceilDiv
  omega

/-! ## Free values -/

/-- Free bytes in a range: the canonical form is kept, memory outside is unchanged, and nothing but memory and the counter of free values
changes (60_exceptions R280). -/
theorem State.scramble_spec (s : State) (r : Span) :
    s.scramble r = { s with mem := (s.scramble r).mem, freeCount := s.freeCount + 1 } ∧
      (s.mem.wf → (s.scramble r).mem.wf) ∧ agreeOutside r (s.scramble r).mem s.mem := by
  refine ⟨rfl, fun h => Memory.replace_wf _ _ _ h, fun a ha => ?_⟩
  rw [Span.has_eq_false_iff] at ha
  exact Memory.read_replace_outside _ _ _ _ ha

/-- A range of size zero holds no byte to change. -/
theorem State.scramble_mem_of_size_zero (s : State) {r : Span} (h : r.size = 0) : (s.scramble r).mem = s.mem := by
  simp [State.scramble, h, Memory.replace]

/-- A late error: a failed command, with memory changed inside the range only (60_exceptions R280). -/
theorem State.raiseLate_spec (s : State) (r : Span) (e : ErrCode) :
    s.raiseLate r e = s.failedLate e (s.scramble r).mem ∧ (s.mem.wf → (s.scramble r).mem.wf) ∧
      agreeOutside r (s.scramble r).mem s.mem :=
  ⟨rfl, (s.scramble_spec r).2⟩

/-- A disturbed command ends: with an error of the list, WORD kept, or without, WORD as given; RESULT is free and memory changes
inside the range only (70_reset_and_hazards R309). -/
theorem State.endDisturbed_spec (s : State) (r : Span) (errs : List ErrCode) (out : Word) :
    (∃ e ∈ errs, s.endDisturbed r errs out =
        { s.failedLate e (s.scramble r).mem with result := Config.freeWord s.freeCount 0 }) ∨
      s.endDisturbed r errs out =
        { s.endedWith (Config.freeWord s.freeCount 0) out s.mask (s.scramble r).mem with freeCount := s.freeCount + 1 } := by
  unfold State.endDisturbed
  cases h : errs[Config.freeChoice s.freeCount]? with
  | none => exact .inr rfl
  | some e => exact .inl ⟨e, List.mem_of_getElem? h, rfl⟩

/-- A command that is about to access its buffers is refused, ends disturbed, or ends as it settles. -/
theorem State.onBuffers_cases (s : State) (b : Buffers) (errs : List ErrCode) (out : Word) (settled : State) :
    (b.onDevice s.memMap = true ∧ s.onBuffers b errs out settled = .refused .deviceBuffer) ∨
      (b.onDevice s.memMap = false ∧ s.disturbed = true ∧
        s.onBuffers b errs out settled = .next (s.endDisturbed b.dst errs out)) ∨
      (b.onDevice s.memMap = false ∧ s.disturbed = false ∧ s.onBuffers b errs out settled = .next settled) := by
  unfold State.onBuffers
  cases b.onDevice s.memMap <;> cases s.disturbed <;> simp

/-- A calm command ends as it settles. -/
theorem State.onBuffers_of_calm {s : State} {b : Buffers} (h : s.calm b) (errs : List ErrCode) (out : Word)
    (settled : State) : s.onBuffers b errs out settled = .next settled := by
  simp [State.onBuffers, h.1, h.2]

/-! ## Reset -/

/-- Reset: the registers of `State.reset`, the model's own inputs kept; when a command runs, memory changes inside its destination
range only, and not in its source range (70_reset_and_hazards R300, R301). -/
theorem State.resetEvent_spec (s : State) (b : Buffers) :
    s.resetEvent b =
        { s.resetRegisters with
          mem := (s.resetEvent b).mem, freeCount := if s.busy then s.freeCount + 1 else s.freeCount } ∧
      (s.busy = false → (s.resetEvent b).mem = s.mem) ∧ (s.mem.wf → (s.resetEvent b).mem.wf) ∧
      agreeOutside b.dst (s.resetEvent b).mem s.mem := by
  unfold State.resetEvent
  cases s.busy
  · exact ⟨rfl, fun _ => rfl, id, fun _ _ => rfl⟩
  · refine ⟨rfl, nofun, fun h => Memory.replace_wf _ _ _ h, fun a ha => ?_⟩
    rw [Span.has_eq_false_iff] at ha
    exact Memory.read_replace_outside _ _ _ _ ha

/-! ## The register window -/

/-- A host write of STATUS, said at once (10_state R26, R28, R30). -/
theorem State.writeStatus_eq (s : State) (v : Word) :
    s.writeStatus v = { s with done := s.done && !v.getLsbD 1, ovr := s.ovr && !v.getLsbD 3 } := by
  unfold State.writeStatus State.acknowledge
  cases h1 : v.getLsbD 1 <;> cases h3 : v.getLsbD 3 <;> simp

/-- What a host write of a register can be (10_state R22 to R43): nothing, a write of CTRL, of STATUS, of CMD, or of an
operand register of an idle engine. -/
theorem State.writeReg_cases (s : State) (v : Word) (r : Reg) :
    s.writeReg v r = s ∨ (r = .ctrl ∧ s.writeReg v r = { s with ie := v.getLsbD 0 }) ∨
      (r = .status ∧ s.writeReg v r = s.writeStatus v) ∨
      (r = .cmd ∧ s.busy = true ∧ s.writeReg v r = { s with ovr := true }) ∨
      (r = .cmd ∧ s.busy = false ∧ s.writeReg v r = s.accept v) ∨
      (s.busy = false ∧ ∃ a b c d e f g h i,
        s.writeReg v r = { s with srcAddr := a, srcLen := b, dstAddr := c, dstLen := d, minv := e, maxv := f,
                                  opa := g, opb := h, word := i }) := by
  cases hb : s.busy <;> cases r <;> simp [State.writeReg, State.writeOperand, State.writeCmd, hb]

/-- The slots that are no register (10_state R52). -/
theorem regAt_reserved {o : Nat} (h : 0x78 ≤ o) : regAt o = none := by
  unfold regAt
  split <;> first | omega | rfl

/-- The window offset of a slot's address is the slot's offset (10_state R20). -/
theorem windowOffset_regAddress {o : Nat} (h : o < 256) : windowOffset (regAddress o) = some o := by
  have h1 : (regAddress o - Config.base).toNat = o := by
    unfold regAddress
    rw [BitVec.add_comm, BitVec.add_sub_cancel, BitVec.toNat_ofNat]
    omega
  simp [windowOffset, h1, h]

end Sys2Proof.Machine
end

