-- ==== Sys2Proof/Laws/Commands.lean ====
section
/-! SUPPORT. One lemma per loop of a command that says what the loop can do: what it answers, that it keeps the canonical form of
memory, and which bytes it leaves alone. -/

namespace Sys2Proof.Machine

/-! ## ENCODE -/

/-- A validation pass that succeeds has read every element, found each in range, and answers their stored values
(41_encode R173). -/
theorem validate_ok {map : List Region} {mem : Memory} {ew : ElemWidth} {minv : Word} {top : Nat} :
    ∀ {n a : Nat} {us : List Word}, validate map mem ew minv top n a = .ok us →
      us = (List.range n).map (fun i => forSub (elemAt mem (ewByteCount ew) a i) minv ew) ∧
        readable map a (n * ewByteCount ew) ∧ ∀ u ∈ us, bitlen u ≤ top := by
  intro n
  induction n with
  | zero =>
    intro a us h
    simp only [validate, Except.ok.injEq] at h
    subst h
    exact ⟨rfl, fun i hi => by omega, fun u hu => by simp at hu⟩
  | succ n ih =>
    intro a us h
    rw [validate] at h
    split at h
    · cases h
    · next v hv =>
      split at h
      · cases h
      · next hb =>
        split at h
        · next vs hvs =>
          simp only [Except.ok.injEq] at h
          subst h
          obtain ⟨h1, h2, h3⟩ := ih hvs
          refine ⟨?_, fun i hi => ?_, fun u hu => ?_⟩
          · rw [List.range_succ_eq_map, List.map_cons, List.map_map, h1, elemAt_of_memRead hv]
            refine congrArg _ (List.map_congr_left fun i _ => ?_)
            simp only [Function.comp_apply, elemAt, Nat.succ_eq_add_one, Nat.add_one_mul]
            rw [show a + ewByteCount ew + i * ewByteCount ew = a + (i * ewByteCount ew + ewByteCount ew) by omega]
          · by_cases hi' : i < ewByteCount ew
            · exact (memRead_isSome map mem (ewByteCount ew) a).mp (by rw [hv]; rfl) i hi'
            · have := h2 (i - ewByteCount ew) (by rw [Nat.add_one_mul] at hi; omega)
              rwa [show a + ewByteCount ew + (i - ewByteCount ew) = a + i by omega] at this
          · rcases List.mem_cons.mp hu with rfl | hu
            · omega
            · exact h3 u hu
        · cases h

/-- A validation pass ends with no other error than these (60_exceptions R279). -/
theorem validate_error {map : List Region} {mem : Memory} {ew : ElemWidth} {minv : Word} {top : Nat} {e : ErrCode} :
    ∀ {n a : Nat}, validate map mem ew minv top n a = .error e → e = .busError ∨ e = .valueOutOfBounds := by
  intro n
  induction n with
  | zero => intro a h; cases h
  | succ n ih =>
    intro a h
    rw [validate] at h
    split at h
    · cases h; exact .inl rfl
    · split at h
      · cases h; exact .inr rfl
      · split at h
        · cases h
        · next e' he => cases h; exact ih he

/-- Word emission that succeeds: it keeps the canonical form, changes nothing outside the words, and word `i` reads back at its
place (41_encode R177). -/
theorem emitWords_ok {map : List Region} {dst cap : Nat} :
    ∀ {xs : List Word} {w : Nat} {m m' : Memory}, emitWords map dst cap xs w m = .ok m' →
      (m.wf → m'.wf) ∧ (∀ c, c < dst + 8 * w ∨ dst + 8 * (w + xs.length) ≤ c → m'.read c = m.read c) ∧
        (m.wf → ∀ i x, xs[i]? = some x → wordAt m' (dst + 8 * (w + i)) = x) ∧
        (xs ≠ [] → 8 * (w + xs.length) ≤ cap) := by
  intro xs
  induction xs with
  | nil =>
    intro w m m' h
    simp only [emitWords, Except.ok.injEq] at h
    subst h
    exact ⟨id, fun _ _ => rfl, fun _ i x h => by simp at h, fun h => absurd rfl h⟩
  | cons x xs ih =>
    intro w m m' h
    rw [emitWords] at h
    split at h
    · cases h
    · next hcap =>
      split at h
      · cases h
      · next m1 hw =>
        obtain ⟨hwf, hout, hin, hle⟩ := ih h
        obtain ⟨w1, w2, w3⟩ := memWrite_spec hw
        simp only [List.length_cons]
        refine ⟨fun hm => hwf (w1 hm), fun c hc => ?_, fun hm i y hy => ?_, fun _ => ?_⟩
        · rw [hout c (by omega), w2 c (by omega)]
        · cases i with
          | zero =>
            simp only [List.getElem?_cons_zero, Option.some.injEq] at hy
            subst hy
            rw [Nat.add_zero, ← wordAt_of_memWrite hm hw]
            exact wordAt_congr fun i hi => hout _ (by omega)
          | succ i =>
            simp only [List.getElem?_cons_succ] at hy
            have := hin (w1 hm) i y hy
            rwa [show w + 1 + i = w + (i + 1) by omega] at this
        · by_cases hx : xs = []
          · subst hx; simp only [List.length_nil]; omega
          · have := hle hx; omega

/-- Word emission ends with no other error than these (60_exceptions R279). -/
theorem emitWords_error {map : List Region} {dst cap : Nat} {e : ErrCode} :
    ∀ {xs : List Word} {w : Nat} {m : Memory}, emitWords map dst cap xs w m = .error e →
      e = .destinationTooSmall ∨ e = .busError := by
  intro xs
  induction xs with
  | nil => intro w m h; cases h
  | cons x xs ih =>
    intro w m h
    rw [emitWords] at h
    split at h
    · cases h; exact .inl rfl
    · split at h
      · cases h; exact .inr rfl
      · exact ih h

/-! ## PACKW -/

/-- A packing loop that succeeds has read every element, found that each fits, and answers their stored values
(40_kernels R135). -/
theorem packElems_ok {map : List Region} {mem : Memory} {ew : ElemWidth} {minv : Word} {sel : Nat} :
    ∀ {n a : Nat} {us : List Word}, packElems map mem ew minv sel n a = .ok us →
      us = (List.range n).map (fun i => forSub (elemAt mem (ewByteCount ew) a i) minv ew) ∧
        ∀ u ∈ us, fitsOne sel u = true := by
  intro n
  induction n with
  | zero =>
    intro a us h
    simp only [packElems, Except.ok.injEq] at h
    subst h
    simp
  | succ n ih =>
    intro a us h
    rw [packElems] at h
    split at h
    · cases h
    · next v hv =>
      split at h
      · next hb =>
        split at h
        · next vs hvs =>
          simp only [Except.ok.injEq] at h
          subst h
          obtain ⟨h1, h3⟩ := ih hvs
          refine ⟨?_, fun u hu => ?_⟩
          · rw [List.range_succ_eq_map, List.map_cons, List.map_map, h1, elemAt_of_memRead hv]
            refine congrArg _ (List.map_congr_left fun i _ => ?_)
            simp only [Function.comp_apply, elemAt, Nat.succ_eq_add_one, Nat.add_one_mul]
            rw [show a + ewByteCount ew + i * ewByteCount ew = a + (i * ewByteCount ew + ewByteCount ew) by omega]
          · rcases List.mem_cons.mp hu with rfl | hu
            · exact hb
            · exact h3 u hu
        · cases h
      · cases h

/-- A packing loop ends with no other error than these (60_exceptions R279). -/
theorem packElems_error {map : List Region} {mem : Memory} {ew : ElemWidth} {minv : Word} {sel : Nat} {e : ErrCode} :
    ∀ {n a : Nat}, packElems map mem ew minv sel n a = .error e → e = .busError ∨ e = .valueOutOfBounds := by
  intro n
  induction n with
  | zero => intro a h; cases h
  | succ n ih =>
    intro a h
    rw [packElems] at h
    split at h
    · cases h; exact .inl rfl
    · split at h
      · split at h
        · cases h
        · next e' he => cases h; exact ih he
      · cases h; exact .inr rfl

/-! ## DECODE -/

/-- Element writes that succeed: they keep the canonical form, change nothing outside the elements, and element `j` reads back as
the FOR sum of its value (42_decode R201). -/
theorem writeElems_some {map : List Region} {ew : ElemWidth} {minv : Word} :
    ∀ {xs : List Word} {a : Nat} {m m' : Memory}, writeElems map ew minv xs a m = some m' →
      (m.wf → m'.wf) ∧
        (∀ c, c < a ∨ a + xs.length * ewByteCount ew ≤ c → m'.read c = m.read c) ∧
        (m.wf → ∀ j x, xs[j]? = some x → elemAt m' (ewByteCount ew) a j = forAdd x minv ew) := by
  intro xs
  induction xs with
  | nil =>
    intro a m m' h
    simp only [writeElems, Option.some.injEq] at h
    subst h
    exact ⟨id, fun _ _ => rfl, fun _ j x h => by simp at h⟩
  | cons x xs ih =>
    intro a m m' h
    rw [writeElems] at h
    split at h
    · cases h
    · next m1 hw =>
      obtain ⟨hwf, hout, hin⟩ := ih h
      obtain ⟨w1, w2, w3⟩ := memWrite_spec hw
      have hlen : (x :: xs).length * ewByteCount ew = xs.length * ewByteCount ew + ewByteCount ew := by
        rw [List.length_cons, Nat.add_one_mul]
      refine ⟨fun hm => hwf (w1 hm), fun c hc => ?_, fun hm j y hy => ?_⟩
      · rw [hout c (by omega), w2 c (by omega)]
      · cases j with
        | zero =>
          simp only [List.getElem?_cons_zero, Option.some.injEq] at hy
          subst hy
          have hb := ewByteCount_bounds ew
          rw [elemAt_congr (k := m1) fun i hi => hout _ (by omega)]
          simp only [elemAt, Nat.zero_mul, Nat.add_zero, memRead_of_memWrite hb.2 hm hw, Option.getD_some]
          refine BitVec.eq_of_toNat_eq ?_
          have hlt := forAdd_lt x minv ew
          rw [ewBitCount_eq] at hlt
          rw [BitVec.toNat_setWidth, BitVec.toNat_setWidth, Nat.mod_eq_of_lt hlt]
          exact Nat.mod_eq_of_lt (forAdd x minv ew).isLt
        | succ j =>
          simp only [List.getElem?_cons_succ] at hy
          have := hin (w1 hm) j y hy
          rw [← this]
          simp only [elemAt, Nat.add_one_mul]
          congr 2
          omega

/-- The decoder's loop that succeeds: it keeps the canonical form, its count stays within the capacity, and it changes nothing outside
the elements it wrote (42_decode R201, R203). -/
theorem decodeLoop_ok {map : List Region} {fmt : Format} {ew : ElemWidth} {minv : Word} {dst cap : Nat} :
    ∀ {n a c c' : Nat} {m m' : Memory}, decodeLoop map fmt ew minv dst cap n a c m = .ok (m', c') →
      (m.wf → m'.wf) ∧ c ≤ c' ∧ (c ≤ cap → c' ≤ cap) ∧
        ∀ x, x < dst + c * ewByteCount ew ∨ dst + c' * ewByteCount ew ≤ x → m'.read x = m.read x := by
  intro n
  induction n with
  | zero =>
    intro a c c' m m' h
    simp only [decodeLoop, Except.ok.injEq, Prod.mk.injEq] at h
    obtain ⟨rfl, rfl⟩ := h
    exact ⟨id, Nat.le_refl _, id, fun _ _ => rfl⟩
  | succ n ih =>
    intro a c c' m m' h
    rw [decodeLoop] at h
    split at h
    · cases h
    · next w hw =>
      split at h
      · cases h
      · next hcap =>
        split at h
        · cases h
        · next m1 hm1 =>
          obtain ⟨h1, h2, h3, h4⟩ := ih h
          obtain ⟨w1, w2, _⟩ := writeElems_some hm1
          refine ⟨fun hm => h1 (w1 hm), by omega, fun _ => h3 (by omega), fun x hx => ?_⟩
          have hle : c * ewByteCount ew + (unpackWord fmt w).length * ewByteCount ew ≤ c' * ewByteCount ew := by
            rw [← Nat.add_mul]; exact Nat.mul_le_mul_right _ h2
          have hx2 : x < dst + c * ewByteCount ew ∨
              dst + c * ewByteCount ew + (unpackWord fmt w).length * ewByteCount ew ≤ x := by omega
          rw [h4 x (by rw [Nat.add_mul]; omega), w2 x hx2]

/-- The decoder's loop ends with no other error than these (60_exceptions R279). -/
theorem decodeLoop_error {map : List Region} {fmt : Format} {ew : ElemWidth} {minv : Word} {dst cap : Nat}
    {e : ErrCode} :
    ∀ {n a c : Nat} {m : Memory}, decodeLoop map fmt ew minv dst cap n a c m = .error e →
      e = .busError ∨ e = .destinationTooSmall := by
  intro n
  induction n with
  | zero => intro a c m h; cases h
  | succ n ih =>
    intro a c m h
    rw [decodeLoop] at h
    split at h
    · cases h; exact .inl rfl
    · split at h
      · cases h; exact .inr rfl
      · split at h
        · cases h; exact .inl rfl
        · exact ih h

/-! ## COUNT -/

/-- The selector of a code word is the high nibble of its byte 7 (20_memory R63). -/
theorem selOf_wordAt {m : Memory} {a : Nat} (h : a + 8 ≤ memSize) :
    selOf (wordAt m a) = ((m.read (a + 7)).toNat >>> 4) := by
  obtain ⟨v, hv⟩ := Option.isSome_iff_exists.mp (memRead_nil_isSome m h)
  rw [wordAt_of_memRead hv]
  unfold selOf
  refine Nat.eq_of_testBit_eq fun j => ?_
  rw [BitVec.testBit_toNat, BitVec.getLsbD_ushiftRight, memRead_getLsbD (by omega) hv, Nat.testBit_shiftRight,
    BitVec.testBit_toNat]
  by_cases hj : j < 4
  · have h1 : (60 + j) / 8 = 7 := by omega
    have h2 : (60 + j) % 8 = 4 + j := by omega
    have h3 : 60 + j < 8 * 8 := by omega
    simp [h1, h2, h3]
  · have h3 : ¬ 60 + j < 8 * 8 := by omega
    have h4 : (m.read (a + 7)).getLsbD (4 + j) = false := BitVec.getLsbD_of_ge _ _ (by omega)
    simp [h3, h4]

/-- The count loop ends with no other error than a bus error (60_exceptions R279). -/
theorem countLoop_error {map : List Region} {mem : Memory} {fmt : Format} {e : ErrCode} :
    ∀ {n a : Nat} {c : Word}, countLoop map mem fmt n a c = .error e → e = .busError := by
  intro n
  induction n with
  | zero => intro a c h; cases h
  | succ n ih =>
    intro a c h
    rw [countLoop] at h
    split at h
    · cases h; rfl
    · exact ih h

/-! ## CMP -/

/-- Setting a bit that succeeds: it keeps the canonical form, changes no other byte, and ORs one bit into its byte
(43_compare R232). -/
theorem setBit_some {map : List Region} {base j : Nat} {m m' : Memory} (h : setBit map base j m = some m') :
    (m.wf → m'.wf) ∧ (∀ c, c ≠ base + j / 8 → m'.read c = m.read c) ∧
      (m.wf → m'.read (base + j / 8) = (m.read (base + j / 8) ||| 1#8 <<< (j % 8))) ∧
      memOk map (base + j / 8) .read = true ∧ memOk map (base + j / 8) .write = true := by
  unfold setBit at h
  split at h
  · cases h
  · next b hb =>
    obtain ⟨w1, w2, w3⟩ := memWrite_spec h
    have hr := (memRead_isSome map m 1 (base + j / 8)).mp (by rw [hb]; rfl) 0 (by omega)
    have hw := (memWrite_isSome map 1 (base + j / 8) m _).mp (by rw [h]; rfl) 0 (by omega)
    refine ⟨w1, fun c hc => w2 c (by omega), fun hm => ?_, by simpa using hr, by simpa using hw⟩
    have h3 := w3 hm 0 (by omega)
    rw [Nat.add_zero] at h3
    rw [h3]
    refine BitVec.eq_of_getLsbD_eq fun k hk => ?_
    have hbk := memRead_getLsbD (by omega) hb k
    rw [BitVec.getLsbD_setWidth, Nat.mul_zero, BitVec.ushiftRight_zero, BitVec.getLsbD_or, hbk, BitVec.getLsbD_or]
    have h1 : k / 8 = 0 := by omega
    have h2 : k % 8 = k := by omega
    have h4 : k < 64 := by omega
    simp only [h1, h2, Nat.add_zero, hk, decide_true, Bool.true_and, Nat.mul_one, BitVec.getLsbD_shiftLeft, h4]
    have h5 : k - j % 8 < 64 := by omega
    have h6 : k - j % 8 < 8 := by omega
    simp [h5, h6]

/-- Setting the bits of a word's hits, when it succeeds: it keeps the canonical form, leaves every byte alone that lies outside the
positions, and never clears a bit (43_compare R232, R233). -/
theorem setHits_some {map : List Region} {base : Nat} :
    ∀ {hs : List Bool} {k : Nat} {m m' : Memory}, setHits map base hs k m = some m' →
      (m.wf → m'.wf) ∧
        (∀ c, (∀ i, hs[i]? = some true → c ≠ base + (k + i) / 8) → m'.read c = m.read c) ∧
        (m.wf → ∀ c b, (m.read c).getLsbD b = true → (m'.read c).getLsbD b = true) := by
  intro hs
  induction hs with
  | nil =>
    intro k m m' h
    simp only [setHits, Option.some.injEq] at h
    subst h
    exact ⟨id, fun _ _ => rfl, fun _ _ _ h => h⟩
  | cons x hs ih =>
    intro k m m' h
    cases x with
    | false =>
      rw [setHits] at h
      obtain ⟨h1, h2, h3⟩ := ih h
      refine ⟨h1, fun c hc => h2 c fun i hi => ?_, h3⟩
      have := hc (i + 1) (by simpa using hi)
      rwa [show k + (i + 1) = k + 1 + i by omega] at this
    | true =>
      rw [setHits] at h
      split at h
      · cases h
      · next m1 hm1 =>
        obtain ⟨h1, h2, h3⟩ := ih h
        obtain ⟨w1, w2, w3, _⟩ := setBit_some hm1
        refine ⟨fun hm => h1 (w1 hm), fun c hc => ?_, fun hm c b hb => h3 (w1 hm) c b ?_⟩
        · have h0 := hc 0 (by simp)
          rw [Nat.add_zero] at h0
          rw [h2 c fun i hi => ?_, w2 c h0]
          have := hc (i + 1) (by simpa using hi)
          rwa [show k + (i + 1) = k + 1 + i by omega] at this
        · by_cases hc : c = base + k / 8
          · subst hc
            rw [w3 hm, BitVec.getLsbD_or, hb]
            rfl
          · rwa [w2 c hc]

/-- The compare engine's loop that succeeds: it keeps the canonical form, its position stays within the capacity, and it changes no
byte outside the bitset bytes of its positions (43_compare R233, R240). -/
theorem cmpLoop_ok {map : List Region} {q : CmpArgs} {dst cap : Nat} :
    ∀ {n a k k' : Nat} {m m' : Memory}, cmpLoop map q dst cap n a k m = .ok (m', k') →
      (m.wf → m'.wf) ∧ k ≤ k' ∧ (k ≤ cap → k' ≤ cap) ∧
        ∀ x, x < dst ∨ dst + ceilDiv k' 8 ≤ x → m'.read x = m.read x := by
  intro n
  induction n with
  | zero =>
    intro a k k' m m' h
    simp only [cmpLoop, Except.ok.injEq, Prod.mk.injEq] at h
    obtain ⟨rfl, rfl⟩ := h
    exact ⟨id, Nat.le_refl _, id, fun _ _ => rfl⟩
  | succ n ih =>
    intro a k k' m m' h
    rw [cmpLoop] at h
    split at h
    · cases h
    · next w hw =>
      split at h
      · cases h
      · next hcap =>
        split at h
        · cases h
        · next m1 hm1 =>
          obtain ⟨h1, h2, h3, h4⟩ := ih h
          obtain ⟨w1, w2, _⟩ := setHits_some hm1
          refine ⟨fun hm => h1 (w1 hm), by omega, fun _ => h3 (by omega), fun x hx => ?_⟩
          rw [h4 x hx, w2 x fun i hi => ?_]
          have hi' : i < (q.hits w).length := (List.getElem?_eq_some_iff.mp hi).1
          have : (k + i) / 8 < ceilDiv k' 8 := ceilDiv_lt (by omega)
          omega

/-- The compare engine's loop ends with no other error than these (60_exceptions R279). -/
theorem cmpLoop_error {map : List Region} {q : CmpArgs} {dst cap : Nat} {e : ErrCode} :
    ∀ {n a k : Nat} {m : Memory}, cmpLoop map q dst cap n a k m = .error e →
      e = .busError ∨ e = .destinationTooSmall := by
  intro n
  induction n with
  | zero => intro a k m h; cases h
  | succ n ih =>
    intro a k m h
    rw [cmpLoop] at h
    split at h
    · cases h; exact .inl rfl
    · split at h
      · cases h; exact .inr rfl
      · split at h
        · cases h; exact .inl rfl
        · exact ih h

/-- The bitset after a late error of CMP: the canonical form is kept, memory outside the range is unchanged, and only memory and the
counter of free values change (60_exceptions R280). -/
theorem State.scrambleHits_spec (s : State) (r : Span) (hs : List Bool) :
    s.scrambleHits r hs = { s with mem := (s.scrambleHits r hs).mem, freeCount := s.freeCount + 1 } ∧
      (s.mem.wf → (s.scrambleHits r hs).mem.wf) ∧ agreeOutside r (s.scrambleHits r hs).mem s.mem := by
  refine ⟨rfl, fun h => Memory.replace_wf _ _ _ h, fun a ha => ?_⟩
  rw [Span.has_eq_false_iff] at ha
  exact Memory.read_replace_outside _ _ _ _ ha

/-! ## The aggregation buffer -/

/-- OR of a byte that succeeds: it keeps the canonical form and changes no other byte (43_compare R235). -/
theorem orByte_some {map : List Region} {a : Nat} {b : Byte} {m m' : Memory} (h : orByte map a b m = some m') :
    (m.wf → m'.wf) ∧ ∀ c, c ≠ a → m'.read c = m.read c := by
  unfold orByte at h
  split at h
  · cases h; exact ⟨id, fun _ _ => rfl⟩
  · split at h
    · cases h
    · obtain ⟨w1, w2, _⟩ := memWrite_spec h
      exact ⟨w1, fun c hc => w2 c (by omega)⟩

/-- OR of a word's bytes that succeeds: it keeps the canonical form and changes no byte outside them (43_compare R235). -/
theorem orBytes_some {map : List Region} :
    ∀ {n a : Nat} {v : Word} {m m' : Memory}, orBytes map n a v m = some m' →
      (m.wf → m'.wf) ∧ ∀ c, c < a ∨ a + n ≤ c → m'.read c = m.read c := by
  intro n
  induction n with
  | zero =>
    intro a v m m' h
    simp only [orBytes, Option.some.injEq] at h
    subst h
    exact ⟨id, fun _ _ => rfl⟩
  | succ n ih =>
    intro a v m m' h
    rw [orBytes] at h
    split at h
    · cases h
    · next m1 hm1 =>
      obtain ⟨h1, h2⟩ := ih h
      obtain ⟨w1, w2⟩ := orByte_some hm1
      exact ⟨fun hm => h1 (w1 hm), fun c hc => by rw [h2 c (by omega), w2 c (by omega)]⟩

/-- A flush that succeeds: it keeps the canonical form and changes no byte outside its nine (43_compare R235). -/
theorem flush_some {map : List Region} {dst outn k : Nat} {out : Word} {m m' : Memory}
    (h : flush map dst out outn k m = some m') :
    (m.wf → m'.wf) ∧ ∀ c, c < dst + (k - outn) / 8 ∨ dst + (k - outn) / 8 + 9 ≤ c → m'.read c = m.read c := by
  unfold flush at h
  split at h
  · cases h; exact ⟨id, fun _ _ => rfl⟩
  · split at h
    · cases h
    · next m1 hm1 =>
      obtain ⟨h1, h2⟩ := orByte_some h
      obtain ⟨w1, w2⟩ := orBytes_some hm1
      exact ⟨fun hm => h1 (w1 hm), fun c hc => by rw [h2 c (by omega), w2 c (by omega)]⟩

/-! ## The seven predicates at once -/

/-- CMP with any predicate is the common definition (43_compare R240). -/
@[simp] theorem exec_cmpInstr (p : Pred) (fmt : Format) (s : State) :
    exec (cmpInstr p fmt) s = compareStream p fmt s := by
  cases p <;> rfl

/-- CMPW with any predicate is the common definition (40_kernels R136). -/
@[simp] theorem exec_cmpwInstr (p : Pred) (fmt : Format) (s : State) :
    exec (cmpwInstr p fmt) s = compareWord p fmt s := by
  cases p <;> rfl

/-- Every command is one of six kinds. -/
theorem exec_cases (i : Instr) :
    (∃ ew fmt, i = .encode ew fmt) ∨ (∃ ew fmt, i = .decode ew fmt) ∨ (∃ fmt, i = .count fmt) ∨
      (∃ p fmt, i = cmpInstr p fmt) ∨ (∃ ew fmt sel, i = .packw ew fmt sel) ∨ (∃ p fmt, i = cmpwInstr p fmt) := by
  cases i
  case encode ew fmt => exact .inl ⟨ew, fmt, rfl⟩
  case decode ew fmt => exact .inr (.inl ⟨ew, fmt, rfl⟩)
  case count fmt => exact .inr (.inr (.inl ⟨fmt, rfl⟩))
  case packw ew fmt sel => exact .inr (.inr (.inr (.inr (.inl ⟨ew, fmt, sel, rfl⟩))))
  case cmpEq fmt => exact .inr (.inr (.inr (.inl ⟨.eq, fmt, rfl⟩)))
  case cmpNe fmt => exact .inr (.inr (.inr (.inl ⟨.ne, fmt, rfl⟩)))
  case cmpLt fmt => exact .inr (.inr (.inr (.inl ⟨.lt, fmt, rfl⟩)))
  case cmpLe fmt => exact .inr (.inr (.inr (.inl ⟨.le, fmt, rfl⟩)))
  case cmpGt fmt => exact .inr (.inr (.inr (.inl ⟨.gt, fmt, rfl⟩)))
  case cmpGe fmt => exact .inr (.inr (.inr (.inl ⟨.ge, fmt, rfl⟩)))
  case cmpBw fmt => exact .inr (.inr (.inr (.inl ⟨.bw, fmt, rfl⟩)))
  case cmpwEq fmt => exact .inr (.inr (.inr (.inr (.inr ⟨.eq, fmt, rfl⟩))))
  case cmpwNe fmt => exact .inr (.inr (.inr (.inr (.inr ⟨.ne, fmt, rfl⟩))))
  case cmpwLt fmt => exact .inr (.inr (.inr (.inr (.inr ⟨.lt, fmt, rfl⟩))))
  case cmpwLe fmt => exact .inr (.inr (.inr (.inr (.inr ⟨.le, fmt, rfl⟩))))
  case cmpwGt fmt => exact .inr (.inr (.inr (.inr (.inr ⟨.gt, fmt, rfl⟩))))
  case cmpwGe fmt => exact .inr (.inr (.inr (.inr (.inr ⟨.ge, fmt, rfl⟩))))
  case cmpwBw fmt => exact .inr (.inr (.inr (.inr (.inr ⟨.bw, fmt, rfl⟩))))

@[simp] theorem buffersOf_cmpInstr (p : Pred) (fmt : Format) (s : State) :
    buffersOf (cmpInstr p fmt) s = cmpBuffers s := by
  cases p <;> rfl

@[simp] theorem buffersOf_cmpwInstr (p : Pred) (fmt : Format) (s : State) :
    buffersOf (cmpwInstr p fmt) s = cmpwBuffers := by
  cases p <;> rfl

end Sys2Proof.Machine
end

