-- ==== Sys2Proof/Laws/PerInstr.lean ====
section
/-! SUPPORT. Statements for all commands, one lemma per command. `TableRow`: the encoded command word lies in the command's row of
the opcode map and has no reserved bit (30_encoding R106, R113). -/

namespace Sys2Proof.Laws

/-- The masked bits of a command's row (30_encoding R113). -/
def rowPattern : Instr → Word
  | .encode _ _ => 0x01#64
  | .decode _ _ => 0x02#64
  | .count _ => 0x03#64
  | .cmpEq _ => 0x04#64
  | .cmpNe _ => 0x14#64
  | .cmpLt _ => 0x24#64
  | .cmpLe _ => 0x34#64
  | .cmpGt _ => 0x44#64
  | .cmpGe _ => 0x54#64
  | .cmpBw _ => 0x64#64
  | .packw _ _ _ => 0x05#64
  | .cmpwEq _ => 0x06#64
  | .cmpwNe _ => 0x16#64
  | .cmpwLt _ => 0x26#64
  | .cmpwLe _ => 0x36#64
  | .cmpwGt _ => 0x46#64
  | .cmpwGe _ => 0x56#64
  | .cmpwBw _ => 0x66#64

/-- Whether a command's row fixes PRED (30_encoding R113). -/
def rowHasPred : Instr → Bool
  | .encode _ _ => false
  | .decode _ _ => false
  | .count _ => false
  | .packw _ _ _ => false
  | .cmpEq _ => true
  | .cmpNe _ => true
  | .cmpLt _ => true
  | .cmpLe _ => true
  | .cmpGt _ => true
  | .cmpGe _ => true
  | .cmpBw _ => true
  | .cmpwEq _ => true
  | .cmpwNe _ => true
  | .cmpwLt _ => true
  | .cmpwLe _ => true
  | .cmpwGt _ => true
  | .cmpwGe _ => true
  | .cmpwBw _ => true

/-- The mask of a command's row (30_encoding R113). -/
def rowMask (i : Instr) : Word :=
  if rowHasPred i then 0xFFFFFFFFFFFFC07F#64 else 0xFFFFFFFFFFFFC00F#64

/-- A well-formed command's word lies in its row, and its reserved bits are 0. -/
def TableRow.Statement (i : Instr) : Prop :=
  i.wellFormed = true → encode i &&& rowMask i = rowPattern i ∧ field 63 14 (encode i) = 0

theorem TableRow.encode (ew : ElemWidth) (fmt : Format) : TableRow.Statement (.encode ew fmt) := by
  intro _; cases ew <;> cases fmt <;> decide

theorem TableRow.decode (ew : ElemWidth) (fmt : Format) : TableRow.Statement (.decode ew fmt) := by
  intro _; cases ew <;> cases fmt <;> decide

theorem TableRow.count (fmt : Format) : TableRow.Statement (.count fmt) := by
  intro _; cases fmt <;> decide

theorem TableRow.cmpEq (fmt : Format) : TableRow.Statement (.cmpEq fmt) := by
  intro _; cases fmt <;> decide

theorem TableRow.cmpNe (fmt : Format) : TableRow.Statement (.cmpNe fmt) := by
  intro _; cases fmt <;> decide

theorem TableRow.cmpLt (fmt : Format) : TableRow.Statement (.cmpLt fmt) := by
  intro _; cases fmt <;> decide

theorem TableRow.cmpLe (fmt : Format) : TableRow.Statement (.cmpLe fmt) := by
  intro _; cases fmt <;> decide

theorem TableRow.cmpGt (fmt : Format) : TableRow.Statement (.cmpGt fmt) := by
  intro _; cases fmt <;> decide

theorem TableRow.cmpGe (fmt : Format) : TableRow.Statement (.cmpGe fmt) := by
  intro _; cases fmt <;> decide

theorem TableRow.cmpBw (fmt : Format) : TableRow.Statement (.cmpBw fmt) := by
  intro _; cases fmt <;> decide

theorem TableRow.packw (ew : ElemWidth) (fmt : Format) (sel : Nat) : TableRow.Statement (.packw ew fmt sel) := by
  intro h
  have hs : sel < 16 := of_decide_eq_true h
  interval_cases sel <;> cases ew <;> cases fmt <;> decide

theorem TableRow.cmpwEq (fmt : Format) : TableRow.Statement (.cmpwEq fmt) := by
  intro _; cases fmt <;> decide

theorem TableRow.cmpwNe (fmt : Format) : TableRow.Statement (.cmpwNe fmt) := by
  intro _; cases fmt <;> decide

theorem TableRow.cmpwLt (fmt : Format) : TableRow.Statement (.cmpwLt fmt) := by
  intro _; cases fmt <;> decide

theorem TableRow.cmpwLe (fmt : Format) : TableRow.Statement (.cmpwLe fmt) := by
  intro _; cases fmt <;> decide

theorem TableRow.cmpwGt (fmt : Format) : TableRow.Statement (.cmpwGt fmt) := by
  intro _; cases fmt <;> decide

theorem TableRow.cmpwGe (fmt : Format) : TableRow.Statement (.cmpwGe fmt) := by
  intro _; cases fmt <;> decide

theorem TableRow.cmpwBw (fmt : Format) : TableRow.Statement (.cmpwBw fmt) := by
  intro _; cases fmt <;> decide

end Sys2Proof.Laws
end

