-- ==== Sys2Proof/Tests/Slice0.lean ====
section
/-! SUPPORT. The model's own tests: the WellFormed smoke test, one command word per constructor written out from 30_encoding R100 to
R105, one step per command with the results the spec works out, and for each statement with hypotheses a state and operands
that meet them. -/

namespace Sys2Proof.Tests

open Sys2Proof Sys2Proof.Machine

/-! ## Helpers -/

/-- The state after an outcome. -/
def after : Host.Outcome State Fault Refusal → Option State
  | .next s => some s
  | .fault _ => none
  | .refused _ => none

/-- The bytes of a code word, from its address on (20_memory R63); for words without a zero byte. -/
def wordCells (a : Nat) (w : Word) : List Host.Cell :=
  (List.range 8).map fun i => (a + i, (w >>> (8 * i)).setWidth 8)

/-- An idle engine with a source at 0x100 of length `n`, a destination at 0x200 of length `d`, and these bytes in memory. -/
def idle (n d : Nat) (cells : List Host.Cell) : State :=
  { State.reset with
    srcAddr := 0x100, srcLen := BitVec.ofNat 64 n, dstAddr := 0x200, dstLen := BitVec.ofNat 64 d, mem := ⟨cells⟩ }

/-- The same, with a command running and the engine to move. -/
def running (v : Word) (n d : Nat) (cells : List Host.Cell) : State :=
  { idle n d cells with cmd := v, busy := true }

/-- The stream of 43_compare R241: one word of selector 7 that holds 0 to 9. -/
def ten : List Host.Cell := wordCells 0x100 0x72481C61440C2040

/-- The engine before a CMP of that stream. -/
def cmpTen (a b : Word) : State := { idle 8 16 ten with opa := a, opb := b }

/-- W5 of 40_kernels R136 in WORD. -/
def withW5 (a b : Word) : State := { State.reset with word := 0x5EDCBA9876543210, opa := a, opb := b }

/-- The two bitset bytes after a CMP of that stream, with its RESULT. -/
def bytesAfter (o : Host.Outcome State Fault Refusal) : Option (Byte × Byte × Word) :=
  (after o).map fun t => (t.mem.read 0x200, t.mem.read 0x201, t.result)

/-- MASK and RESULT after a CMPW. -/
def maskAfter (o : Host.Outcome State Fault Refusal) : Option (Word × Word) :=
  (after o).map fun t => (t.mask, t.result)

/-! ## WellFormed -/

theorem test_wellFormed_packw_refuses_16 : (Instr.packw .e64 .current 16).wellFormed = false := by decide

theorem test_wellFormed_packw_admits_15 : (Instr.packw .e8 .legacy 15).wellFormed = true := by decide

/-! ## One word per constructor, written out bit by bit: SEL, FMT, EW, PRED, OP -/

theorem test_decode_encode : decodeCmd 0b0000_0_10_000_0001#64 = .ok (.encode .e16 .current) := rfl
theorem test_decode_decode : decodeCmd 0b0000_1_11_000_0010#64 = .ok (.decode .e8 .legacy) := rfl
theorem test_decode_count : decodeCmd 0b0000_1_00_000_0011#64 = .ok (.count .legacy) := rfl
theorem test_decode_cmpEq : decodeCmd 0b0000_0_00_000_0100#64 = .ok (.cmpEq .current) := rfl
theorem test_decode_cmpNe : decodeCmd 0b0000_0_00_001_0100#64 = .ok (.cmpNe .current) := rfl
theorem test_decode_cmpLt : decodeCmd 0b0000_1_00_010_0100#64 = .ok (.cmpLt .legacy) := rfl
theorem test_decode_cmpLe : decodeCmd 0b0000_0_00_011_0100#64 = .ok (.cmpLe .current) := rfl
theorem test_decode_cmpGt : decodeCmd 0b0000_0_00_100_0100#64 = .ok (.cmpGt .current) := rfl
theorem test_decode_cmpGe : decodeCmd 0b0000_1_00_101_0100#64 = .ok (.cmpGe .legacy) := rfl
theorem test_decode_cmpBw : decodeCmd 0b0000_0_00_110_0100#64 = .ok (.cmpBw .current) := rfl
theorem test_decode_packw : decodeCmd 0b0101_0_01_000_0101#64 = .ok (.packw .e32 .current 5) := rfl
theorem test_decode_cmpwEq : decodeCmd 0b0000_0_00_000_0110#64 = .ok (.cmpwEq .current) := rfl
theorem test_decode_cmpwNe : decodeCmd 0b0000_1_00_001_0110#64 = .ok (.cmpwNe .legacy) := rfl
theorem test_decode_cmpwLt : decodeCmd 0b0000_0_00_010_0110#64 = .ok (.cmpwLt .current) := rfl
theorem test_decode_cmpwLe : decodeCmd 0b0000_0_00_011_0110#64 = .ok (.cmpwLe .current) := rfl
theorem test_decode_cmpwGt : decodeCmd 0b0000_1_00_100_0110#64 = .ok (.cmpwGt .legacy) := rfl
theorem test_decode_cmpwGe : decodeCmd 0b0000_0_00_101_0110#64 = .ok (.cmpwGe .current) := rfl
theorem test_decode_cmpwBw : decodeCmd 0b0000_1_00_110_0110#64 = .ok (.cmpwBw .legacy) := rfl

theorem test_decode_rejects : decodeCmd 0x4001 = .error .reservedBits ∧ decodeCmd 0x7 = .error .noSuchOp ∧
    decodeCmd 0x74 = .error .noSuchPred := ⟨rfl, rfl, rfl⟩

theorem test_table_word : decodeTableWord 64 0x1405 = some (.packw .e64 .current 5) := by decide

/-! ## One step per command -/

/-- Three values are left: selector 13 (41_encode R180, corner cases), slots of 20 bits. -/
theorem test_encode_three :
    (after (exec (.encode .e8 .current) { idle 3 8 [(0x100, 1), (0x101, 2), (0x102, 3)] with maxv := 3 })).map
      (fun t => (wordAt t.mem 0x200, t.result)) = some (0xD000030000200001, 8) := by decide

/-- A value past the declared maximum (41_encode R173). -/
theorem test_encode_out_of_range :
    (after (exec (.encode .e8 .current) { idle 2 8 [(0x100, 1), (0x101, 4)] with maxv := 3 })).map
      (fun t => (t.errCode, t.result, t.mem.cells.length)) = some (.valueOutOfBounds, 0, 2) := by decide

/-- Truncation to the element width (42_decode R205, corner cases). -/
theorem test_decode_truncates :
    (after (exec (.decode .e8 .current) (idle 8 1 [(0x100, 0x23), (0x101, 0x01), (0x107, 0xF0)]))).map
      (fun t => (t.mem.read 0x200, t.mem.read 0x201, t.result)) = some (0x23, 0, 1) := by decide

/-- The sum wraps modulo 2^EW (42_decode R205, corner cases). -/
theorem test_decode_wraps :
    (after (exec (.decode .e8 .current) { idle 8 1 [(0x100, 0x20), (0x107, 0xF0)] with minv := 0xF0 })).map
      (fun t => (t.mem.read 0x200, t.result)) = some (0x10, 1) := by decide

/-- The zero word counts 128 or 240 (42_decode R206). -/
theorem test_count_zero_word :
    (after (exec (.count .current) (idle 8 0 []))).map (·.result) = some 128 ∧
      (after (exec (.count .legacy) (idle 8 0 []))).map (·.result) = some 240 := by decide

theorem test_cmpEq : bytesAfter (exec (.cmpEq .current) (cmpTen 3 0)) = some (0x08, 0x00, 10) := by decide
theorem test_cmpNe : bytesAfter (exec (.cmpNe .current) (cmpTen 3 0)) = some (0xF7, 0x03, 10) := by decide
theorem test_cmpLt : bytesAfter (exec (.cmpLt .current) (cmpTen 3 0)) = some (0x07, 0x00, 10) := by decide
theorem test_cmpLe : bytesAfter (exec (.cmpLe .current) (cmpTen 3 0)) = some (0x0F, 0x00, 10) := by decide
theorem test_cmpGt : bytesAfter (exec (.cmpGt .current) (cmpTen 4 0)) = some (0xE0, 0x03, 10) := by decide
theorem test_cmpGe : bytesAfter (exec (.cmpGe .current) (cmpTen 4 0)) = some (0xF0, 0x03, 10) := by decide
theorem test_cmpBw : bytesAfter (exec (.cmpBw .current) (cmpTen 2 5)) = some (0x3C, 0x00, 10) := by decide

/-- lo above hi wraps (43_compare R247). -/
theorem test_cmpBw_wraps : bytesAfter (exec (.cmpBw .current) (cmpTen 8 1)) = some (0x03, 0x03, 10) := by decide

/-- A bit the host left at 1 stays (43_compare R232). -/
theorem test_cmpEq_keeps_bits :
    bytesAfter (exec (.cmpEq .current) { idle 8 16 (ten ++ [(0x200, 0x80)]) with opa := 3 }) =
      some (0x88, 0x00, 10) := by decide

/-- The worked example of 40_kernels R135, with 8-bit elements. -/
theorem test_packw :
    (after (exec (.packw .e8 .current 5)
      (idle 0 0 ((List.range' 1 14).map fun i => (0x100 + i, BitVec.ofNat 8 i))))).map
      (fun t => (t.word, t.result)) = some (0x5EDCBA9876543210, 15) := by decide

theorem test_packw_misfit :
    (after (exec (.packw .e8 .current 5) (idle 0 0 [(0x100, 0x10)]))).map (fun t => (t.errCode, t.word)) =
      some (.valueOutOfBounds, 0) := by decide

theorem test_cmpwEq : maskAfter (exec (.cmpwEq .current) (withW5 7 0)) = some (0x0080, 15) := by decide
theorem test_cmpwNe : maskAfter (exec (.cmpwNe .current) (withW5 7 0)) = some (0x7F7F, 15) := by decide
theorem test_cmpwLt : maskAfter (exec (.cmpwLt .current) (withW5 7 0)) = some (0x007F, 15) := by decide
theorem test_cmpwLe : maskAfter (exec (.cmpwLe .current) (withW5 7 0)) = some (0x00FF, 15) := by decide
theorem test_cmpwGt : maskAfter (exec (.cmpwGt .current) (withW5 7 0)) = some (0x7F00, 15) := by decide
theorem test_cmpwGe : maskAfter (exec (.cmpwGe .current) (withW5 7 0)) = some (0x7F80, 15) := by decide
theorem test_cmpwBw : maskAfter (exec (.cmpwBw .current) (withW5 10 4)) = some (0x7C1F, 15) := by decide

/-- A run word of the legacy format (40_kernels R143). -/
theorem test_cmpwBw_legacy_run :
    maskAfter (exec (.cmpwBw .legacy) { withW5 1 1 with word := 0 }) = some (1, 240) := by decide

/-- An operand wider than a slot is not cut (40_kernels R131). -/
theorem test_cmpwLt_wide_operand : maskAfter (exec (.cmpwLt .current) (withW5 16 0)) = some (0x7FFF, 15) := by decide

/-- An illegal word completes with code 4, and an accepted word runs from reset. -/
theorem test_step_illegal :
    (after (step (State.reset.withFetchWord 64 0))).map (·.errCode) = some .illegalCommand := by decide

theorem test_step_first :
    (after (step (State.reset.withFetchWord 64 0x6))).map (fun t => (t.done, t.mask, t.result)) =
      some (true, 1, 128) := by decide

/-! ## The statements' hypotheses can be met: one theorem per statement that has any, one part per clause -/

/-- A platform that refuses an access to the first byte of the source, or of the destination. -/
def noSource (s : State) : State := { s with memMap := [⟨0x100, 1, .noRead⟩] }

@[inherit_doc noSource] def noDestination (s : State) : State := { s with memMap := [⟨0x200, 1, .noWrite⟩] }

/-- COUNT reads byte 7 of a word only. -/
def noByte7 (s : State) : State := { s with memMap := [⟨0x107, 1, .noRead⟩] }

/-- One 8-bit element of value 1, encoded with the maximum 3. -/
def encodeOne : State := { idle 1 8 [(0x100, 1)] with maxv := 3 }

/-- One word of selector 15 that holds 0x23. -/
def oneWord : List Host.Cell := [(0x100, 0x23), (0x107, 0xF0)]

theorem witness_DecodeEncodeRoundTrip :
    (Instr.packw .e8 .legacy 15).wellFormed = true ∧ (Instr.packw .e64 .current 0).wellFormed = true := by decide

theorem witness_EncodeDecodeClearsIgnored :
    decodeCmd 0x3DF1 = .ok (.encode .e8 .current) ∧ decodeCmd 0x3DB6 = .ok (.cmpwLe .current) := ⟨rfl, rfl⟩

theorem witness_OpcodeMapDecodes :
    (∃ r ∈ opcodeMap, 0x3DE4#64 &&& r.mask = r.pattern) ∧ (∀ r ∈ opcodeMap, 0x7#64 &&& r.mask ≠ r.pattern) ∧
      ∀ r ∈ opcodeMap, 0x74#64 &&& r.mask ≠ r.pattern := by
  decide

theorem witness_StepRunsCommand :
    (∃ i, decodeCmd (running 0x2 8 1 oneWord).cmd = .ok i) ∧ (running 0x2 8 1 oneWord).busy = true ∧
      (running 0x2 8 1 oneWord).turns = [] ∧ { running 0x2 8 1 oneWord with turns := [.engine] }.turns = .engine :: [] ∧
      State.reset.busy = false ∧ State.reset.turns = [] ∧
      { State.reset with turns := [.engine] }.turns = .engine :: [] := ⟨⟨_, rfl⟩, rfl, rfl, rfl, rfl, rfl, rfl⟩

theorem witness_IssueThenRun :
    (Instr.packw .e8 .current 15).wellFormed = true ∧
      { State.reset with turns := [.host (.regWrite 0x18 64 (encode (.packw .e8 .current 15))), .engine] }.busy = false := by
  decide

theorem witness_IllegalCommandCompletes :
    (running 0 0 0 []).busy = true ∧ illegalWord (running 0 0 0 []).cmd ∧ illegalWord (running 0x7 0 0 []).cmd ∧
      illegalWord (running 0xF 0 0 []).cmd ∧ illegalWord (running 0x74 0 0 []).cmd ∧
      illegalWord (running 0x76 0 0 []).cmd ∧ illegalWord (running 0x4001 0 0 []).cmd ∧
      illegalWord (running 0x8000000000000001 0 0 []).cmd := by decide

theorem witness_StepKeepsInvariant :
    State.reset.Inv ∧ (∃ t, step State.reset = .next t) ∧ (running 0x6 0 0 []).Inv ∧
      ∃ t, step (running 0x6 0 0 []) = .next t := ⟨by decide, ⟨_, rfl⟩, by decide, ⟨_, rfl⟩⟩

theorem witness_ResetValues : State.reset.busy = false ∧ Reg.result ≠ .id := by decide

/-- A DECODE whose destination overlaps its source in one byte: a byte of the destination alone, one of both, one of neither. -/
theorem witness_ResetDuringCommand :
    (let s := { running 0x182 8 8 [] with dstAddr := 0x107 }
     s.busy = true ∧ s.mem.wf ∧ ((runningBuffers s).dst.has 0x108 = true ∧ (runningBuffers s).src.has 0x108 = false) ∧
      (runningBuffers s).src.has 0x107 = true ∧ (runningBuffers s).dst.has 0x107 = true ∧
      (runningBuffers s).dst.has 0x10F = false) := by decide

theorem witness_BusyFlag :
    State.reset.busy = false ∧ (running 0x6 0 0 []).busy = true ∧ (∃ t, engineTurn (running 0x6 0 0 []) = .next t) ∧
      (∃ t, hostTurn (.regRead 0x10 64) (running 0x6 0 0 []) = .next t) ∧
      (∃ t, takeTurn (.host (.regWrite 0x18 64 6)) State.reset = .next t ∧ t.busy = true) ∧
      ∃ t, takeTurn (.both 0x18 64 6) State.reset = .next t ∧ t.busy = true :=
  ⟨rfl, rfl, ⟨_, rfl⟩, ⟨_, rfl⟩, ⟨_, rfl, rfl⟩, ⟨_, rfl, rfl⟩⟩

theorem witness_DoneFlag :
    (running 0x6 0 0 []).busy = true ∧ (∃ t, engineTurn (running 0x6 0 0 []) = .next t) ∧ State.reset.busy = false ∧
      ∃ t, takeTurn (.both 0x10 64 2) (running 0x6 0 0 []) = .next t := ⟨rfl, ⟨_, rfl⟩, rfl, ⟨_, rfl⟩⟩

theorem witness_OvrFlag :
    (running 0x6 0 0 []).busy = true ∧
      (∃ t, takeTurn (.host (.regWrite 0x10 64 0xA)) { State.reset with ovr := true } = .next t ∧ t.ovr = false) ∧
      (∃ t, takeTurn (.host .reset) { State.reset with ovr := true } = .next t ∧ t.ovr = false) ∧
      (∃ t, takeTurn (.host (.regWrite 0x18 64 6)) (running 0x6 0 0 []) = .next t ∧ t.ovr = true) ∧
      (0xA#64).getLsbD 3 = true ∧ State.reset.busy = false :=
  ⟨rfl, ⟨_, rfl, rfl⟩, ⟨_, rfl, rfl⟩, ⟨_, rfl, rfl⟩, rfl, rfl⟩

theorem witness_CmdWrite :
    State.reset.busy = false ∧ (running 0x7 0 0 []).busy = true ∧ ∃ t, engineTurn (running 0x7 0 0 []) = .next t :=
  ⟨rfl, rfl, ⟨_, rfl⟩⟩

theorem witness_OperandsHeld :
    (running 0x6 0 0 []).busy = true ∧ 0x20 ∈ operandOffsets ∧ 0x60 ∈ operandOffsets ∧ HostOp.memWrite 0x100 [1] ≠ .reset ∧
      (∃ t, hostTurn (.memWrite 0x100 [1]) (running 0x6 0 0 []) = .next t) ∧
      ∃ t, hostTurn (.regWrite 0x20 64 5) (running 0x6 0 0 []) = .next t :=
  ⟨rfl, by decide, by decide, by decide, ⟨_, rfl⟩, ⟨_, rfl⟩⟩

theorem witness_RegistersReadBack :
    State.reset.busy = false ∧ 0x20 ∈ operandOffsets ∧ 0x60 ∈ operandOffsets ∧ 0 % 8 = 0 ∧ 0xF8 % 8 = 0 ∧ 0xF8 < 256 := by
  decide

theorem witness_ReservedSlotsAndBits :
    (0x78 ≤ 0x78 ∧ 0x78 ≤ 0xF8 ∧ 0x78 % 8 = 0) ∧ 0xF8 % 8 = 0 ∧ 0xFFFFFFFFFFFFFFFE#64 &&& 1 = 0#64 &&& 1 ∧
      0xFFFFFFFFFFFFFF0A#64 &&& 0xFF = 0xA#64 &&& 0xFF := by decide

theorem witness_UndefinedAccessRefused :
    (32 ≠ 64 ∨ 0 % 8 ≠ 0 ∨ 256 ≤ 0) ∧ (64 ≠ 64 ∨ 4 % 8 ≠ 0 ∨ 256 ≤ 4) ∧ (64 ≠ 64 ∨ 256 % 8 ≠ 0 ∨ 256 ≤ 256) := by decide

theorem witness_Interrupt :
    (let s := { running 0x6 0 0 [] with ie := true }
     s.busy = true ∧ s.ie = true ∧ s.irq = false ∧ ∃ t, engineTurn s = .next t ∧ t.irq = true) ∧
      (0x2#64).getLsbD 1 = true ∧ (0#64).getLsbD 0 = false ∧ State.reset.busy = false ∧
      (let s := { State.reset with done := true }
       s.irq = false ∧ ∃ t, takeTurn (.host (.regWrite 0x08 64 1)) s = .next t ∧ t.irq = true) ∧
      (let s := { State.reset with done := true, ie := true }
       s.irq = true ∧ (∃ t, takeTurn (.host (.regWrite 0x10 64 2)) s = .next t ∧ t.irq = false) ∧
        (∃ t, takeTurn (.host (.regWrite 0x08 64 0)) s = .next t ∧ t.irq = false) ∧
        (∃ t, takeTurn (.host (.regWrite 0x18 64 6)) s = .next t ∧ t.irq = false) ∧
        ∃ t, takeTurn (.host .reset) s = .next t ∧ t.irq = false) :=
  ⟨⟨rfl, rfl, rfl, _, rfl, rfl⟩, rfl, rfl, rfl, ⟨rfl, _, rfl, rfl⟩,
    ⟨rfl, ⟨_, rfl, rfl⟩, ⟨_, rfl, rfl⟩, ⟨_, rfl, rfl⟩, ⟨_, rfl, rfl⟩⟩⟩

theorem witness_CompletionFrame :
    (∃ t, exec (.cmpwEq .current) State.reset = .next t) ∧ writesWord (.cmpwEq .current) = false ∧
      writesMask (.count .current) = false ∧
      (∃ t, exec (.count .current) (idle 1 0 []) = .next t ∧ t.errCode ≠ .none) ∧ (idle 1 0 []).disturbed = false :=
  ⟨⟨_, rfl⟩, rfl, rfl, ⟨_, rfl, by decide⟩, rfl⟩

theorem witness_OnlyDestinationWritten :
    (∃ t, exec (.decode .e8 .current) (idle 8 1 oneWord) = .next t ∧ t.errCode = .none) ∧
      (buffersOf (.decode .e8 .current) (idle 8 1 oneWord)).src.has 0x107 = true ∧
      (buffersOf (.decode .e8 .current) (idle 8 1 oneWord)).dst.has 0x201 = false ∧
      writesMemory (.count .current) = false ∧
      ∃ t, exec (.encode .e8 .legacy) State.reset = .next t ∧ t.errCode = .unsupportedFormat :=
  ⟨⟨_, rfl, rfl⟩, by decide, by decide, rfl, ⟨_, rfl, rfl⟩⟩

theorem witness_LengthAndFormatChecks :
    (idle 0 1 []).dstLen.toNat % 8 ≠ 0 ∧ (idle 7 0 []).srcLen.toNat % 8 ≠ 0 := by decide

theorem witness_RangeCheck : (⟨5, 0⟩ : Span).size = 0 ∧
    Buffers.badRange ⟨⟨2 ^ 64 - 8, 8⟩, ⟨0, 8⟩⟩ = false ∧ Buffers.badRange ⟨⟨2 ^ 64 - 8, 9⟩, ⟨0x200, 8⟩⟩ = true := by decide

/-- Equal source and destination, and a PACKW source that ends one byte past the last address. -/
theorem witness_AddressRange :
    (let s := { idle 8 8 [] with dstAddr := 0x107 }
     s.dstLen.toNat % 8 = 0 ∧ s.srcLen.toNat % 8 = 0 ∧ (encodeBuffers .e8 s).badRange = true ∧
      (decodeBuffers .e8 s).badRange = true ∧ (cmpBuffers s).badRange = true) ∧
      (let s := { idle 8 0 [] with srcAddr := 0xFFFFFFFFFFFFFFFF }
       (countBuffers s).badRange = true ∧ (packwBuffers .e16 15 s).badRange = true) := by decide

theorem witness_ValueOutOfBounds :
    (let s := { idle 1 0 [] with maxv := 0x1000000000000000 }
     s.dstLen.toNat % 8 = 0 ∧ (encodeBuffers .e64 s).badRange = false ∧ s.srcLen ≠ 0 ∧ 60 < maxLog2 .e64 s) ∧
      (let s := { idle 2 8 [(0x100, 1), (0x101, 4)] with maxv := 3 }
       s.calm (encodeBuffers .e8 s) ∧ s.dstLen.toNat % 8 = 0 ∧ (encodeBuffers .e8 s).badRange = false ∧
        maxLog2 .e8 s ≤ 60 ∧ 1 < s.srcLen.toNat ∧ readable s.memMap s.srcAddr.toNat ((1 + 1) * ewByteCount .e8) ∧
        (∀ j < 1, bitlen (srcValue .e8 s j) ≤ maxLog2 .e8 s) ∧ maxLog2 .e8 s < bitlen (srcValue .e8 s 1)) ∧
      (let s := idle 0 0 [(0x101, 0x10)]
       s.calm (packwBuffers .e8 5 s) ∧ (packwBuffers .e8 5 s).badRange = false ∧ 1 < ncap .current 5 ∧
        readable s.memMap s.srcAddr.toNat ((1 + 1) * ewByteCount .e8) ∧
        (∀ j < 1, fitsOne 5 (srcValue .e8 s j) = true) ∧ fitsOne 5 (srcValue .e8 s 1) = false) := by decide

/-- Two words of selector 15. -/
def twoWords : List Host.Cell := oneWord ++ [(0x10F, 0xF0)]

/-- At word 0 with nothing before it, and at word 1 (DECODE) past a word that passes; for DECODE a later byte of the destination is
refused too. -/
theorem witness_DestinationTooSmall :
    (let s := noDestination { encodeOne with dstLen := 0 }
     encodeValidated .e8 s ∧ encodePast s 0 ∧ 0 < encodedLength .e8 s ∧ s.dstLen.toNat < 8 * (0 + 1)) ∧
      (let s := { idle 16 1 twoWords with memMap := [⟨0x201, 1, .noWrite⟩] }
       streamChecks (decodeBuffers .e8 s) s ∧ 1 < s.srcLen.toNat / 8 ∧ decodePast .e8 .current s 1 ∧
        readable s.memMap (s.srcAddr.toNat + 8 * 1) 8 ∧ s.dstLen.toNat < countBefore .current s (1 + 1)) ∧
      (let s := noDestination (idle 8 9 ten)
       streamChecks (cmpBuffers s) s ∧ 0 < s.srcLen.toNat / 8 ∧ cmpPast .ge .current s 0 ∧
        readable s.memMap (s.srcAddr.toNat + 8 * 0) 8 ∧ s.dstLen.toNat < countBefore .current s (0 + 1)) := by decide

theorem witness_BusErrorBeforeWrites :
    (let s := noByte7 (idle 8 0 [])
     s.calm (countBuffers s) ∧ s.srcLen.toNat % 8 = 0 ∧ (countBuffers s).badRange = false ∧
      ∃ w < s.srcLen.toNat / 8, memOk s.memMap (s.srcAddr.toNat + 8 * w + 7) .read = false) ∧
      (let s := noSource encodeOne
       s.calm (encodeBuffers .e8 s) ∧ s.dstLen.toNat % 8 = 0 ∧ (encodeBuffers .e8 s).badRange = false ∧
        maxLog2 .e8 s ≤ 60 ∧ 0 < s.srcLen.toNat ∧
        ¬ readable s.memMap s.srcAddr.toNat ((0 + 1) * ewByteCount .e8)) ∧
      (let s := noByte7 (idle 0 0 [])
       s.calm (packwBuffers .e8 8 s) ∧ (packwBuffers .e8 8 s).badRange = false ∧ 7 < ncap .current 8 ∧
        (∀ j < 7, fitsOne 8 (srcValue .e8 s j) = true) ∧
        ¬ readable s.memMap s.srcAddr.toNat ((7 + 1) * ewByteCount .e8)) := by decide

/-- A refused write of ENCODE's word; for DECODE and CMP a refused read of the word although its output does not fit, at word 1 and
at word 0, and a refused access of output that fits. -/
theorem witness_BusErrorAfterWrites :
    (let s := noDestination encodeOne
     encodeValidated .e8 s ∧ encodePast s 0 ∧ 0 < encodedLength .e8 s ∧ 8 * (0 + 1) ≤ s.dstLen.toNat ∧
      ¬ writable s.memMap s.dstAddr.toNat (8 * (0 + 1))) ∧
      (let s := { idle 16 1 twoWords with memMap := [⟨0x108, 1, .noRead⟩] }
       streamChecks (decodeBuffers .e8 s) s ∧ 1 < s.srcLen.toNat / 8 ∧ decodePast .e8 .current s 1 ∧
        ¬ readable s.memMap (s.srcAddr.toNat + 8 * 1) 8 ∧ s.dstLen.toNat < countBefore .current s (1 + 1)) ∧
      (let s := noDestination (idle 8 1 oneWord)
       streamChecks (decodeBuffers .e8 s) s ∧ 0 < s.srcLen.toNat / 8 ∧ decodePast .e8 .current s 0 ∧
        countBefore .current s (0 + 1) ≤ s.dstLen.toNat ∧
        ¬ writable s.memMap s.dstAddr.toNat (countBefore .current s (0 + 1) * ewByteCount .e8)) ∧
      (let s := noSource (idle 8 9 ten)
       streamChecks (cmpBuffers s) s ∧ 0 < s.srcLen.toNat / 8 ∧ cmpPast .ge .current s 0 ∧
        ¬ readable s.memMap (s.srcAddr.toNat + 8 * 0) 8) ∧
      (let s := noDestination (cmpTen 3 0)
       streamChecks (cmpBuffers s) s ∧ 0 < s.srcLen.toNat / 8 ∧ cmpPast .eq .current s 0 ∧
        countBefore .current s (0 + 1) ≤ s.dstLen.toNat ∧
        ¬ hitsAccessible .eq .current s (countBefore .current s (0 + 1))) :=
  ⟨by decide, by decide, by decide, by decide, by decide⟩

theorem witness_SelForBitsIsSmallest : 60 ≤ 60 ∧ 2 ≤ 15 ∧ 15 ≤ 15 ∧ 60 ≤ bw 15 := by decide

/-- The 8-bit element 0xFF read as −1, and as 255. -/
theorem witness_ForArithmetic :
    ((-1 : Int) - (0xFF#64).toNat) % 2 ^ ewBitCount .e8 = 0 ∧ ((255 : Int) - (0xFF#64).toNat) % 2 ^ ewBitCount .e8 = 0 ∧
      (0xFF#64).toNat < 2 ^ ewBitCount .e8 := by decide

theorem witness_PackKernels :
    fits 2 (List.replicate 60 1#64) = true ∧ fits 15 [0x0FFFFFFFFFFFFFFF#64] = true ∧ 56 < 60 ∧
      ncap .current 8 * bw 8 ≤ 56 := by decide

theorem witness_UnusedPayloadIgnored :
    selOf 0x1#64 = selOf 0x0#64 ∧ isRun (selOf 0x1#64) = true ∧ selOf 0x8F00000000000000#64 = selOf 0x8000000000000000#64 ∧
      ∀ j < ncap .legacy (selOf 0x8F00000000000000#64) * bw (selOf 0x8F00000000000000#64),
        (0x8F00000000000000#64).getLsbD j = (0x8000000000000000#64).getLsbD j := by decide

theorem witness_PredicatesUnsigned :
    (7#64).toNat ≤ (7#64).toNat ∧ (4#64).toNat < (10#64).toNat := by decide

theorem witness_KernelCorrectness :
    (unpackWord .current 0x72481C61440C2040)[9]? = some 9 ∧ (unpackWord .legacy 0)[239]? = some 1 := by decide

theorem witness_MaskWidthAndNegation :
    isRun 1 = true ∧ isRun 2 = false ∧ maskWidth .current (selOf 0x2000000000000000#64) ≤ 60 ∧
      maskWidth .legacy (selOf 0) ≤ 1 := by decide

theorem witness_PackwResult :
    packwReady .e64 15 (idle 0 0 [(0x100, 5)]) ∧ packwReady .e8 1 { idle 0 0 [] with minv := 0xFF } := by decide

theorem witness_CountResult : countReady (idle 8 0 ten) ∧ countReady (idle 0 0 []) := by decide

theorem witness_DecodeResult :
    (idle 8 1 oneWord).mem.wf ∧ decodeReady .e8 .current (idle 8 1 oneWord) ∧
      (streamValues .current (srcWords (idle 8 1 oneWord)))[0]? = some 0x23 := by decide

theorem witness_CmpResult : (cmpTen 3 0).mem.wf ∧ cmpReady .eq .current (cmpTen 3 0) ∧
    srcHit .eq .current (cmpTen 3 0) 3 = true ∧ srcHit .eq .current (cmpTen 3 0) 10 = false := by decide

theorem witness_CmpOnlySetsHits :
    (cmpTen 3 0).mem.wf ∧ (cmpTen 3 0).disturbed = false ∧
      ∃ t, exec (cmpInstr .eq .current) (cmpTen 3 0) = .next t ∧ bitAt t.mem 0x200 3 = true :=
  ⟨by decide, rfl, _, rfl, by decide⟩

theorem witness_CmpIdempotent :
    (cmpTen 3 0).mem.wf ∧ ∃ t, exec (cmpInstr .eq .current) (cmpTen 3 0) = .next t ∧ t.errCode = .none :=
  ⟨by decide, _, rfl, rfl⟩

theorem witness_AggregationMatches :
    (Memory.mk ten).wf ∧ Buffers.badRange ⟨⟨0x100, 8 * 1⟩, ⟨0x200, ceilDiv 16 8⟩⟩ = false ∧
      ∃ r, cmpLoop [] ⟨.current, .gt, 3, 0⟩ 0x200 16 1 0x100 0 ⟨ten⟩ = .ok r := ⟨by decide, by decide, _, rfl⟩

theorem witness_PredicateEquivalence :
    (let s := { cmpTen 3 0 with dstLen := 10 }
     let d := idle 8 10 ten
     s.mem.wf ∧ cmpReady .ge .current s ∧ s.dstLen.toNat = countValues .current (srcWords s) ∧
      (∀ j < s.dstLen.toNat, bitAt s.mem s.dstAddr.toNat j = false) ∧ d.mem.wf ∧ decodeReady .e64 .current d ∧
      d.minv = 0 ∧ srcWords d = srcWords s) := by decide

theorem witness_CompareReadsOnlyItsOperands :
    (cmpTen 3 0).disturbed = false ∧ Pred.ge ≠ .bw ∧
      (∃ t, exec (cmpInstr .ge .current) (cmpTen 3 0) = .next t) ∧
      ∃ t, exec (cmpwInstr .ge .current) (cmpTen 3 0) = .next t := ⟨rfl, by decide, ⟨_, rfl⟩, ⟨_, rfl⟩⟩

theorem witness_EncodeResult :
    encodeOne.mem.wf ∧ encodeReady .e8 encodeOne ∧
      encodeReady .e64 { idle 0 0 [] with maxv := 0xFFFFFFFFFFFFFFFF } := by decide

theorem witness_EncodeStreamRoundTrip : ∀ x ∈ [0#64, 0x0FFFFFFFFFFFFFFF#64], bitlen x ≤ 60 := by
  simp [bitlen_le_iff]

theorem witness_SelectorBoundary :
    (∀ x ∈ [1#64, 0x7FFF#64, 0x4000#64, 3#64], bitlen x ≤ bw 12) ∧
      (∃ x ∈ [1#64, 0x7FFF#64, 0x4000#64, 3#64], bw (12 - 1) < bitlen x) ∧
      [1#64, 0x7FFF#64, 0x4000#64, 3#64].length = ncap .current 12 ∧
      (∀ x ∈ List.replicate 61 1#64, bitlen x ≤ bw 2) ∧ (List.replicate 61 1#64).length = ncap .current 2 + 1 := by
  simp [bitlen_le_iff, lt_bitlen_iff, bw, ncap]

theorem witness_RunDetector :
    runDetected (1 :: List.replicate 127 1) = true ∧ runDetected (1 :: List.replicate 126 1) = false := by decide +kernel

theorem witness_SelectorChoice :
    [5#64] ≠ [] ∧ (∀ x ∈ [5#64], x.toNat < 2 ^ 60) ∧ ncap .current 15 ≤ [5#64].length ∧
      ∀ x ∈ [5#64].take (ncap .current 15), x.toNat < 2 ^ bw 15 := by
  simp [bw, ncap]

theorem witness_GreedyMatchesCanonical :
    [5#64, 0#64, 0x0FFFFFFFFFFFFFFF#64] ≠ [] ∧ ∀ x ∈ [5#64, 0#64, 0x0FFFFFFFFFFFFFFF#64], bitlen x ≤ 60 := by
  simp [bitlen_le_iff]

/-- A DECODE runs; the host reads and writes the byte before the source and the byte past the destination. -/
theorem witness_HostOutsideRanges :
    (let s := running 0x182 8 1 oneWord
     s.busy = true ∧ s.mem.wf ∧ (runningBuffers s).dst.has (0x201#64).toNat = false ∧
      Span.overlaps ⟨(0xFF#64).toNat, 1⟩ (runningBuffers s).src = false ∧
      Span.overlaps ⟨(0x201#64).toNat, 1⟩ (runningBuffers s).dst = false) ∧
      ∃ e, engineTurn (running 0x182 8 1 (oneWord ++ [(0x201, 7)])) = .next e := ⟨by decide, _, rfl⟩

theorem witness_HostReadsHeldByte :
    (let s := running 0x182 8 1 oneWord
     s.busy = true ∧ s.disturbed = false ∧ (runningBuffers s).dst.has (0x200#64).toNat = true ∧
      onlySetsBits s = false ∧ ∃ t, engineTurn s = .next t) ∧
      (let s := { cmpTen 3 0 with cmd := 0x4, busy := true }
       (runningBuffers s).dst.has (0x201#64).toNat = true ∧ onlySetsBits s = true ∧ ∃ t, engineTurn s = .next t) :=
  ⟨⟨rfl, rfl, by decide, by decide, _, rfl⟩, ⟨by decide, by decide, _, rfl⟩⟩

/-- One byte at the last address, written by the host to an idle engine; one more passes the top. -/
theorem witness_HostMemoryWhenIdle :
    State.reset.busy = false ∧ State.reset.mem.wf ∧ (0xFFFFFFFFFFFFFFFF#64).toNat + [7#8].length ≤ 2 ^ 64 ∧
      2 ^ 64 < (0xFFFFFFFFFFFFFFFF#64).toNat + [7#8, 8#8].length ∧ (Instr.count .current).wellFormed = true ∧
      memOk State.reset.memMap ((0xFFFFFFFFFFFFFFFF#64).toNat + 0) .read = true := by decide

end Sys2Proof.Tests
end

section
/-! SUPPORT. What the engine's turn and a step of the machine are, and the step of a running and of an idle engine. -/

namespace Sys2Proof.Machine

/-- RUN (10_state R45, R46). -/
theorem engineTurn_eq_exec {s : State} {i : Instr} (hbusy : s.busy = true) (hcmd : decodeCmd s.cmd = .ok i) :
    engineTurn s = exec i s := by
  simp [engineTurn, hbusy, hcmd]

/-- IDLE (10_state R45). -/
theorem engineTurn_eq_self_of_idle {s : State} (hidle : s.busy = false) : engineTurn s = .next s := by
  simp [engineTurn, hidle]

/-- The empty list is the engine's turn (log 6). -/
theorem step_eq_engineTurn_of_turns_nil {s : State} (hturns : s.turns = []) : step s = engineTurn s := by
  simp [step, hturns]

theorem step_eq_takeTurn_of_turns_cons {s : State} {x : Turn} {ts : List Turn} (hturns : s.turns = x :: ts) :
    step s = takeTurn x { s with turns := ts } := by
  simp [step, hturns]

theorem step_eq_engineTurn_of_engine_next {s : State} {ts : List Turn} (hturns : s.turns = .engine :: ts) :
    step s = engineTurn { s with turns := ts } :=
  step_eq_takeTurn_of_turns_cons hturns

/-- Settles O6: a step with no turn left, or with the engine's turn next, is the engine's turn, which is `exec` in RUN and
nothing in IDLE; taking a turn off the list touches neither BUSY nor CMD. -/
theorem stepRunsCommand : Obligations.StepRunsCommand := by
  refine ⟨fun s i hbusy hcmd => ⟨fun hturns => ?_, fun ts hturns => ?_⟩,
    fun s hidle => ⟨fun hturns => ?_, fun ts hturns => ?_⟩⟩
  · rw [step_eq_engineTurn_of_turns_nil hturns, engineTurn_eq_exec hbusy hcmd]
  · rw [step_eq_engineTurn_of_engine_next hturns]
    exact engineTurn_eq_exec hbusy hcmd
  · rw [step_eq_engineTurn_of_turns_nil hturns, engineTurn_eq_self_of_idle hidle]
  · rw [step_eq_engineTurn_of_engine_next hturns]
    exact engineTurn_eq_self_of_idle hidle

end Sys2Proof.Machine
end

section
/-! SUPPORT. What a command that ends has done to the state, whatever the command and whether it ends without or with an error: one
lemma per kind of command, and the engine's turn in RUN. -/

namespace Sys2Proof.Machine

/-- `t` is `s` after a command has ended (60_exceptions R280, R281): BUSY is 0, DONE is 1, nothing changes but STATUS, RESULT, WORD,
MASK, memory and the model's own mark and counter; memory stays in canonical form and MASK within 60 bits. -/
structure Completion (s t : State) : Prop where
  frame : t = { s with
    busy := false, done := true, disturbed := false, errCode := t.errCode, result := t.result, word := t.word,
    mask := t.mask, mem := t.mem, freeCount := t.freeCount }
  mem_wf : s.mem.wf → t.mem.wf
  mask_lt : s.mask.toNat < 2 ^ 60 → t.mask.toNat < 2 ^ 60

namespace Completion

variable {s t : State}

theorem busy_eq (h : Completion s t) : t.busy = false := by rw [h.frame]
theorem done_eq (h : Completion s t) : t.done = true := by rw [h.frame]
theorem disturbed_eq (h : Completion s t) : t.disturbed = false := by rw [h.frame]
theorem ovr_eq (h : Completion s t) : t.ovr = s.ovr := by rw [h.frame]
theorem cmd_eq (h : Completion s t) : t.cmd = s.cmd := by rw [h.frame]
theorem minv_eq (h : Completion s t) : t.minv = s.minv := by rw [h.frame]
theorem opb_eq (h : Completion s t) : t.opb = s.opb := by rw [h.frame]

end Completion

/-! ## The ways to end -/

theorem completion_raiseError (s : State) (e : ErrCode) : Completion s (s.raiseError e) :=
  ⟨rfl, id, id⟩

theorem completion_complete (s : State) (r : Word) : Completion s (s.complete r) :=
  ⟨rfl, id, id⟩

theorem completion_withMem {s : State} {m : Memory} (hm : s.mem.wf → m.wf) (r : Word) :
    Completion s ((s.withMem m).complete r) :=
  ⟨rfl, hm, id⟩

theorem completion_withWord (s : State) (w r : Word) : Completion s ((s.withWord w).complete r) :=
  ⟨rfl, id, id⟩

theorem completion_withMask {w : Word} (hw : w.toNat < 2 ^ 60) (s : State) (r : Word) :
    Completion s ((s.withMask w).complete r) :=
  ⟨rfl, id, fun _ => hw⟩

theorem completion_raiseLate (s : State) (dst : Span) (e : ErrCode) : Completion s (s.raiseLate dst e) :=
  ⟨rfl, (s.raiseLate_spec dst e).2.1, id⟩

theorem completion_scrambleHits (s : State) (dst : Span) (hs : List Bool) (e : ErrCode) :
    Completion s ((s.scrambleHits dst hs).raiseError e) :=
  ⟨rfl, (s.scrambleHits_spec dst hs).2.1, id⟩

theorem completion_endDisturbed (s : State) (dst : Span) (errs : List ErrCode) (out : Word) :
    Completion s (s.endDisturbed dst errs out) := by
  have hwf := (s.scramble_spec dst).2.1
  rcases s.endDisturbed_spec dst errs out with ⟨e, _, h⟩ | h
  · rw [h]; exact ⟨rfl, hwf, id⟩
  · rw [h]; exact ⟨rfl, hwf, id⟩

theorem completion_of_onBuffers {s t u : State} {b : Buffers} {errs : List ErrCode} {out : Word} (hu : Completion s u)
    (h : s.onBuffers b errs out u = .next t) : Completion s t := by
  rcases s.onBuffers_cases b errs out u with ⟨_, heq⟩ | ⟨_, _, heq⟩ | ⟨_, _, heq⟩ <;> rw [heq] at h <;> cases h
  · exact completion_endDisturbed s b.dst errs out
  · exact hu

/-- A command that ends at its checks, or starts on its buffers. -/
theorem completion_of_checked {s t u : State} {check : Option ErrCode} {b : Buffers} {errs : List ErrCode} {out : Word}
    (hu : Completion s u)
    (h : (match check with
      | some e => Host.Outcome.next (s.raiseError e)
      | none => s.onBuffers b errs out u) = .next t) : Completion s t := by
  cases check with
  | some e => cases h; exact completion_raiseError s e
  | none => exact completion_of_onBuffers hu h

/-! ## The commands -/

theorem completion_encodeRun (ew : ElemWidth) (s : State) : Completion s (encodeRun ew s) := by
  unfold encodeRun
  split
  · exact completion_complete s 0
  · split
    · exact completion_raiseError s _
    · split
      · exact completion_raiseLate s _ _
      · next m hm => exact completion_withMem (emitWords_ok hm).1 _

theorem completion_decodeRun (ew : ElemWidth) (fmt : Format) (s : State) : Completion s (decodeRun ew fmt s) := by
  unfold decodeRun
  split
  · exact completion_raiseLate s _ _
  · next m c hm => exact completion_withMem (decodeLoop_ok hm).1 _

theorem completion_countRun (fmt : Format) (s : State) : Completion s (countRun fmt s) := by
  unfold countRun
  split
  · exact completion_raiseError s _
  · exact completion_complete s _

theorem completion_cmpRun (p : Pred) (fmt : Format) (s : State) : Completion s (cmpRun p fmt s) := by
  unfold cmpRun
  split
  · exact completion_scrambleHits s _ _ _
  · next m k hm => exact completion_withMem (cmpLoop_ok hm).1 _

theorem completion_packwRun (ew : ElemWidth) (sel : Nat) (s : State) : Completion s (packwRun ew sel s) := by
  unfold packwRun
  split
  · exact completion_raiseError s _
  · exact completion_withWord s _ _

/-- A packed word holds at most 60 values (30_encoding R86). -/
theorem ncap_packed_le (fmt : Format) {s : Nat} (h2 : 2 ≤ s) (h16 : s < 16) : ncap fmt s ≤ 60 := by
  obtain ⟨hpos, _, hle⟩ := bw_bounds h2 h16
  rw [ncap_packed fmt h2]
  exact Nat.le_trans (Nat.le_mul_of_pos_right _ hpos) hle

/-- A kernel's mask has at most 60 bits (40_kernels R132). -/
theorem cmpKernel_mask_lt (fmt : Format) (p : Pred) (w a b : Word) : (cmpKernel fmt p w a b).2.toNat < 2 ^ 60 := by
  unfold cmpKernel
  split
  · cases predHolds p (runVal fmt (selOf w)) a b <;> simp
  · next hrun =>
    have h2 : 2 ≤ selOf w := (isRun_eq_false_iff _).mp (by simpa using hrun)
    have hlen := ncap_packed_le fmt h2 (selOf_lt w)
    exact maskOf_lt (by simpa using hlen)

/-- Every command that ends, ends so (60_exceptions R280, R281). -/
theorem exec_completion {i : Instr} {s t : State} (h : exec i s = .next t) : Completion s t := by
  rcases exec_cases i with ⟨ew, fmt, rfl⟩ | ⟨ew, fmt, rfl⟩ | ⟨fmt, rfl⟩ | ⟨p, fmt, rfl⟩ | ⟨ew, fmt, sel, rfl⟩ | ⟨p, fmt, rfl⟩
  · exact completion_of_checked (completion_encodeRun ew s) h
  · exact completion_of_checked (completion_decodeRun ew fmt s) h
  · exact completion_of_checked (completion_countRun fmt s) h
  · rw [exec_cmpInstr] at h
    exact completion_of_checked (completion_cmpRun p fmt s) h
  · exact completion_of_checked (completion_packwRun ew sel s) h
  · rw [exec_cmpwInstr] at h
    cases h
    exact completion_withMask (cmpKernel_mask_lt _ _ _ _ _) s _

/-- The engine's turn in RUN, when it ends, ends the command, legal or not (10_state R45, 60_exceptions R275). -/
theorem engineTurn_completion {s t : State} (hbusy : s.busy = true) (h : engineTurn s = .next t) : Completion s t := by
  unfold engineTurn at h
  rw [if_pos hbusy] at h
  split at h
  · exact exec_completion h
  · cases h; exact completion_raiseError s _

end Sys2Proof.Machine
end

section
/-! SUPPORT. The register window slot by slot: which register stands where, the bits of STATUS and CTRL, what a host access of a slot
is, and what a write of a slot can do. -/

namespace Sys2Proof.Machine

/-! ## Where the registers stand -/

/-- The offset of a register (10_state R22). -/
def Reg.offset : Reg → Nat
  | .id => 0x00
  | .ctrl => 0x08
  | .status => 0x10
  | .cmd => 0x18
  | .srcAddr => 0x20
  | .srcLen => 0x28
  | .dstAddr => 0x30
  | .dstLen => 0x38
  | .minv => 0x40
  | .maxv => 0x48
  | .opa => 0x50
  | .opb => 0x58
  | .word => 0x60
  | .mask => 0x68
  | .result => 0x70

@[simp] theorem regAt_offset (r : Reg) : regAt r.offset = some r := by
  cases r <;> rfl

theorem regAt_eq_some_iff {o : Nat} {r : Reg} : regAt o = some r ↔ o = r.offset := by
  refine ⟨fun h => ?_, fun h => h ▸ regAt_offset r⟩
  unfold regAt at h
  split at h <;> cases h <;> rfl

/-- A register that the host writes only while the engine is idle (10_state R43). -/
def Reg.isOperand : Reg → Bool
  | .srcAddr => true
  | .srcLen => true
  | .dstAddr => true
  | .dstLen => true
  | .minv => true
  | .maxv => true
  | .opa => true
  | .opb => true
  | .word => true
  | .id => false
  | .ctrl => false
  | .status => false
  | .cmd => false
  | .mask => false
  | .result => false

theorem exists_operand_of_mem_operandOffsets {o : Nat} (h : o ∈ operandOffsets) :
    ∃ r : Reg, r.isOperand = true ∧ o = r.offset := by
  simp only [operandOffsets, List.mem_cons, List.not_mem_nil, or_false] at h
  rcases h with rfl | rfl | rfl | rfl | rfl | rfl | rfl | rfl | rfl
  exacts [⟨.srcAddr, rfl, rfl⟩, ⟨.srcLen, rfl, rfl⟩, ⟨.dstAddr, rfl, rfl⟩, ⟨.dstLen, rfl, rfl⟩, ⟨.minv, rfl, rfl⟩,
    ⟨.maxv, rfl, rfl⟩, ⟨.opa, rfl, rfl⟩, ⟨.opb, rfl, rfl⟩, ⟨.word, rfl, rfl⟩]

@[simp] theorem readSlot_offset (s : State) (r : Reg) : s.readSlot r.offset = s.readReg r := by
  simp [State.readSlot]

@[simp] theorem writeSlot_offset (s : State) (r : Reg) (v : Word) : s.writeSlot r.offset v = s.writeReg v r := by
  simp [State.writeSlot]

theorem readSlot_reserved {o : Nat} (h : 0x78 ≤ o) (s : State) : s.readSlot o = 0 := by
  simp [State.readSlot, regAt_reserved h]

theorem writeSlot_reserved {o : Nat} (h : 0x78 ≤ o) (s : State) (v : Word) : s.writeSlot o v = s := by
  simp [State.writeSlot, regAt_reserved h]

/-! ## Host accesses -/

theorem definedAccess_iff {o w : Nat} : definedAccess o w = true ↔ w = 64 ∧ o % 8 = 0 ∧ o < 256 := by
  simp [definedAccess, and_assoc]

theorem definedAccess_eq_false_iff {o w : Nat} : definedAccess o w = false ↔ w ≠ 64 ∨ o % 8 ≠ 0 ∨ 256 ≤ o := by
  rw [← Bool.not_eq_true, definedAccess_iff]
  omega

theorem hostRegWrite_defined {o : Nat} (h8 : o % 8 = 0) (hlt : o < 256) (s : State) (v : Word) :
    hostRegWrite s o 64 v = .next (s.writeSlot o v) := by
  simp [hostRegWrite, definedAccess_iff.mpr ⟨rfl, h8, hlt⟩]

theorem hostRegRead_defined {o : Nat} (h8 : o % 8 = 0) (hlt : o < 256) (s : State) :
    hostRegRead s o 64 = .next { s with readData := s.readSlot o } := by
  simp [hostRegRead, definedAccess_iff.mpr ⟨rfl, h8, hlt⟩]

/-- A register stands at a multiple of 8 inside the window (10_state R20). -/
theorem offset_defined (r : Reg) : r.offset % 8 = 0 ∧ r.offset < 256 := by
  cases r <;> decide

theorem hostRegWrite_offset (s : State) (r : Reg) (v : Word) :
    hostRegWrite s r.offset 64 v = .next (s.writeReg v r) := by
  rw [hostRegWrite_defined (offset_defined r).1 (offset_defined r).2, writeSlot_offset]

theorem hostRegRead_offset (s : State) (r : Reg) :
    hostRegRead s r.offset 64 = .next { s with readData := s.readReg r } := by
  rw [hostRegRead_defined (offset_defined r).1 (offset_defined r).2, readSlot_offset]

theorem hostRegWrite_ctrl (s : State) (v : Word) : hostRegWrite s 0x08 64 v = .next { s with ie := v.getLsbD 0 } :=
  hostRegWrite_offset s .ctrl v

theorem hostRegWrite_status (s : State) (v : Word) :
    hostRegWrite s 0x10 64 v = .next { s with done := s.done && !v.getLsbD 1, ovr := s.ovr && !v.getLsbD 3 } := by
  rw [← s.writeStatus_eq v]
  exact hostRegWrite_offset s .status v

theorem hostRegWrite_cmd_idle {s : State} (hidle : s.busy = false) (v : Word) :
    hostRegWrite s 0x18 64 v = .next (s.accept v) := by
  have h : s.writeReg v .cmd = s.accept v := by simp [State.writeReg, State.writeCmd, hidle]
  rw [← h]
  exact hostRegWrite_offset s .cmd v

theorem hostRegWrite_cmd_busy {s : State} (hbusy : s.busy = true) (v : Word) :
    hostRegWrite s 0x18 64 v = .next { s with ovr := true } := by
  have h : s.writeReg v .cmd = { s with ovr := true } := by simp [State.writeReg, State.writeCmd, hbusy]
  rw [← h]
  exact hostRegWrite_offset s .cmd v

/-- A host write of an operand register is dropped while a command runs, and otherwise gives a state in which that register reads the
value and every other register reads as before (10_state R22, R43). -/
theorem writeReg_operand_spec {r : Reg} (hr : r.isOperand = true) (s : State) (v : Word) :
    ∃ u, s.writeReg v r = s.writeOperand u ∧ u.readReg r = v ∧ (∀ q, q ≠ r → u.readReg q = s.readReg q) ∧
      u.mem = s.mem ∧ u.busy = s.busy ∧ u.turns = s.turns := by
  cases r
  case id | ctrl | status | cmd | mask | result => cases hr
  all_goals
    refine ⟨_, rfl, rfl, fun q hq => ?_, rfl, rfl, rfl⟩
    cases q
    all_goals first | rfl | exact absurd rfl hq

theorem writeReg_operand_of_busy {s : State} {r : Reg} (hr : r.isOperand = true) (hbusy : s.busy = true) (v : Word) :
    s.writeReg v r = s := by
  obtain ⟨u, hu, _⟩ := writeReg_operand_spec hr s v
  simp [hu, State.writeOperand, hbusy]

theorem writeReg_operand_of_idle {s : State} {r : Reg} (hr : r.isOperand = true) (hidle : s.busy = false) (v : Word) :
    (s.writeReg v r).readReg r = v ∧ (∀ q, q ≠ r → (s.writeReg v r).readReg q = s.readReg q) ∧
      (s.writeReg v r).mem = s.mem ∧ (s.writeReg v r).busy = s.busy ∧ (s.writeReg v r).turns = s.turns := by
  obtain ⟨u, hu, hspec⟩ := writeReg_operand_spec hr s v
  have heq : s.writeReg v r = u := by simp [hu, State.writeOperand, hidle]
  rwa [heq]

/-! ## What a write of a slot can do -/

/-- `State.writeReg_cases`, slot by slot. -/
theorem writeSlot_cases (s : State) (o : Nat) (v : Word) :
    s.writeSlot o v = s ∨ (o = 0x08 ∧ s.writeSlot o v = { s with ie := v.getLsbD 0 }) ∨
      (o = 0x10 ∧ s.writeSlot o v = { s with done := s.done && !v.getLsbD 1, ovr := s.ovr && !v.getLsbD 3 }) ∨
      (o = 0x18 ∧ s.busy = true ∧ s.writeSlot o v = { s with ovr := true }) ∨
      (o = 0x18 ∧ s.busy = false ∧ s.writeSlot o v = s.accept v) ∨
      (s.busy = false ∧ ∃ a b c d e f g h i,
        s.writeSlot o v = { s with srcAddr := a, srcLen := b, dstAddr := c, dstLen := d, minv := e, maxv := f,
                                   opa := g, opb := h, word := i }) := by
  unfold State.writeSlot
  split
  · next r hr =>
    rw [regAt_eq_some_iff] at hr
    subst hr
    rw [← s.writeStatus_eq v]
    rcases s.writeReg_cases v r with h | ⟨rfl, h⟩ | ⟨rfl, h⟩ | ⟨rfl, hb, h⟩ | ⟨rfl, hb, h⟩ | h
    · exact .inl h
    · exact .inr (.inl ⟨rfl, h⟩)
    · exact .inr (.inr (.inl ⟨rfl, h⟩))
    · exact .inr (.inr (.inr (.inl ⟨rfl, hb, h⟩)))
    · exact .inr (.inr (.inr (.inr (.inl ⟨rfl, hb, h⟩))))
    · exact .inr (.inr (.inr (.inr (.inr h))))
  · exact .inl rfl

/-- A write of a slot while a command runs changes IE, DONE and OVR at most (10_state R43). -/
theorem writeSlot_of_busy {s : State} (hbusy : s.busy = true) (o : Nat) (v : Word) :
    s.writeSlot o v = { s with
      ie := (s.writeSlot o v).ie, done := (s.writeSlot o v).done, ovr := (s.writeSlot o v).ovr } := by
  rcases writeSlot_cases s o v with h | ⟨_, h⟩ | ⟨_, h⟩ | ⟨_, _, h⟩ | ⟨_, hidle, _⟩ | ⟨hidle, _⟩
  · rw [h]
  · rw [h]
  · rw [h]
  · rw [h]
  · simp [hbusy] at hidle
  · simp [hbusy] at hidle

/-- Of all slots only CMD, of an idle engine, starts a command (10_state R25, R31). -/
theorem writeSlot_busy_of_idle {s : State} (hidle : s.busy = false) {o : Nat} {v : Word}
    (h : (s.writeSlot o v).busy = true) : o = 0x18 := by
  rcases writeSlot_cases s o v with heq | ⟨_, heq⟩ | ⟨_, heq⟩ | ⟨ho, _⟩ | ⟨ho, _⟩ | ⟨_, _, _, _, _, _, _, _, _, _, heq⟩
  · simp [heq, hidle] at h
  · simp [heq, hidle] at h
  · simp [heq, hidle] at h
  · exact ho
  · exact ho
  · simp [heq, hidle] at h

/-- OVR after a write of a slot (10_state R28): bit 3 of a STATUS write clears it, a CMD write while BUSY sets it, nothing else changes
it. -/
theorem writeSlot_ovr_cases (s : State) (o : Nat) (v : Word) :
    (s.writeSlot o v).ovr = s.ovr ∨ (o = 0x10 ∧ (s.writeSlot o v).ovr = (s.ovr && !v.getLsbD 3)) ∨
      (o = 0x18 ∧ s.busy = true ∧ (s.writeSlot o v).ovr = true) := by
  rcases writeSlot_cases s o v with h | ⟨_, h⟩ | ⟨ho, h⟩ | ⟨ho, hbusy, h⟩ | ⟨_, _, h⟩ | ⟨_, _, _, _, _, _, _, _, _, _, h⟩
  · rw [h]; exact .inl rfl
  · rw [h]; exact .inl rfl
  · rw [h]; exact .inr (.inl ⟨ho, rfl⟩)
  · rw [h]; exact .inr (.inr ⟨ho, hbusy, rfl⟩)
  · rw [h]; exact .inl rfl
  · rw [h]; exact .inl rfl

/-! ## The bits of STATUS and CTRL -/

theorem field_eq (hi lo : Nat) (v : Word) : field hi lo v = v.toNat / 2 ^ lo % 2 ^ (hi - lo + 1) := by
  rw [field, BitVec.extractLsb_toNat, Nat.shiftRight_eq_div_pow]

theorem ErrCode.code_le (e : ErrCode) : e.code ≤ 7 := by
  cases e <;> decide

/-- STATUS is the number its fields write (10_state R25 to R30). -/
theorem statusWord_toNat (s : State) : s.statusWord.toNat =
    s.busy.toNat + 2 * s.done.toNat + 4 * s.err.toNat + 8 * s.ovr.toNat + 16 * s.errCode.code := by
  have hb := s.busy.toNat_le
  have hd := s.done.toNat_le
  have he := s.err.toNat_le
  have ho := s.ovr.toNat_le
  have hc := s.errCode.code_le
  rw [State.statusWord, BitVec.toNat_ofNat, Nat.mod_eq_of_lt (by omega)]

theorem getLsbD_eq_of_toNat {w : Word} {i : Nat} {b : Bool} (h : w.toNat / 2 ^ i % 2 = b.toNat) : w.getLsbD i = b := by
  rw [← BitVec.testBit_toNat, Nat.testBit_eq_decide_div_mod_eq, h]
  cases b <;> rfl

/-- Each field of STATUS at its place (10_state R25 to R29). -/
theorem statusWord_fields (s : State) :
    s.statusWord.getLsbD 0 = s.busy ∧ s.statusWord.getLsbD 1 = s.done ∧ s.statusWord.getLsbD 2 = s.err ∧
      s.statusWord.getLsbD 3 = s.ovr ∧ field 7 4 s.statusWord = s.errCode.code := by
  have hb := s.busy.toNat_le
  have hd := s.done.toNat_le
  have he := s.err.toNat_le
  have ho := s.ovr.toNat_le
  have hc := s.errCode.code_le
  refine ⟨getLsbD_eq_of_toNat ?_, getLsbD_eq_of_toNat ?_, getLsbD_eq_of_toNat ?_, getLsbD_eq_of_toNat ?_, ?_⟩
  case refine_5 => rw [field_eq, statusWord_toNat]; omega
  all_goals rw [statusWord_toNat]; omega

theorem statusWord_reserved (s : State) : field 63 8 s.statusWord = 0 := by
  have hb := s.busy.toNat_le
  have hd := s.done.toNat_le
  have he := s.err.toNat_le
  have ho := s.ovr.toNat_le
  have hc := s.errCode.code_le
  rw [field_eq, statusWord_toNat]
  omega

theorem ctrlWord_reserved (s : State) : field 63 1 s.ctrlWord = 0 := by
  have hie := s.ie.toNat_le
  rw [field_eq, State.ctrlWord, BitVec.toNat_ofNat]
  omega

/-- CTRL reads bit 0 of what was written, alone (10_state R24). -/
theorem ctrlWord_of_write (s : State) (v : Word) : { s with ie := v.getLsbD 0 }.ctrlWord = v &&& 1 := by
  refine Eq.trans ?_ BitVec.and_one_eq_setWidth_ofBool_getLsbD.symm
  unfold State.ctrlWord
  cases v.getLsbD 0 <;> rfl

end Sys2Proof.Machine
end

section
/-! SUPPORT. What a turn of the host, a turn that a host write shares with a completion, and a step can do; and that each keeps the
invariant of the machine. -/

namespace Sys2Proof.Machine

/-! ## Turns -/

theorem hostRegWrite_eq_next {s t : State} {o w : Nat} {v : Word} (h : hostRegWrite s o w v = .next t) :
    w = 64 ∧ t = s.writeSlot o v := by
  unfold hostRegWrite at h
  split at h
  · next hdef => cases h; exact ⟨(definedAccess_iff.mp hdef).1, rfl⟩
  · cases h

theorem hostRegRead_eq_next {s t : State} {o w : Nat} (h : hostRegRead s o w = .next t) :
    t = { s with readData := s.readSlot o } := by
  unfold hostRegRead at h
  split at h <;> cases h
  rfl

/-- A host write of memory changes memory and, while a command runs, the mark of a disturbed command (70_reset_and_hazards R309). -/
theorem hostMemWrite_eq_next {s t : State} {addr : Word} {bytes : List Byte} (h : hostMemWrite s addr bytes = .next t) :
    t = { s with mem := t.mem, disturbed := t.disturbed } ∧ (s.mem.wf → t.mem.wf) ∧
      (t.disturbed = true → s.disturbed = true ∨ s.busy = true) := by
  unfold hostMemWrite at h
  split at h <;> cases h
  refine ⟨rfl, Memory.writeBytes_wf _ _, fun hd => ?_⟩
  simp only [Bool.or_eq_true, Bool.and_eq_true] at hd
  exact hd.imp_right And.left

theorem hostMemRead_eq (s : State) (addr : Word) :
    hostMemRead s addr = { s with
      readData := (hostMemRead s addr).readData, freeCount := (hostMemRead s addr).freeCount } := by
  unfold hostMemRead
  split <;> rfl

theorem changeMemMap_eq_next {s t : State} {map : List Region} (h : changeMemMap s map = .next t) :
    t = { s with memMap := map } ∧ s.busy = false := by
  unfold changeMemMap at h
  split at h
  · cases h
  · next hb => cases h; exact ⟨rfl, by simpa using hb⟩

/-- What an action from outside can be: a write of a slot, a read (of a slot or of memory), a write of memory, reset, or a change
of MEM_OK while the engine is idle. -/
theorem hostTurn_cases {s t : State} {op : HostOp} (h : hostTurn op s = .next t) :
    (∃ o v, op = .regWrite o 64 v ∧ t = s.writeSlot o v) ∨
      t = { s with readData := t.readData, freeCount := t.freeCount } ∨
      (t = { s with mem := t.mem, disturbed := t.disturbed } ∧ (s.mem.wf → t.mem.wf) ∧
        (t.disturbed = true → s.disturbed = true ∨ s.busy = true)) ∨
      (op = .reset ∧ t = s.resetEvent (runningBuffers s)) ∨
      (t = { s with memMap := t.memMap } ∧ s.busy = false) := by
  cases op with
  | regWrite o w v =>
    obtain ⟨rfl, rfl⟩ := hostRegWrite_eq_next h
    exact .inl ⟨o, v, rfl, rfl⟩
  | regRead o w =>
    rw [hostRegRead_eq_next h]
    exact .inr (.inl rfl)
  | memWrite addr bytes => exact .inr (.inr (.inl (hostMemWrite_eq_next h)))
  | memRead addr =>
    cases h
    exact .inr (.inl (hostMemRead_eq s addr))
  | reset =>
    cases h
    exact .inr (.inr (.inr (.inl ⟨rfl, rfl⟩)))
  | setMemMap map =>
    obtain ⟨rfl, hidle⟩ := changeMemMap_eq_next h
    exact .inr (.inr (.inr (.inr ⟨rfl, hidle⟩)))

/-- While a command runs no action from outside but reset changes BUSY, ERRCODE, CMD, an operand register, MASK, RESULT, MEM_OK or the
turns (10_state R25, R31, R43). -/
theorem hostTurn_of_busy {s t : State} {op : HostOp} (hbusy : s.busy = true) (hop : op ≠ .reset)
    (h : hostTurn op s = .next t) :
    t = { s with
      ie := t.ie, done := t.done, ovr := t.ovr, mem := t.mem, disturbed := t.disturbed, readData := t.readData,
      freeCount := t.freeCount } := by
  rcases hostTurn_cases h with ⟨o, v, _, rfl⟩ | ht | ⟨ht, _⟩ | ⟨hreset, _⟩ | ⟨_, hidle⟩
  · rw [writeSlot_of_busy hbusy o v]
  · rw [ht]
  · rw [ht]
  · exact absurd hreset hop
  · simp [hbusy] at hidle

/-- A turn shared with a host write is that write, and then the completion of the command that runs, if one does
(10_state R26; log 15). -/
theorem bothTurn_cases {s t : State} {o w : Nat} {v : Word} (h : bothTurn s o w v = .next t) :
    w = 64 ∧ (s.busy = true ∧ Completion (s.writeSlot o v) t ∨ s.busy = false ∧ t = s.writeSlot o v) := by
  unfold bothTurn at h
  split at h
  · next hdef =>
    refine ⟨(definedAccess_iff.mp hdef).1, ?_⟩
    split at h
    · next hbusy =>
      have hw : (s.writeSlot o v).busy = true := by rw [writeSlot_of_busy hbusy o v]; exact hbusy
      exact .inl ⟨hbusy, engineTurn_completion hw h⟩
    · next hidle => cases h; exact .inr ⟨by simpa using hidle, rfl⟩
  · cases h

theorem engineTurn_cases {s t : State} (h : engineTurn s = .next t) :
    s.busy = true ∧ Completion s t ∨ s.busy = false ∧ t = s := by
  cases hb : s.busy with
  | true => exact .inl ⟨rfl, engineTurn_completion hb h⟩
  | false =>
    rw [engineTurn_eq_self_of_idle hb] at h
    cases h
    exact .inr ⟨rfl, rfl⟩

/-! ## BUSY and OVR after a turn -/

/-- A turn of an idle engine that starts a command is a host write of CMD, alone or shared (10_state R25). -/
theorem takeTurn_starts {s t : State} {x : Turn} (hidle : s.busy = false) (h : takeTurn x s = .next t)
    (hbusy : t.busy = true) : ∃ v, x = .host (.regWrite 0x18 64 v) ∨ x = .both 0x18 64 v := by
  cases x with
  | host op =>
    rcases hostTurn_cases h with ⟨o, v, rfl, rfl⟩ | ht | ⟨ht, _⟩ | ⟨_, ht⟩ | ⟨ht, _⟩
    · obtain rfl := writeSlot_busy_of_idle hidle hbusy
      exact ⟨v, .inl rfl⟩
    · rw [ht] at hbusy; simp [hidle] at hbusy
    · rw [ht] at hbusy; simp [hidle] at hbusy
    · rw [ht, (s.resetEvent_spec _).1] at hbusy; cases hbusy
    · rw [ht] at hbusy; simp [hidle] at hbusy
  | engine =>
    rcases engineTurn_cases h with ⟨_, hc⟩ | ⟨_, rfl⟩
    · simp [hc.busy_eq] at hbusy
    · simp [hidle] at hbusy
  | both o w v =>
    obtain ⟨rfl, ⟨_, hc⟩ | ⟨_, rfl⟩⟩ := bothTurn_cases h
    · simp [hc.busy_eq] at hbusy
    · obtain rfl := writeSlot_busy_of_idle hidle hbusy
      exact ⟨v, .inr rfl⟩

/-- Only reset and a host write of a slot, alone or shared, can change OVR, and the write leaves in it what it leaves alone
(10_state R28). -/
theorem takeTurn_ovr_cases {s t : State} {x : Turn} (h : takeTurn x s = .next t) :
    t.ovr = s.ovr ∨ (x = .host .reset ∧ t.ovr = false) ∨
      ∃ o v, (x = .host (.regWrite o 64 v) ∨ x = .both o 64 v) ∧ t.ovr = (s.writeSlot o v).ovr := by
  cases x with
  | host op =>
    rcases hostTurn_cases h with ⟨o, v, rfl, rfl⟩ | ht | ⟨ht, _⟩ | ⟨rfl, ht⟩ | ⟨ht, _⟩
    · exact .inr (.inr ⟨o, v, .inl rfl, rfl⟩)
    · rw [ht]; exact .inl rfl
    · rw [ht]; exact .inl rfl
    · rw [ht, (s.resetEvent_spec _).1]; exact .inr (.inl ⟨rfl, rfl⟩)
    · rw [ht]; exact .inl rfl
  | engine =>
    rcases engineTurn_cases h with ⟨_, hc⟩ | ⟨_, rfl⟩
    · exact .inl hc.ovr_eq
    · exact .inl rfl
  | both o w v =>
    obtain ⟨rfl, ⟨_, hc⟩ | ⟨_, rfl⟩⟩ := bothTurn_cases h
    · exact .inr (.inr ⟨o, v, .inr rfl, hc.ovr_eq⟩)
    · exact .inr (.inr ⟨o, v, .inr rfl, rfl⟩)

/-! ## The invariant -/

theorem Completion.inv {s t : State} (h : Completion s t) (hs : s.Inv) : t.Inv := by
  obtain ⟨hwf, _, hmask, _⟩ := hs
  exact ⟨h.mem_wf hwf, by simp [h.busy_eq], h.mask_lt hmask, by simp [h.disturbed_eq]⟩

theorem inv_writeSlot {s : State} (hs : s.Inv) (o : Nat) (v : Word) : (s.writeSlot o v).Inv := by
  obtain ⟨hwf, hclear, hmask, hdist⟩ := hs
  rcases writeSlot_cases s o v with h | ⟨_, h⟩ | ⟨_, h⟩ | ⟨_, _, h⟩ | ⟨_, _, h⟩ | ⟨_, _, _, _, _, _, _, _, _, _, h⟩ <;> rw [h]
  · exact ⟨hwf, hclear, hmask, hdist⟩
  · exact ⟨hwf, hclear, hmask, hdist⟩
  · exact ⟨hwf, fun hb => ⟨by simp [(hclear hb).1], (hclear hb).2⟩, hmask, hdist⟩
  · exact ⟨hwf, hclear, hmask, hdist⟩
  · exact ⟨hwf, fun _ => ⟨rfl, rfl⟩, hmask, nofun⟩
  · exact ⟨hwf, hclear, hmask, hdist⟩

theorem inv_resetEvent {s : State} (hs : s.Inv) (b : Buffers) : (s.resetEvent b).Inv := by
  obtain ⟨heq, _, hwf, _⟩ := s.resetEvent_spec b
  rw [heq]
  exact ⟨hwf hs.1, nofun, Nat.two_pow_pos 60, nofun⟩

theorem inv_hostTurn {s t : State} {op : HostOp} (hs : s.Inv) (h : hostTurn op s = .next t) : t.Inv := by
  obtain ⟨hwf, hclear, hmask, hdist⟩ := hs
  rcases hostTurn_cases h with ⟨o, v, _, rfl⟩ | ht | ⟨ht, hwf', hdist'⟩ | ⟨_, rfl⟩ | ⟨ht, _⟩
  · exact inv_writeSlot ⟨hwf, hclear, hmask, hdist⟩ o v
  · rw [ht]; exact ⟨hwf, hclear, hmask, hdist⟩
  · rw [ht]; exact ⟨hwf' hwf, hclear, hmask, fun hd => (hdist' hd).elim hdist id⟩
  · exact inv_resetEvent ⟨hwf, hclear, hmask, hdist⟩ _
  · rw [ht]; exact ⟨hwf, hclear, hmask, hdist⟩

theorem inv_engineTurn {s t : State} (hs : s.Inv) (h : engineTurn s = .next t) : t.Inv := by
  rcases engineTurn_cases h with ⟨_, hc⟩ | ⟨_, rfl⟩
  · exact hc.inv hs
  · exact hs

theorem inv_takeTurn {s t : State} {x : Turn} (hs : s.Inv) (h : takeTurn x s = .next t) : t.Inv := by
  cases x with
  | host op => exact inv_hostTurn hs h
  | engine => exact inv_engineTurn hs h
  | both o w v =>
    rcases (bothTurn_cases h).2 with ⟨_, hc⟩ | ⟨_, rfl⟩
    · exact hc.inv (inv_writeSlot hs o v)
    · exact inv_writeSlot hs o v

/-- Settles O9: a step is a turn, taken from a state that differs in the turns only; a completion, a host write of a slot, reset, and
every other action from outside keep the invariant. -/
theorem stepKeepsInvariant : Obligations.StepKeepsInvariant := by
  intro s t hs h
  cases hturns : s.turns with
  | nil =>
    rw [step_eq_engineTurn_of_turns_nil hturns] at h
    exact inv_engineTurn hs h
  | cons x ts =>
    rw [step_eq_takeTurn_of_turns_cons hturns] at h
    exact inv_takeTurn (s := { s with turns := ts }) hs h

end Sys2Proof.Machine
end

section
/-! SUPPORT. The registers, the flags and the host's accesses (10_state): the statements of the family, each assembled from what a slot
write, a turn and a completion can do. -/

namespace Sys2Proof.Machine

/-! ## Command words -/

/-- The decoder reads back what the encoder writes (30_encoding R108, R111). -/
theorem decodeCmd_encode {i : Instr} (h : i.wellFormed = true) : decodeCmd (encode i) = .ok i := by
  cases i
  case encode ew fmt | decode ew fmt => cases ew <;> cases fmt <;> decide
  case packw ew fmt sel =>
    have hsel : sel < 16 := of_decide_eq_true h
    interval_cases sel <;> cases ew <;> cases fmt <;> decide
  all_goals next fmt => cases fmt <;> decide

/-- Settles O7: the write is accepted, and the engine's turn after it finds the word of a well-formed command. -/
theorem issueThenRun : Obligations.IssueThenRun := by
  intro s i ts hwf hidle hturns
  refine ⟨_, ?_, rfl, ?_⟩
  · rw [step_eq_takeTurn_of_turns_cons hturns]
    exact hostRegWrite_cmd_idle (s := { s with turns := .engine :: ts }) hidle _
  · rw [step_eq_engineTurn_of_engine_next rfl]
    exact engineTurn_eq_exec rfl (decodeCmd_encode hwf)

/-! ## Reset -/

/-- Settles O10: memory lists nothing, no command runs, MASK is 0 and nothing is marked as disturbed. -/
theorem resetStateInvariant : Obligations.ResetStateInvariant :=
  ⟨reset_mem_wf, nofun, Nat.two_pow_pos 60, nofun⟩

/-- After reset every register but ID reads 0, whatever memory and the model's own fields hold (10_state R51). -/
theorem reset_readReg (m : Memory) (map : List Region) (ts : List Turn) (d : Word) (n : Nat) {r : Reg} (hr : r ≠ .id) :
    { State.reset with mem := m, memMap := map, turns := ts, readData := d, freeCount := n }.readReg r = 0 := by
  cases r
  case id => exact absurd rfl hr
  all_goals rfl

/-- Settles O11: the reset event gives the registers of `State.reset`. -/
theorem resetValues : Obligations.ResetValues := by
  refine ⟨fun s => ?_, fun r hr => reset_readReg _ _ _ _ _ hr, rfl, rfl⟩
  obtain ⟨heq, hidle, _, hout⟩ := s.resetEvent_spec (runningBuffers s)
  refine ⟨_, rfl, rfl, fun r hr => ?_, ?_, ?_, hidle, hout⟩
  · rw [heq]; exact reset_readReg _ _ _ _ _ hr
  · rw [heq]; rfl
  · rw [heq]; rfl

/-! ## CTRL and STATUS -/

/-- Settles O13: the write touches IE alone, and CTRL and IRQ are read from IE. -/
theorem ctrlRegister : Obligations.CtrlRegister := by
  refine ⟨fun s v => ⟨_, hostRegWrite_ctrl s v, rfl, ?_, rfl⟩, rfl⟩
  rw [← ctrlWord_of_write s v]
  exact hostRegRead_offset _ .ctrl

/-- Settles O14: STATUS is the number its fields write, and ERR is computed from ERRCODE. -/
theorem statusLayout : Obligations.StatusLayout := by
  refine ⟨fun s => ?_, rfl⟩
  obtain ⟨hbusy, hdone, herr, hovr, hcode⟩ := statusWord_fields s
  change s.statusWord.getLsbD 0 = _ ∧ _
  refine ⟨hbusy, hdone, ?_, hovr, hcode, hcode ▸ s.errCode.code_le⟩
  exact herr.trans (by rw [State.err, ← hcode]; rfl)

/-- Settles O15: STATUS is written as `State.writeStatus` says and is below 2^8. -/
theorem statusWrite : Obligations.StatusWrite :=
  ⟨hostRegWrite_status, statusWord_reserved, rfl⟩

/-- Settles O16: in RUN only a completion and reset clear BUSY, and in IDLE only a host write of CMD sets it. -/
theorem busyFlag : Obligations.BusyFlag := by
  refine ⟨fun s v hidle => ⟨_, hostRegWrite_cmd_idle hidle v, rfl⟩,
    fun s t hbusy h => (engineTurn_completion hbusy h).busy_eq, fun s t op hbusy hop h => ?_,
    fun s t x hidle h hbusy => takeTurn_starts hidle h hbusy, rfl⟩
  rw [hostTurn_of_busy hbusy hop h]
  exact hbusy

/-- Settles O17: the completion comes after the host's write of the same step, so its DONE stands. -/
theorem doneFlag : Obligations.DoneFlag := by
  refine ⟨fun s t hbusy h => (engineTurn_completion hbusy h).done_eq,
    fun s v hidle => ⟨_, hostRegWrite_cmd_idle hidle v, rfl⟩, fun s v => ⟨_, hostRegWrite_status s v, rfl⟩,
    fun s t v hbusy h => ?_, rfl⟩
  rcases (bothTurn_cases h).2 with ⟨_, hc⟩ | ⟨hidle, _⟩
  · exact hc.done_eq
  · simp [hbusy] at hidle

/-- Settles O18: a turn that changes OVR is reset or a write of a slot, and of the slots only STATUS clears it and only CMD sets it. -/
theorem ovrFlag : Obligations.OvrFlag := by
  refine ⟨fun s v hbusy => ⟨_, hostRegWrite_cmd_busy hbusy v, rfl⟩, fun s t x h hset hclear => ?_,
    fun s t x h hclear hset => ?_, fun s v hv => ⟨_, hostRegWrite_status s v, by simp [hv]⟩,
    fun s v hidle => ⟨_, hostRegWrite_cmd_idle hidle v, rfl⟩, rfl⟩
  · rcases takeTurn_ovr_cases h with ht | ⟨hx, _⟩ | ⟨o, v, hx, ht⟩
    · simp [ht, hset] at hclear
    · exact .inl hx
    · rcases writeSlot_ovr_cases s o v with hw | ⟨rfl, hw⟩ | ⟨_, _, hw⟩
      · simp [ht, hw, hset] at hclear
      · exact .inr ⟨v, by simpa [ht, hw, hset] using hclear, hx⟩
      · simp [ht, hw] at hclear
  · rcases takeTurn_ovr_cases h with ht | ⟨_, ht⟩ | ⟨o, v, hx, ht⟩
    · simp [ht, hclear] at hset
    · simp [ht] at hset
    · rcases writeSlot_ovr_cases s o v with hw | ⟨_, hw⟩ | ⟨rfl, hbusy, _⟩
      · simp [ht, hw, hclear] at hset
      · simp [ht, hw, hclear] at hset
      · exact ⟨hbusy, v, hx⟩

/-! ## CMD and the operand registers -/

/-- Settles O19: the two cases of a CMD write; a completion, of a legal word or not, keeps CMD. -/
theorem cmdWrite : Obligations.CmdWrite := by
  refine ⟨fun s v hidle => hostRegWrite_cmd_idle hidle v, fun s v hbusy => hostRegWrite_cmd_busy hbusy v,
    fun s => hostRegRead_offset s .cmd, fun s t h => ?_, rfl⟩
  rcases engineTurn_cases h with ⟨_, hc⟩ | ⟨_, rfl⟩
  · exact hc.cmd_eq
  · rfl

/-- Settles O20: a write of an operand register is dropped, and what else an action from outside can change is no operand. -/
theorem operandsHeld : Obligations.OperandsHeld := by
  refine ⟨fun s v hbusy o ho => ?_, fun s t op hbusy hop h => ?_, hostRegWrite_ctrl, hostRegWrite_status,
    fun s v hbusy => hostRegWrite_cmd_busy hbusy v⟩
  · obtain ⟨r, hr, rfl⟩ := exists_operand_of_mem_operandOffsets ho
    rw [hostRegWrite_offset, writeReg_operand_of_busy hr hbusy]
  · have ht := hostTurn_of_busy hbusy hop h
    refine ⟨by rw [ht], fun o ho => ?_⟩
    obtain ⟨r, hr, rfl⟩ := exists_operand_of_mem_operandOffsets ho
    rw [readSlot_offset, readSlot_offset, ht]
    cases r
    case id | ctrl | status | cmd | mask | result => cases hr
    all_goals rfl

/-- Settles O21: an operand register takes the write and the others read as before; a slot that is no register reads 0 throughout. -/
theorem registersReadBack : Obligations.RegistersReadBack := by
  refine ⟨fun s v hidle o ho => ?_, fun s v o ho => ?_, fun s o h8 hlt => hostRegRead_defined h8 hlt s, fun s => rfl⟩
  · obtain ⟨r, hr, rfl⟩ := exists_operand_of_mem_operandOffsets ho
    obtain ⟨hsame, hother, hmem, hbusy, hturns⟩ := writeReg_operand_of_idle hr hidle v
    refine ⟨_, hostRegWrite_offset s r v, by rw [readSlot_offset, hsame], fun q hq => ?_, hmem, hbusy.trans hidle, hturns⟩
    unfold State.readSlot
    split
    · next p hp => exact hother p fun hpr => hq (regAt_eq_some_iff.mp (hpr ▸ hp))
    · rfl
  · simp only [List.mem_cons, List.not_mem_nil, or_false] at ho
    rcases ho with rfl | rfl | rfl
    · exact hostRegWrite_offset s .id v
    · exact hostRegWrite_offset s .mask v
    · exact hostRegWrite_offset s .result v

/-! ## Reserved slots and undefined accesses -/

/-- Values that agree under a mask agree on each of its bits. -/
theorem getLsbD_eq_of_and_eq {v w m : Word} (h : v &&& m = w &&& m) {i : Nat} (hi : m.getLsbD i = true) :
    v.getLsbD i = w.getLsbD i := by
  simpa [BitVec.getLsbD_and, hi] using congrArg (·.getLsbD i) h

/-- Settles O22: no register stands from 0x78 on, and a write of CTRL or STATUS uses bits 0, 1 and 3 only. -/
theorem reservedSlotsAndBits : Obligations.ReservedSlotsAndBits := by
  refine ⟨fun s o hlo hhi h8 => ⟨?_, fun v => ?_⟩, fun s => ⟨ctrlWord_reserved s, statusWord_reserved s⟩,
    fun s v w => ⟨fun h => ?_, fun h => ?_⟩⟩
  · rw [hostRegRead_defined h8 (by omega), readSlot_reserved hlo]
  · rw [hostRegWrite_defined h8 (by omega), writeSlot_reserved hlo]
  · rw [hostRegWrite_ctrl, hostRegWrite_ctrl, getLsbD_eq_of_and_eq h (by decide)]
  · rw [hostRegWrite_status, hostRegWrite_status, getLsbD_eq_of_and_eq h (i := 1) (by decide),
      getLsbD_eq_of_and_eq h (i := 3) (by decide)]

/-- Settles O23: such an access is not a defined one. -/
theorem undefinedAccessRefused : Obligations.UndefinedAccessRefused := by
  intro s o w v h
  have hundef := definedAccess_eq_false_iff.mpr h
  exact ⟨by simp [hostRegRead, hundef], by simp [hostRegWrite, hundef]⟩

end Sys2Proof.Machine
end

section
/-! SUPPORT. What CMP and CMPW read: of the operand registers, what decides the result bits of a code word. -/

namespace Sys2Proof.Machine

/-- Only BW compares with its second operand (40_kernels R125). -/
theorem predHolds_congr_of_ne_bw {p : Pred} (hp : p ≠ .bw) (x a b c : Word) : predHolds p x a b = predHolds p x a c := by
  cases p
  case bw => exact absurd rfl hp
  all_goals rfl

theorem cmpKernel_congr_of_ne_bw {p : Pred} (hp : p ≠ .bw) (fmt : Format) (w a b c : Word) :
    cmpKernel fmt p w a b = cmpKernel fmt p w a c := by
  simp only [cmpKernel, predHolds_congr_of_ne_bw hp _ a b c]

theorem hits_congr_of_ne_bw {p : Pred} (hp : p ≠ .bw) (fmt : Format) (a b c : Word) :
    (CmpArgs.mk fmt p a b).hits = (CmpArgs.mk fmt p a c).hits := by
  funext w
  simp only [CmpArgs.hits, wordHits, cmpKernel_congr_of_ne_bw hp fmt w a b c]

/-- The compare engine's loop depends on its arguments through the result bits of each word only (43_compare R240). -/
theorem cmpLoop_congr (map : List Region) {q r : CmpArgs} (hqr : q.hits = r.hits) (dst cap : Nat) :
    ∀ (n a k : Nat) (m : Memory), cmpLoop map q dst cap n a k m = cmpLoop map r dst cap n a k m
  | 0, _, _, _ => rfl
  | n + 1, a, k, m => by
    simp only [cmpLoop, hqr, cmpLoop_congr map hqr dst cap n]

/-- CMP after its checks with another MINV, and another OPB that changes no result bit (43_compare R240). -/
theorem cmpRun_with_minv_opb {p : Pred} {fmt : Format} {s : State} {b : Word} (m : Word)
    (hhits : (CmpArgs.mk fmt p s.opa b).hits = (cmpArgs p fmt s).hits) :
    cmpRun p fmt { s with minv := m, opb := b } = { cmpRun p fmt s with minv := m, opb := b } := by
  have hloop := cmpLoop_congr s.memMap hhits s.dstAddr.toNat s.dstLen.toNat (s.srcLen.toNat / 8) s.srcAddr.toNat 0 s.mem
  have hstream : streamHits ⟨fmt, p, s.opa, b⟩ = streamHits (cmpArgs p fmt s) := by
    funext mem n a
    simp only [streamHits, hhits]
  unfold cmpRun
  dsimp only [cmpArgs] at hloop hstream ⊢
  rw [hloop, hstream]
  split <;> rfl

/-- A calm CMP that ends gives the same end with another MINV, and another OPB that changes no result bit (43_compare R240). -/
theorem compareStream_with_minv_opb {p : Pred} {fmt : Format} {s t : State} {b : Word} (m : Word)
    (hcalm : s.disturbed = false) (hhits : (CmpArgs.mk fmt p s.opa b).hits = (cmpArgs p fmt s).hits)
    (h : compareStream p fmt s = .next t) :
    compareStream p fmt { s with minv := m, opb := b } = .next { t with minv := m, opb := b } := by
  unfold compareStream at h ⊢
  rw [show cmpCheck { s with minv := m, opb := b } = cmpCheck s from rfl]
  cases hcheck : cmpCheck s with
  | some e =>
    rw [hcheck] at h
    cases h
    rfl
  | none =>
    rw [hcheck] at h
    rcases s.onBuffers_cases (cmpBuffers s) [.destinationTooSmall, .busError] s.word (cmpRun p fmt s) with
      ⟨_, heq⟩ | ⟨_, hdist, _⟩ | ⟨hdev, _, heq⟩
    · exact absurd (heq.symm.trans h) nofun
    · simp [hcalm] at hdist
    · obtain rfl : cmpRun p fmt s = t := by simpa [heq] using h
      rw [← cmpRun_with_minv_opb m hhits]
      exact State.onBuffers_of_calm (s := { s with minv := m, opb := b }) ⟨hcalm, hdev⟩ _ _ _

/-- A CMPW gives the same end with another MINV, and another OPB that changes no mask (40_kernels R136). -/
theorem compareWord_with_minv_opb {p : Pred} {fmt : Format} {s t : State} {b : Word} (m : Word)
    (hkernel : cmpKernel fmt p s.word s.opa b = cmpKernel fmt p s.word s.opa s.opb)
    (h : compareWord p fmt s = .next t) :
    compareWord p fmt { s with minv := m, opb := b } = .next { t with minv := m, opb := b } := by
  unfold compareWord at h ⊢
  cases h
  dsimp only
  rw [hkernel]
  rfl

/-- The end of a command with another MINV has the OPB the command began with. -/
theorem Completion.with_minv {s t : State} (h : Completion s t) (m : Word) :
    { t with minv := m, opb := s.opb } = { t with minv := m } := by
  rw [← h.opb_eq]

/-- The end of a command with another OPB has the MINV the command began with. -/
theorem Completion.with_opb {s t : State} (h : Completion s t) (b : Word) :
    { t with minv := s.minv, opb := b } = { t with opb := b } := by
  rw [← h.minv_eq]

/-- Settles O51: MINV and OPB reach a comparison through the result bits only, which MINV never decides and OPB only for BW; the one of
the two that is not changed, the command leaves as it was. -/
theorem compareReadsOnlyItsOperands : Obligations.CompareReadsOnlyItsOperands := by
  intro p fmt s t m b hcalm
  refine ⟨fun h => ?_, fun h => ?_, fun hp => ⟨fun h => ?_, fun h => ?_⟩⟩
  · rw [← (exec_completion h).with_minv m]
    rw [exec_cmpInstr] at h ⊢
    exact compareStream_with_minv_opb (b := s.opb) m hcalm rfl h
  · rw [← (exec_completion h).with_minv m]
    rw [exec_cmpwInstr] at h ⊢
    exact compareWord_with_minv_opb (b := s.opb) m rfl h
  · rw [← (exec_completion h).with_opb b]
    rw [exec_cmpInstr] at h ⊢
    exact compareStream_with_minv_opb s.minv hcalm (hits_congr_of_ne_bw hp fmt _ _ _) h
  · rw [← (exec_completion h).with_opb b]
    rw [exec_cmpwInstr] at h ⊢
    exact compareWord_with_minv_opb s.minv (cmpKernel_congr_of_ne_bw hp fmt _ _ _ _) h

end Sys2Proof.Machine
end

section
/-! SUPPORT. How a command ends: at its checks, refused before its first access, or after it could access its buffers; what it then leaves
of memory and which code it leaves. -/

namespace Sys2Proof.Machine

/-- The codes of a command's row that can end it once its range check has passed (60_exceptions R271, R279). -/
def accessErrors (i : Instr) : List ErrCode :=
  (mayRaise i).filter (· ∈ [.valueOutOfBounds, .destinationTooSmall, .busError])

theorem mem_accessErrors {i : Instr} {e : ErrCode} :
    e ∈ accessErrors i ↔ e ∈ mayRaise i ∧ e ∈ [.valueOutOfBounds, .destinationTooSmall, .busError] := by
  simp [accessErrors]

/-- `t` is `s` after the command `i` has passed its range check, could access its buffers, and has ended (20_memory R68,
60_exceptions R280). -/
structure Accessed (i : Instr) (s t : State) : Prop where
  range : (buffersOf i s).badRange = false
  frame : agreeOutside (buffersOf i s).dst t.mem s.mem
  mem_eq : writesMemory i = false → t.mem = s.mem
  code : t.errCode = .none ∨ t.errCode ∈ accessErrors i

/-- What `exec` answers: an error of the checks, the refusal of a device buffer (U10), or the end of a command that could access its
buffers. -/
inductive CommandOutcome (i : Instr) (s : State) : Host.Outcome State Fault Refusal → Prop where
  | checked {e : ErrCode} (code : e ∈ mayRaise i) : CommandOutcome i s (.next (s.raiseError e))
  | refused (device : (buffersOf i s).onDevice s.memMap = true) : CommandOutcome i s (.refused .deviceBuffer)
  | ended {t : State} (accessed : Accessed i s t) : CommandOutcome i s (.next t)

/-! ## Tables of the seven predicates at once -/

@[simp] theorem mayRaise_cmpInstr (p : Pred) (fmt : Format) : mayRaise (cmpInstr p fmt) =
    [.invalidBufferLength, .destinationTooSmall, .addressRange, .busError] := by
  cases p <;> rfl

@[simp] theorem writesMemory_cmpInstr (p : Pred) (fmt : Format) : writesMemory (cmpInstr p fmt) = true := by
  cases p <;> rfl

/-- A command that writes no memory has no destination range (20_memory R61). -/
theorem dst_size_of_writesMemory_eq_false {i : Instr} (h : writesMemory i = false) (s : State) :
    (buffersOf i s).dst.size = 0 := by
  cases i
  case encode | decode | cmpEq | cmpNe | cmpLt | cmpLe | cmpGt | cmpGe | cmpBw => cases h
  all_goals rfl

/-! ## The ways to end after the checks -/

theorem accessed_of_mem_eq {i : Instr} {s t : State} (hrange : (buffersOf i s).badRange = false) (hmem : t.mem = s.mem)
    (hcode : t.errCode = .none ∨ t.errCode ∈ accessErrors i) : Accessed i s t :=
  ⟨hrange, fun _ _ => by rw [hmem], fun _ => hmem, hcode⟩

theorem accessed_of_frame {i : Instr} {s t : State} (hrange : (buffersOf i s).badRange = false)
    (hwrites : writesMemory i = true) (hframe : agreeOutside (buffersOf i s).dst t.mem s.mem)
    (hcode : t.errCode = .none ∨ t.errCode ∈ accessErrors i) : Accessed i s t :=
  ⟨hrange, hframe, by simp [hwrites], hcode⟩

/-- A disturbed command writes in its destination range only, also where that is empty (70_reset_and_hazards R309). -/
theorem accessed_endDisturbed {i : Instr} {s : State} {errs : List ErrCode} (hrange : (buffersOf i s).badRange = false)
    (herrs : ∀ e ∈ errs, e ∈ accessErrors i) (out : Word) :
    Accessed i s (s.endDisturbed (buffersOf i s).dst errs out) := by
  have hframe := (s.scramble_spec (buffersOf i s).dst).2.2
  have hmem := fun h => s.scramble_mem_of_size_zero (dst_size_of_writesMemory_eq_false (i := i) h s)
  rcases s.endDisturbed_spec (buffersOf i s).dst errs out with ⟨e, he, h⟩ | h <;> rw [h]
  · exact ⟨hrange, hframe, hmem, .inr (herrs e he)⟩
  · exact ⟨hrange, hframe, hmem, .inl rfl⟩

/-- A command that ends at its checks, or starts on its buffers. -/
theorem outcome_of_checked {i : Instr} {s u : State} {b : Buffers} {check : Option ErrCode} {errs : List ErrCode}
    {out : Word} (hb : buffersOf i s = b) (hcheck : ∀ e, check = some e → e ∈ mayRaise i)
    (hrange : check = none → b.badRange = false) (herrs : ∀ e ∈ errs, e ∈ accessErrors i)
    (hu : b.badRange = false → Accessed i s u) :
    CommandOutcome i s (match (generalizing := false) check with
      | some e => .next (s.raiseError e)
      | none => s.onBuffers b errs out u) := by
  subst hb
  cases check with
  | some e => exact .checked (hcheck e rfl)
  | none =>
    have hr := hrange rfl
    dsimp only
    rcases s.onBuffers_cases (buffersOf i s) errs out u with ⟨hdev, h⟩ | ⟨_, _, h⟩ | ⟨_, _, h⟩ <;> rw [h]
    · exact .refused hdev
    · exact .ended (accessed_endDisturbed hr herrs out)
    · exact .ended (hu hr)

/-! ## The checks -/

theorem encodeCheck_some {ew : ElemWidth} {fmt : Format} {s : State} {e : ErrCode} (h : encodeCheck ew fmt s = some e) :
    e ∈ mayRaise (.encode ew fmt) := by
  unfold encodeCheck at h
  split_ifs at h <;> cases h <;> simp [mayRaise]

theorem encodeCheck_none {ew : ElemWidth} {fmt : Format} {s : State} (h : encodeCheck ew fmt s = none) :
    (encodeBuffers ew s).badRange = false := by
  unfold encodeCheck at h
  split_ifs at h with _ _ hrange <;> simpa using hrange

theorem decodeCheck_some {ew : ElemWidth} {s : State} {e : ErrCode} (h : decodeCheck ew s = some e) (fmt : Format) :
    e ∈ mayRaise (.decode ew fmt) := by
  unfold decodeCheck at h
  split_ifs at h <;> cases h <;> simp [mayRaise]

theorem decodeCheck_none {ew : ElemWidth} {s : State} (h : decodeCheck ew s = none) :
    (decodeBuffers ew s).badRange = false := by
  unfold decodeCheck at h
  split_ifs at h with _ hrange
  simpa using hrange

theorem countCheck_some {s : State} {e : ErrCode} (h : countCheck s = some e) (fmt : Format) :
    e ∈ mayRaise (.count fmt) := by
  unfold countCheck at h
  split_ifs at h <;> cases h <;> simp [mayRaise]

theorem countCheck_none {s : State} (h : countCheck s = none) : (countBuffers s).badRange = false := by
  unfold countCheck at h
  split_ifs at h with _ hrange
  simpa using hrange

theorem cmpCheck_some {s : State} {e : ErrCode} (h : cmpCheck s = some e) (p : Pred) (fmt : Format) :
    e ∈ mayRaise (cmpInstr p fmt) := by
  unfold cmpCheck at h
  split_ifs at h <;> cases h <;> simp

theorem cmpCheck_none {s : State} (h : cmpCheck s = none) : (cmpBuffers s).badRange = false := by
  unfold cmpCheck at h
  split_ifs at h with _ hrange
  simpa using hrange

theorem packwCheck_some {ew : ElemWidth} {fmt : Format} {sel : Nat} {s : State} {e : ErrCode}
    (h : packwCheck ew fmt sel s = some e) : e ∈ mayRaise (.packw ew fmt sel) := by
  unfold packwCheck at h
  split_ifs at h <;> cases h <;> simp [mayRaise]

theorem packwCheck_none {ew : ElemWidth} {fmt : Format} {sel : Nat} {s : State} (h : packwCheck ew fmt sel s = none) :
    (packwBuffers ew sel s).badRange = false := by
  unfold packwCheck at h
  split_ifs at h with _ hrange
  simpa using hrange

/-! ## The commands after their checks -/

/-- ENCODE's words lie in its destination range (41_encode R177). -/
theorem emitWords_frame {map : List Region} {dst cap : Nat} {xs : List Word} {m m' : Memory}
    (h : emitWords map dst cap xs 0 m = .ok m') : agreeOutside ⟨dst, cap⟩ m' m := by
  obtain ⟨_, hout, _, hcap⟩ := emitWords_ok h
  intro a ha
  rw [Span.has_eq_false_iff] at ha
  refine hout a ?_
  by_cases hx : xs = []
  · simp only [hx, List.length_nil]; omega
  · have hle := hcap hx
    dsimp only at ha
    omega

/-- DECODE's elements lie in its destination range (42_decode R203). -/
theorem decodeLoop_frame {map : List Region} {fmt : Format} {ew : ElemWidth} {minv : Word} {dst cap n a c : Nat}
    {m m' : Memory} (h : decodeLoop map fmt ew minv dst cap n a 0 m = .ok (m', c)) :
    agreeOutside ⟨dst, cap * ewByteCount ew⟩ m' m := by
  obtain ⟨_, _, hcap, hout⟩ := decodeLoop_ok h
  intro x hx
  have hle : c * ewByteCount ew ≤ cap * ewByteCount ew := Nat.mul_le_mul_right _ (hcap (Nat.zero_le _))
  rw [Span.has_eq_false_iff] at hx
  dsimp only at hx
  exact hout x (by omega)

/-- CMP's bits lie in its destination range (43_compare R233). -/
theorem cmpLoop_frame {map : List Region} {q : CmpArgs} {dst cap n a k : Nat} {m m' : Memory}
    (h : cmpLoop map q dst cap n a 0 m = .ok (m', k)) : agreeOutside ⟨dst, ceilDiv cap 8⟩ m' m := by
  obtain ⟨_, _, hcap, hout⟩ := cmpLoop_ok h
  intro x hx
  have hle : ceilDiv k 8 ≤ ceilDiv cap 8 := Nat.div_le_div_right (by have := hcap (Nat.zero_le _); omega)
  rw [Span.has_eq_false_iff] at hx
  dsimp only at hx
  exact hout x (by omega)

theorem accessed_encodeRun {ew : ElemWidth} {s : State} (hrange : (encodeBuffers ew s).badRange = false) (fmt : Format) :
    Accessed (.encode ew fmt) s (encodeRun ew s) := by
  unfold encodeRun
  split
  · exact accessed_of_mem_eq hrange rfl (.inl rfl)
  · split
    · next e he =>
      refine accessed_of_mem_eq hrange rfl (.inr ?_)
      rcases validate_error he with rfl | rfl <;> simp [mem_accessErrors, mayRaise]
    · split
      · next e he =>
        refine accessed_of_frame hrange rfl (s.raiseLate_spec _ e).2.2 (.inr ?_)
        rcases emitWords_error he with rfl | rfl <;> simp [State.raiseLate, mem_accessErrors, mayRaise]
      · next m hm => exact accessed_of_frame hrange rfl (emitWords_frame hm) (.inl rfl)

theorem accessed_decodeRun {ew : ElemWidth} {s : State} (hrange : (decodeBuffers ew s).badRange = false) (fmt : Format) :
    Accessed (.decode ew fmt) s (decodeRun ew fmt s) := by
  unfold decodeRun
  split
  · next e he =>
    refine accessed_of_frame hrange rfl (s.raiseLate_spec _ e).2.2 (.inr ?_)
    rcases decodeLoop_error he with rfl | rfl <;> simp [State.raiseLate, mem_accessErrors, mayRaise]
  · next m c hm => exact accessed_of_frame hrange rfl (decodeLoop_frame hm) (.inl rfl)

theorem accessed_countRun {s : State} (hrange : (countBuffers s).badRange = false) (fmt : Format) :
    Accessed (.count fmt) s (countRun fmt s) := by
  unfold countRun
  split
  · next e he =>
    refine accessed_of_mem_eq hrange rfl (.inr ?_)
    simp [countLoop_error he, mem_accessErrors, mayRaise]
  · exact accessed_of_mem_eq hrange rfl (.inl rfl)

theorem accessed_cmpRun {s : State} (hrange : (cmpBuffers s).badRange = false) (p : Pred) (fmt : Format) :
    Accessed (cmpInstr p fmt) s (cmpRun p fmt s) := by
  rw [← buffersOf_cmpInstr p fmt] at hrange
  unfold cmpRun
  split
  · next e he =>
    refine accessed_of_frame hrange (writesMemory_cmpInstr p fmt) ?_ (.inr ?_)
    · rw [buffersOf_cmpInstr]
      exact (s.scrambleHits_spec _ _).2.2
    · rcases cmpLoop_error he with rfl | rfl <;> simp [mem_accessErrors]
  · next m k hm =>
    refine accessed_of_frame hrange (writesMemory_cmpInstr p fmt) ?_ (.inl rfl)
    rw [buffersOf_cmpInstr]
    exact cmpLoop_frame hm

theorem accessed_packwRun {ew : ElemWidth} {sel : Nat} {s : State} (hrange : (packwBuffers ew sel s).badRange = false)
    (fmt : Format) : Accessed (.packw ew fmt sel) s (packwRun ew sel s) := by
  unfold packwRun
  split
  · next e he =>
    refine accessed_of_mem_eq hrange rfl (.inr ?_)
    rcases packElems_error he with rfl | rfl <;> simp [mem_accessErrors, mayRaise]
  · exact accessed_of_mem_eq hrange rfl (.inl rfl)

/-- Every command has one of the three outcomes (60_exceptions R270, R271, R280). -/
theorem exec_outcome (i : Instr) (s : State) : CommandOutcome i s (exec i s) := by
  rcases exec_cases i with ⟨ew, fmt, rfl⟩ | ⟨ew, fmt, rfl⟩ | ⟨fmt, rfl⟩ | ⟨p, fmt, rfl⟩ | ⟨ew, fmt, sel, rfl⟩ | ⟨p, fmt, rfl⟩
  · refine outcome_of_checked rfl (fun _ => encodeCheck_some) encodeCheck_none ?_ (accessed_encodeRun · fmt)
    simp [mem_accessErrors, mayRaise]
  · refine outcome_of_checked rfl (fun _ h => decodeCheck_some h fmt) decodeCheck_none ?_ (accessed_decodeRun · fmt)
    simp [mem_accessErrors, mayRaise]
  · refine outcome_of_checked rfl (fun _ h => countCheck_some h fmt) countCheck_none ?_ (accessed_countRun · fmt)
    simp [mem_accessErrors, mayRaise]
  · rw [exec_cmpInstr]
    refine outcome_of_checked (buffersOf_cmpInstr p fmt s) (fun _ h => cmpCheck_some h p fmt) cmpCheck_none ?_
      (accessed_cmpRun · p fmt)
    simp [mem_accessErrors]
  · refine outcome_of_checked rfl (fun _ => packwCheck_some) packwCheck_none ?_ (accessed_packwRun · fmt)
    simp [mem_accessErrors, mayRaise]
  · rw [exec_cmpwInstr]
    exact .ended (accessed_of_mem_eq (by rw [buffersOf_cmpwInstr]; rfl) rfl (.inl rfl))

/-- Settles O27: each of the three outcomes leaves a code of the command's row, or is the refusal of a device buffer. -/
theorem commandsComplete : Obligations.CommandsComplete := by
  intro i s
  have h := exec_outcome i s
  generalize exec i s = o at h ⊢
  cases h with
  | checked hcode => exact .inl ⟨_, rfl, .inr hcode⟩
  | refused hdev => exact .inr ⟨rfl, hdev⟩
  | ended hacc => exact .inl ⟨_, rfl, hacc.code.imp_right fun h => (mem_accessErrors.mp h).1⟩

/-- Settles O26: the checks leave memory alone, and after them the source and destination range share no byte; a command that
ends with a code of the early checks never started on its buffers. -/
theorem onlyDestinationWritten : Obligations.OnlyDestinationWritten := by
  intro i s t h
  have hout := exec_outcome i s
  rw [h] at hout
  cases hout with
  | checked => exact ⟨fun _ _ => rfl, fun _ _ => rfl, fun _ => rfl, fun _ => rfl⟩
  | ended hacc =>
    obtain ⟨_, _, hdisjoint⟩ := Buffers.badRange_eq_false hacc.range
    refine ⟨hacc.frame, fun a ha => hacc.frame a (hdisjoint a ha), hacc.mem_eq, fun hearly => ?_⟩
    have hlate : t.errCode ∈ [.none, .valueOutOfBounds, .destinationTooSmall, .busError] := by
      rcases hacc.code with hnone | hcode
      · simp [hnone]
      · exact List.mem_cons_of_mem _ (mem_accessErrors.mp hcode).2
    rcases hearly with he | he | he <;> simp [he] at hlate

theorem Span.wraps_iff (r : Span) : r.wraps = true ↔ 0 < r.size ∧ memSize < r.start + r.size := by
  simp [Span.wraps]

/-- Settles O29: the range check is the two tests for a range past 2^64 and the test for a shared byte. -/
theorem rangeCheck : Obligations.RangeCheck := by
  refine ⟨fun b => ?_, fun r a hr => ?_⟩
  · rw [Buffers.badRange, Bool.or_eq_true, Bool.or_eq_true, Span.wraps_iff, Span.wraps_iff, Span.overlaps_iff, or_assoc]
    rfl
  · rw [Span.has_eq_false_iff]
    omega

end Sys2Proof.Machine
end

section
/-! SUPPORT. The host's accesses to memory (20_memory R71, R72): what a write lands and what a read returns, in RUN and in IDLE. -/

namespace Sys2Proof.Machine

/-! ## A host write of memory -/

/-- A byte that was just written reads back, where its address exists (20_memory R60). -/
theorem Memory.read_writeBytes_inside :
    ∀ {bs : List Byte} {a : Nat} {m : Memory}, m.wf → a + bs.length ≤ memSize →
      ∀ {k : Nat} {b : Byte}, bs[k]? = some b → (Memory.writeBytes a bs m).read (a + k) = b
  | [], _, _, _, _, _, _, hb => by simp at hb
  | c :: bs, a, m, hm, hle, k, b, hb => by
    rw [List.length_cons] at hle
    cases k with
    | zero =>
      obtain rfl : c = b := by simpa using hb
      rw [Memory.writeBytes, Memory.read_writeBytes_outside _ _ _ (by omega)]
      exact Memory.read_write_same c hm (by omega)
    | succ k =>
      have ih := read_writeBytes_inside (bs := bs) (a := a + 1) (Memory.write_wf a c hm) (by omega) (k := k) (by simpa using hb)
      rwa [show a + 1 + k = a + (k + 1) by omega] at ih

/-- A write of bytes that exist, by which no command is disturbed, changes memory alone (70_reset_and_hazards R309; log 11, log 17). -/
theorem hostMemWrite_undisturbing {s : State} {addr : Word} {bytes : List Byte} (hle : addr.toNat + bytes.length ≤ memSize)
    (h : s.busy = false ∨ Span.overlaps ⟨addr.toNat, bytes.length⟩ (runningBuffers s).src = false ∧
      Span.overlaps ⟨addr.toNat, bytes.length⟩ (runningBuffers s).dst = false) :
    hostMemWrite s addr bytes = .next { s with mem := Memory.writeBytes addr.toNat bytes s.mem } := by
  rw [hostMemWrite, if_neg (Nat.not_lt.mpr hle)]
  rcases h with hidle | ⟨hsrc, hdst⟩
  · simp [hidle]
  · simp [hsrc, hdst]

/-- A byte of the list stands inside its range. -/
theorem Span.has_of_getElem? {bytes : List Byte} {k : Nat} {b : Byte} (h : bytes[k]? = some b) (a : Nat) :
    Span.has ⟨a, bytes.length⟩ (a + k) = true := by
  have hk := (List.getElem?_eq_some_iff.mp h).1
  rw [Span.has_iff]
  dsimp only
  omega

/-! ## A host read of memory -/

/-- A read of a byte that no running command may write returns it (20_memory R72). -/
theorem hostMemRead_of_not_held {s : State} {addr : Word}
    (h : s.busy = false ∨ (runningBuffers s).dst.has addr.toNat = false) :
    hostMemRead s addr = { s with readData := (s.mem.read addr.toNat).setWidth 64 } := by
  have hcond : (s.busy && (runningBuffers s).dst.has addr.toNat) = false := by
    rcases h with h | h <;> simp [h]
  simp [hostMemRead, hcond]

/-- A read of a destination byte of a running command returns the byte as held, and uses a free value (20_memory R72; log 12). -/
theorem hostMemRead_of_held {s : State} {addr : Word} (hbusy : s.busy = true)
    (hdst : (runningBuffers s).dst.has addr.toNat = true) :
    hostMemRead s addr =
      { s with readData := (heldByte s addr.toNat).setWidth 64, freeCount := s.freeCount + 1 } := by
  simp [hostMemRead, hbusy, hdst, State.nextFree]

/-- The byte held while a command runs that only sets bits: any of the bits that it sets may be there already (43_compare R232). -/
theorem heldByte_of_onlySetsBits {s t : State} (hcalm : s.disturbed = false) (h : engineTurn s = .next t)
    (hbits : onlySetsBits s = true) (a : Nat) :
    heldByte s a = s.mem.read a ||| Config.freeByte s.freeCount a &&& t.mem.read a := by
  simp [heldByte, hcalm, h, hbits]

/-- The byte held while another command runs: as it is, or as the command leaves it (20_memory R72). -/
theorem heldByte_of_not_onlySetsBits {s t : State} (hcalm : s.disturbed = false) (h : engineTurn s = .next t)
    (hbits : onlySetsBits s = false) (a : Nat) : heldByte s a = s.mem.read a ∨ heldByte s a = t.mem.read a := by
  simp only [heldByte, hcalm, h, hbits, if_false, Bool.false_eq_true]
  split
  · exact .inl rfl
  · exact .inr rfl

/-- The address of a byte of a range that ends inside memory. -/
theorem toNat_add_ofNat {addr : Word} {k : Nat} (h : addr.toNat + k < memSize) :
    (addr + BitVec.ofNat 64 k).toNat = addr.toNat + k := by
  unfold memSize at h
  rw [BitVec.toNat_add, BitVec.toNat_ofNat]
  omega

/-- A completed read of one byte returns the byte (00_scope R10). -/
theorem memRead_one {map : List Region} {a : Nat} (h : memOk map a .read = true) (m : Memory) :
    memRead map m a 1 = some ((m.read a).setWidth 64) := by
  simp [memRead, h]

/-! ## The engine's turn -/

/-- The ranges of a command are a matter of the registers (20_memory R61). -/
theorem runningBuffers_with_mem (s : State) (m : Memory) : runningBuffers { s with mem := m } = runningBuffers s := by
  unfold runningBuffers
  dsimp only
  cases decodeCmd s.cmd with
  | error => rfl
  | ok i => cases i <;> rfl

/-- The engine's turn changes no byte outside the destination range of the running command (20_memory R68). -/
theorem engineTurn_frame {s t : State} (hbusy : s.busy = true) (h : engineTurn s = .next t) :
    agreeOutside (runningBuffers s).dst t.mem s.mem := by
  unfold engineTurn at h
  rw [if_pos hbusy] at h
  unfold runningBuffers
  split at h
  · exact (onlyDestinationWritten _ s t h).1
  · cases h
    exact fun _ _ => rfl

/-! ## The statements -/

/-- Settles O58: a byte outside the destination range is read as it is; a write outside both ranges leaves the mark as it was, and the
command's turn does not reach its bytes. -/
theorem hostOutsideRanges : Obligations.HostOutsideRanges := by
  refine ⟨fun s addr _ hdst => congrArg _ (hostMemRead_of_not_held (.inr hdst)),
    fun s addr bytes hwf hbusy hle hsrc hdst => ?_⟩
  have hback : ∀ k b, bytes[k]? = some b → (Memory.writeBytes addr.toNat bytes s.mem).read (addr.toNat + k) = b :=
    fun _ _ => Memory.read_writeBytes_inside hwf hle
  refine ⟨_, hostMemWrite_undisturbing hle (.inr ⟨hsrc, hdst⟩), rfl, hback, fun e he k b hb => ?_⟩
  rw [← hback k b hb]
  refine engineTurn_frame (s := { s with mem := Memory.writeBytes addr.toNat bytes s.mem }) hbusy he _ ?_
  rw [runningBuffers_with_mem, ← Bool.not_eq_true]
  intro hin
  have hshared := (Span.overlaps_iff _ _).mpr ⟨_, Span.has_of_getElem? hb _, hin⟩
  simp [hdst] at hshared

/-- Settles O59: the read returns the byte as held, and a held byte is the old one or the final one, for CMP the old one with some of
the bits of the final one. -/
theorem hostReadsHeldByte : Obligations.HostReadsHeldByte := by
  intro s t addr hbusy hcalm h hdst
  refine ⟨heldByte s addr.toNat, congrArg _ (hostMemRead_of_held hbusy hdst),
    fun hbits => heldByte_of_not_onlySetsBits hcalm h hbits _, fun hbits k => ?_⟩
  rw [heldByte_of_onlySetsBits hcalm h hbits, BitVec.getLsbD_or, BitVec.getLsbD_and]
  constructor
  · intro hold
    rw [hold, Bool.true_or]
  · intro hheld
    exact (Bool.or_eq_true_iff.mp hheld).imp_right fun hset => (Bool.and_eq_true_iff.mp hset).2

/-- Settles O60: the write lands in the memory alone, and acceptance of the next command, its turn and its reads start from
that memory. -/
theorem hostMemoryWhenIdle : Obligations.HostMemoryWhenIdle := by
  refine ⟨fun s addr hidle => congrArg _ (hostMemRead_of_not_held (.inl hidle)), fun s addr bytes hlt => if_pos hlt,
    fun s addr bytes hwf hidle hle => ?_⟩
  generalize ht : { s with mem := Memory.writeBytes addr.toNat bytes s.mem } = t
  have hidle' : t.busy = false := by rw [← ht]; exact hidle
  have hback : ∀ k b, bytes[k]? = some b → t.mem.read (addr.toNat + k) = b := by
    rw [← ht]
    exact fun _ _ => Memory.read_writeBytes_inside hwf hle
  refine ⟨t, ?_, rfl, fun a ha => ?_, fun k b hb => ?_, fun i hi => ⟨_, hostRegWrite_cmd_idle hidle' _,
    engineTurn_eq_exec rfl (decodeCmd_encode hi), rfl, fun k b hb hok => ?_⟩⟩
  · rw [← ht]
    exact hostMemWrite_undisturbing hle (.inl hidle)
  · rw [Span.has_eq_false_iff] at ha
    rw [← ht]
    exact Memory.read_writeBytes_outside _ _ _ ha
  · have hk := (List.getElem?_eq_some_iff.mp hb).1
    have haddr : (addr + BitVec.ofNat 64 k).toNat = addr.toNat + k := toNat_add_ofNat (by unfold memSize; omega)
    refine congrArg _ ((hostMemRead_of_not_held (.inl hidle')).trans ?_)
    rw [haddr, hback k b hb]
  · rw [memRead_one hok, State.accept_mem, hback k b hb]

end Sys2Proof.Machine
end

section
/-! SUPPORT. The command word field by field: where the fields stand, the rows of the opcode map, and what the decoder answers for each
word; with them the statements on command words. -/

namespace Sys2Proof

open Machine

/-! ## Fields -/

/-- The bits of the field `hi` down to `lo` (00_scope R9). -/
def fieldMask (hi lo : Nat) : Word :=
  (BitVec.allOnes (hi - lo + 1)).setWidth 64 <<< lo

/-- A field put back at its place is the word under the field's mask. -/
theorem ofNat_field_shiftLeft (hi lo : Nat) (v : Word) :
    BitVec.ofNat 64 (field hi lo v) <<< lo = v &&& fieldMask hi lo := by
  refine BitVec.eq_of_getLsbD_eq fun k hk => ?_
  rw [field, BitVec.ofNat_toNat, fieldMask, BitVec.getLsbD_and, BitVec.getLsbD_shiftLeft, BitVec.getLsbD_shiftLeft,
    BitVec.getLsbD_setWidth, BitVec.getLsbD_setWidth, BitVec.getLsbD_extractLsb, BitVec.getLsbD_allOnes]
  by_cases hlo : lo ≤ k
  · rw [Nat.add_sub_cancel' hlo]
    cases v.getLsbD k <;> simp
  · simp [show k < lo by omega]

/-- Words that agree under a mask agree on each field it covers. -/
theorem field_eq_of_and_eq {v w m : Word} (h : v &&& m = w &&& m) {hi lo : Nat}
    (hm : ∀ j < hi - lo + 1, m.getLsbD (lo + j) = true) : field hi lo v = field hi lo w := by
  refine congrArg BitVec.toNat (BitVec.eq_of_getLsbD_eq fun j hj => ?_)
  rw [BitVec.getLsbD_extractLsb, BitVec.getLsbD_extractLsb, getLsbD_eq_of_and_eq h (hm j hj)]

theorem fmtBits_fmtOf (v : Word) : fmtBits (fmtOf v) = field 9 9 v := by
  have hbit : field 9 9 v = (v.getLsbD 9).toNat := by
    rw [field_eq, ← BitVec.testBit_toNat, Nat.toNat_testBit]
    rfl
  rw [hbit, fmtOf]
  cases v.getLsbD 9 <;> rfl

theorem ewBits_ewOf (v : Word) : ewBits (ewOf v) = field 8 7 v := by
  have hlt : field 8 7 v < 4 := (v.extractLsb 8 7).isLt
  unfold ewOf
  generalize field 8 7 v = n at hlt
  interval_cases n <;> rfl

theorem predBits_le (p : Pred) : predBits p ≤ 6 := by
  cases p <;> decide

/-- The PRED field is a predicate's number, or 7 (30_encoding R103). -/
theorem predOf_cases (v : Word) :
    (∃ p, predOf v = some p ∧ field 6 4 v = predBits p) ∨ predOf v = none ∧ field 6 4 v = 7 := by
  have hlt : field 6 4 v < 8 := (v.extractLsb 6 4).isLt
  unfold predOf
  generalize field 6 4 v = n at hlt
  rcases Nat.lt_succ_iff_lt_or_eq.mp hlt with hlt | rfl
  · interval_cases n <;> exact .inl ⟨_, rfl, rfl⟩
  · exact .inr ⟨rfl, rfl⟩

/-! ## Rows of the opcode map -/

/-- A word lies in a row of the opcode map (30_encoding R113). -/
abbrev OpcodeRow.Holds (r : OpcodeRow) (v : Word) : Prop :=
  v &&& r.mask = r.pattern

/-- A row that fixes OP alone (30_encoding R113). -/
def opRow (op : Nat) (instr : Word → Instr) : OpcodeRow :=
  ⟨BitVec.ofNat 64 op, 0xFFFFFFFFFFFFC00F#64, instr⟩

/-- A row that fixes OP and PRED (30_encoding R113). -/
def predRow (op : Nat) (instr : Pred → Format → Instr) (p : Pred) : OpcodeRow :=
  ⟨BitVec.ofNat 64 (op + 16 * predBits p), 0xFFFFFFFFFFFFC07F#64, fun v => instr p (fmtOf v)⟩

/-- The rows of the opcode map, the seven predicates at once (30_encoding R113). -/
inductive MapRow : OpcodeRow → Prop where
  | encode : MapRow (opRow 1 fun v => .encode (ewOf v) (fmtOf v))
  | decode : MapRow (opRow 2 fun v => .decode (ewOf v) (fmtOf v))
  | count : MapRow (opRow 3 fun v => .count (fmtOf v))
  | cmp (p : Pred) : MapRow (predRow 4 cmpInstr p)
  | packw : MapRow (opRow 5 fun v => .packw (ewOf v) (fmtOf v) (field 13 10 v))
  | cmpw (p : Pred) : MapRow (predRow 6 cmpwInstr p)

/-- The predicates in the order of their numbers (30_encoding R103). -/
def allPreds : List Pred :=
  [.eq, .ne, .lt, .le, .gt, .ge, .bw]

theorem mem_allPreds (p : Pred) : p ∈ allPreds := by
  cases p <;> decide

theorem opcodeMap_eq : opcodeMap =
    [opRow 1 fun v => .encode (ewOf v) (fmtOf v), opRow 2 fun v => .decode (ewOf v) (fmtOf v),
      opRow 3 fun v => .count (fmtOf v)] ++ allPreds.map (predRow 4 cmpInstr) ++
      [opRow 5 fun v => .packw (ewOf v) (fmtOf v) (field 13 10 v)] ++
      allPreds.map (predRow 6 cmpwInstr) := rfl

theorem mem_opcodeMap_iff {r : OpcodeRow} : r ∈ opcodeMap ↔ MapRow r := by
  rw [opcodeMap_eq]
  simp only [List.mem_append, List.mem_cons, List.not_mem_nil, or_false, List.mem_map, mem_allPreds, true_and]
  constructor
  · rintro ((((rfl | rfl | rfl) | ⟨p, rfl⟩) | rfl) | ⟨p, rfl⟩)
    exacts [.encode, .decode, .count, .cmp p, .packw, .cmpw p]
  · rintro (_ | _ | _ | p | _ | p)
    case cmp => exact .inl (.inl (.inr ⟨p, rfl⟩))
    case cmpw => exact .inr ⟨p, rfl⟩
    all_goals simp

/-- A word of a row has the row's fields, those that the row fixes. -/
theorem OpcodeRow.Holds.field_eq_pattern {r : OpcodeRow} {v : Word} (h : r.Holds v) {hi lo : Nat}
    (hm : ∀ j < hi - lo + 1, r.mask.getLsbD (lo + j) = true) : field hi lo v = field hi lo r.pattern :=
  field_eq_of_and_eq (by rw [← h, BitVec.and_assoc, BitVec.and_self]) hm

theorem opRow_holds_iff {op : Nat} (hop : op < 16) {instr : Word → Instr} {v : Word} :
    (opRow op instr).Holds v ↔ field 63 14 v = 0 ∧ field 3 0 v = op := by
  constructor
  · intro h
    have hres := h.field_eq_pattern (hi := 63) (lo := 14) (by dsimp only [opRow]; decide)
    have hfield := h.field_eq_pattern (hi := 3) (lo := 0) (by dsimp only [opRow]; decide)
    rw [field_eq _ _ (opRow op instr).pattern, opRow, BitVec.toNat_ofNat] at hres hfield
    omega
  · rintro ⟨hres, rfl⟩
    have hmask : (opRow (field 3 0 v) instr).mask = fieldMask 63 14 ||| fieldMask 3 0 := by dsimp only [opRow]; decide
    rw [OpcodeRow.Holds, hmask, BitVec.and_or_distrib_left, ← ofNat_field_shiftLeft, ← ofNat_field_shiftLeft, hres]
    simp [opRow]

theorem predRow_holds_iff {op : Nat} (hop : op = 4 ∨ op = 6) {instr : Pred → Format → Instr} {p : Pred} {v : Word} :
    (predRow op instr p).Holds v ↔ field 63 14 v = 0 ∧ field 3 0 v = op ∧ field 6 4 v = predBits p := by
  constructor
  · intro h
    have hres := h.field_eq_pattern (hi := 63) (lo := 14) (by dsimp only [predRow]; decide)
    have hfield := h.field_eq_pattern (hi := 3) (lo := 0) (by dsimp only [predRow]; decide)
    have hpred := h.field_eq_pattern (hi := 6) (lo := 4) (by dsimp only [predRow]; decide)
    rw [field_eq _ _ (predRow op instr p).pattern, predRow, BitVec.toNat_ofNat] at hres hfield hpred
    have hle := predBits_le p
    omega
  · rintro ⟨hres, hfield, hpred⟩
    have hmask : (predRow op instr p).mask = fieldMask 63 14 ||| fieldMask 3 0 ||| fieldMask 6 4 := by
      dsimp only [predRow]; decide
    rw [OpcodeRow.Holds, hmask, BitVec.and_or_distrib_left, BitVec.and_or_distrib_left, ← ofNat_field_shiftLeft,
      ← ofNat_field_shiftLeft, ← ofNat_field_shiftLeft, hres, hfield, hpred]
    rcases hop with rfl | rfl <;> cases p <;> rfl

/-! ## What the decoder answers -/

/-- The decoder's answer for a word: the command of a row in which the word lies, or a rejection of an illegal word
(30_encoding R108, R109, R113). -/
inductive Decoded (v : Word) : Except Reject Instr → Prop where
  | legal {r : OpcodeRow} (row : r ∈ opcodeMap) (holds : r.Holds v) : Decoded v (.ok (r.instr v))
  | illegal (e : Reject) (word : illegalWord v) : Decoded v (.error e)

theorem decoded_opRow {op : Nat} (hop : op < 16) {instr : Word → Instr} (hrow : MapRow (opRow op instr)) {v : Word}
    (hres : field 63 14 v = 0) (hfield : field 3 0 v = op) : Decoded v (.ok (instr v)) :=
  .legal (mem_opcodeMap_iff.mpr hrow) ((opRow_holds_iff hop).mpr ⟨hres, hfield⟩)

theorem decoded_predRow {op : Nat} (hop : op = 4 ∨ op = 6) {instr : Pred → Format → Instr} {p : Pred}
    (hrow : MapRow (predRow op instr p)) {v : Word} (hres : field 63 14 v = 0) (hfield : field 3 0 v = op)
    (hpred : field 6 4 v = predBits p) : Decoded v (.ok (instr p (fmtOf v))) :=
  .legal (mem_opcodeMap_iff.mpr hrow) ((predRow_holds_iff hop).mpr ⟨hres, hfield, hpred⟩)

/-- The decoder accepts the words of the opcode map's rows, and rejects illegal words alone (30_encoding R108). -/
theorem decodeCmd_decoded (v : Word) : Decoded v (decodeCmd v) := by
  unfold decodeCmd
  split
  · next hres => exact .illegal _ (.inl hres)
  · next hres =>
    rw [not_not] at hres
    split
    · next hop => exact decoded_opRow (by decide) .encode hres hop
    · next hop => exact decoded_opRow (by decide) .decode hres hop
    · next hop => exact decoded_opRow (by decide) .count hres hop
    · next hop =>
      rcases predOf_cases v with ⟨p, hp, hpred⟩ | ⟨hp, hpred⟩ <;> rw [hp]
      · exact decoded_predRow (by decide) (.cmp p) hres hop hpred
      · exact .illegal _ (.inr (.inr (.inr ⟨.inl hop, hpred⟩)))
    · next hop => exact decoded_opRow (by decide) .packw hres hop
    · next hop =>
      rcases predOf_cases v with ⟨p, hp, hpred⟩ | ⟨hp, hpred⟩ <;> rw [hp]
      · exact decoded_predRow (by decide) (.cmpw p) hres hop hpred
      · exact .illegal _ (.inr (.inr (.inr ⟨.inr hop, hpred⟩)))
    · simp only [imp_false] at *
      have hop : field 3 0 v = 0 ∨ 7 ≤ field 3 0 v := by omega
      exact .illegal _ (.inr (hop.imp_right .inl))

/-- No illegal word lies in a row (30_encoding R109, R113). -/
theorem not_illegalWord_of_holds {r : OpcodeRow} (hr : r ∈ opcodeMap) {v : Word} (h : r.Holds v) : ¬illegalWord v := by
  unfold illegalWord
  cases mem_opcodeMap_iff.mp hr
  case cmp p | cmpw p =>
    obtain ⟨hres, hop, hpred⟩ := (predRow_holds_iff (by decide)).mp h
    have hle := predBits_le p
    omega
  all_goals
    obtain ⟨hres, hop⟩ := (opRow_holds_iff (by decide)).mp h
    omega

/-- No word lies in both rows. -/
abbrev OpcodeRow.Disjoint (r q : OpcodeRow) : Prop :=
  ∀ v : Word, ¬(r.Holds v ∧ q.Holds v)

/-- Two rows of the map differ in a bit that both fix (30_encoding R113). -/
theorem opcodeMap_pairwise_disjoint : opcodeMap.Pairwise OpcodeRow.Disjoint := by
  have hdiffer : opcodeMap.Pairwise (fun r q => r.pattern &&& q.mask ≠ q.pattern &&& r.mask) := by decide
  refine hdiffer.imp fun {r q} hne v ⟨hr, hq⟩ => hne ?_
  rw [← hr, ← hq, BitVec.and_assoc, BitVec.and_assoc, BitVec.and_comm r.mask]

/-- A word lies in one row at most (30_encoding R113). -/
theorem row_unique {r q : OpcodeRow} (hr : r ∈ opcodeMap) (hq : q ∈ opcodeMap) {v : Word} (hrv : r.Holds v)
    (hqv : q.Holds v) : r = q := by
  by_contra hne
  have : Std.Symm OpcodeRow.Disjoint := ⟨fun _ _ h v hv => h v hv.symm⟩
  exact opcodeMap_pairwise_disjoint.forall hr hq hne v ⟨hrv, hqv⟩

/-- A word of a row decodes to the row's command (30_encoding R113). -/
theorem decodeCmd_of_holds {r : OpcodeRow} (hr : r ∈ opcodeMap) {v : Word} (h : r.Holds v) :
    decodeCmd v = .ok (r.instr v) := by
  generalize hdec : decodeCmd v = o
  cases hdec ▸ decodeCmd_decoded v with
  | legal hq hqv => rw [row_unique hr hq h hqv]
  | illegal e hv => exact absurd hv (not_illegalWord_of_holds hr h)

/-- A word that decodes lies in a row, and decodes to its command (30_encoding R113). -/
theorem exists_row_of_decodeCmd_ok {v : Word} {i : Instr} (h : decodeCmd v = .ok i) :
    ∃ r ∈ opcodeMap, r.Holds v ∧ i = r.instr v := by
  have hdec := decodeCmd_decoded v
  rw [h] at hdec
  cases hdec with
  | legal hr hv => exact ⟨_, hr, hv, rfl⟩

/-- A word that is rejected is illegal (30_encoding R109). -/
theorem illegalWord_of_decodeCmd_error {v : Word} {e : Reject} (h : decodeCmd v = .error e) : illegalWord v := by
  have hdec := decodeCmd_decoded v
  rw [h] at hdec
  cases hdec with
  | illegal _ hv => exact hv

/-- Settles O3: a word that is not rejected lies in a row, so it is not illegal. -/
theorem illegalWordsExactly : Obligations.IllegalWordsExactly := by
  intro v
  refine ⟨fun ⟨e, he⟩ => illegalWord_of_decodeCmd_error he, fun hv => ?_⟩
  cases hdec : decodeCmd v with
  | error e => exact ⟨e, rfl⟩
  | ok i =>
    obtain ⟨r, hr, hrv, _⟩ := exists_row_of_decodeCmd_ok hdec
    exact absurd hv (not_illegalWord_of_holds hr hrv)

/-- Settles O4: the rows do not overlap, so the row in which a word decodes is the one given. -/
theorem opcodeMapDecodes : Obligations.OpcodeMapDecodes := by
  refine ⟨fun r hr v hv => decodeCmd_of_holds hr hv, opcodeMap_pairwise_disjoint, fun v hnone => ?_⟩
  cases hdec : decodeCmd v with
  | error e => exact ⟨e, rfl⟩
  | ok i =>
    obtain ⟨r, hr, hrv, _⟩ := exists_row_of_decodeCmd_ok hdec
    exact absurd hrv (hnone r hr)

/-! ## What the encoder writes -/

/-- A command whose word is its row's bits and the fields of `v` that it uses beside them, has the used bits of `v` as its word
(30_encoding R107). -/
theorem encode_eq_usedBits {r : OpcodeRow} {v : Word} (h : r.Holds v) {i : Instr} {fields : Word}
    (hused : usedBits i = r.mask ||| fields) (hword : encode i = r.pattern ||| v &&& fields) :
    encode i = v &&& usedBits i := by
  rw [hword, hused, BitVec.and_or_distrib_left, h]

/-- FMT, put at its place, is bit 9 of the word (30_encoding R101). -/
theorem fmtBits_shiftLeft (v : Word) : BitVec.ofNat 64 (fmtBits (fmtOf v)) <<< 9 = v &&& fieldMask 9 9 := by
  rw [fmtBits_fmtOf, ofNat_field_shiftLeft]

/-- EW, put at its place, is bits 8:7 of the word (30_encoding R104). -/
theorem ewBits_shiftLeft (v : Word) : BitVec.ofNat 64 (ewBits (ewOf v)) <<< 7 = v &&& fieldMask 8 7 := by
  rw [ewBits_ewOf, ofNat_field_shiftLeft]

/-- The word of a command that uses FMT alone (30_encoding R107). -/
theorem assemble_fmt (op : Nat) (v : Word) :
    assemble op 0 0 (fmtBits (fmtOf v)) 0 = BitVec.ofNat 64 op ||| v &&& fieldMask 9 9 := by
  simp [assemble, fmtBits_shiftLeft]

/-- The word of a command that uses EW and FMT (30_encoding R107). -/
theorem assemble_ew_fmt (op : Nat) (v : Word) :
    assemble op 0 (ewBits (ewOf v)) (fmtBits (fmtOf v)) 0 =
      BitVec.ofNat 64 op ||| v &&& (fieldMask 8 7 ||| fieldMask 9 9) := by
  simp [assemble, fmtBits_shiftLeft, ewBits_shiftLeft, BitVec.and_or_distrib_left, BitVec.or_assoc]

/-- The word of a command that uses EW, FMT and SEL (30_encoding R107). -/
theorem assemble_ew_fmt_sel (op : Nat) (v : Word) :
    assemble op 0 (ewBits (ewOf v)) (fmtBits (fmtOf v)) (field 13 10 v) =
      BitVec.ofNat 64 op ||| v &&& (fieldMask 8 7 ||| fieldMask 9 9 ||| fieldMask 13 10) := by
  simp [assemble, fmtBits_shiftLeft, ewBits_shiftLeft, ofNat_field_shiftLeft, BitVec.and_or_distrib_left, BitVec.or_assoc]

/-- The seven CMP use what their rows fix, and FMT (30_encoding R107). -/
theorem usedBits_cmpInstr (p : Pred) (fmt : Format) :
    usedBits (cmpInstr p fmt) = (predRow 4 cmpInstr p).mask ||| fieldMask 9 9 := by
  cases p <;> rfl

/-- The seven CMPW use what their rows fix, and FMT (30_encoding R107). -/
theorem usedBits_cmpwInstr (p : Pred) (fmt : Format) :
    usedBits (cmpwInstr p fmt) = (predRow 6 cmpwInstr p).mask ||| fieldMask 9 9 := by
  cases p <;> rfl

/-- A CMP's word is its row's bits and FMT (30_encoding R111). -/
theorem encode_cmpInstr (p : Pred) (v : Word) :
    encode (cmpInstr p (fmtOf v)) = (predRow 4 cmpInstr p).pattern ||| v &&& fieldMask 9 9 := by
  rw [← fmtBits_shiftLeft]
  cases p <;> cases fmtOf v <;> rfl

/-- A CMPW's word is its row's bits and FMT (30_encoding R111). -/
theorem encode_cmpwInstr (p : Pred) (v : Word) :
    encode (cmpwInstr p (fmtOf v)) = (predRow 6 cmpwInstr p).pattern ||| v &&& fieldMask 9 9 := by
  rw [← fmtBits_shiftLeft]
  cases p <;> cases fmtOf v <;> rfl

/-- The command of a row has the used bits of the word as its word (30_encoding R107, R111). -/
theorem encode_instr_of_holds {r : OpcodeRow} (hr : r ∈ opcodeMap) {v : Word} (h : r.Holds v) :
    encode (r.instr v) = v &&& usedBits (r.instr v) := by
  cases mem_opcodeMap_iff.mp hr with
  | encode => exact encode_eq_usedBits h rfl (assemble_ew_fmt 1 v)
  | decode => exact encode_eq_usedBits h rfl (assemble_ew_fmt 2 v)
  | count => exact encode_eq_usedBits h rfl (assemble_fmt 3 v)
  | cmp p => exact encode_eq_usedBits h (usedBits_cmpInstr p (fmtOf v)) (encode_cmpInstr p v)
  | packw => exact encode_eq_usedBits h rfl (assemble_ew_fmt_sel 5 v)
  | cmpw p => exact encode_eq_usedBits h (usedBits_cmpwInstr p (fmtOf v)) (encode_cmpwInstr p v)

/-- A row's command is well-formed: a selector taken from the word fits its field (30_encoding R105). -/
theorem wellFormed_instr {r : OpcodeRow} (hr : r ∈ opcodeMap) (v : Word) : (r.instr v).wellFormed = true := by
  cases mem_opcodeMap_iff.mp hr
  case packw => exact decide_eq_true (v.extractLsb 13 10).isLt
  case cmp p | cmpw p => cases p <;> rfl
  all_goals rfl

/-- Settles O2: the word lies in a row, and its command is the row's. -/
theorem encodeDecodeClearsIgnored : Obligations.EncodeDecodeClearsIgnored := by
  intro v i h
  obtain ⟨r, hr, hrv, rfl⟩ := exists_row_of_decodeCmd_ok h
  exact ⟨wellFormed_instr hr v, encode_instr_of_holds hr hrv⟩

/-! ## Round trips -/

/-- A table word of 64 bits is read as the decoder reads it. -/
theorem decodeTableWord_toNat {v : Word} {i : Instr} (h : decodeCmd v = .ok i) : decodeTableWord 64 v.toNat = some i := by
  unfold decodeTableWord
  rw [Nat.mod_eq_of_lt v.isLt, if_pos v.isLt, BitVec.ofNat_toNat, BitVec.setWidth_eq, h]

/-- Settles O1: the decoder reads back what the encoder writes, and so does the table reader. -/
theorem decodeEncodeRoundTrip : Obligations.DecodeEncodeRoundTrip :=
  fun _ hwf => ⟨decodeCmd_encode hwf, decodeTableWord_toNat (decodeCmd_encode hwf)⟩

/-- Settles O5: each is the encoder's word of its command. -/
theorem writtenWordsDecode : Obligations.WrittenWordsDecode :=
  ⟨decodeCmd_encode (i := .encode .e16 .current) rfl, decodeCmd_encode (i := .cmpGt .current) rfl,
    decodeCmd_encode (i := .packw .e64 .current 5) rfl, decodeCmd_encode (i := .decode .e8 .legacy) rfl,
    decodeCmd_encode (i := .count .legacy) rfl, decodeCmd_encode (i := .cmpwBw .legacy) rfl⟩

end Sys2Proof
end

section
/-! SUPPORT. The selector table searched, the payload of a packed word bit by bit, and unpacking as the inverse of packing; with
them the statements on `selForBits`, on unused payload bits and on the stream that ENCODE makes. -/

namespace Sys2Proof.Machine

/-! ## Searches of the selector table -/

/-- A search of the packed selectors answers the smallest one that passes, when one passes. -/
theorem packedSelectors_find_isLeast {p : Nat → Bool} {t : Nat} (h2 : 2 ≤ t) (h15 : t ≤ 15) (ht : p t = true) :
    IsLeast {s | 2 ≤ s ∧ s ≤ 15 ∧ p s = true} ((packedSelectors.find? p).getD 15) := by
  cases hfind : packedSelectors.find? p with
  | none =>
    have hmem : t ∈ packedSelectors := List.mem_range'_1.mpr ⟨h2, by omega⟩
    exact absurd ht (List.find?_eq_none.mp hfind t hmem)
  | some s =>
    obtain ⟨hs, hmem, hmin⟩ := List.find?_range'_eq_some.mp hfind
    obtain ⟨hs2, hs16⟩ := List.mem_range'_1.mp hmem
    refine ⟨⟨hs2, Nat.le_of_lt_succ hs16, hs⟩, fun r ⟨hr2, _, hr⟩ => Nat.le_of_not_lt fun hlt => ?_⟩
    simpa [hr] using hmin r hr2 hlt

/-- Settles O35: selector 15 holds 60 bits, so the search finds one. -/
theorem selForBitsIsSmallest : Obligations.SelForBitsIsSmallest := by
  intro w hw
  obtain ⟨⟨h2, h15, hfit⟩, hmin⟩ :=
    packedSelectors_find_isLeast (p := fun s => decide (w ≤ bw s)) (t := 15) (by decide) (by decide) (decide_eq_true hw)
  exact ⟨h2, h15, of_decide_eq_true hfit, fun s hs2 hs15 hs => hmin ⟨hs2, hs15, decide_eq_true hs⟩⟩

/-! ## Packed payloads -/

/-- A value of at most `n` bits has none from bit `n` on. -/
theorem getLsbD_eq_false_of_lt {u : Word} {n j : Nat} (hu : u.toNat < 2 ^ n) (hj : n ≤ j) : u.getLsbD j = false := by
  rw [← BitVec.testBit_toNat]
  exact Nat.testBit_lt_two_pow (Nat.lt_of_lt_of_le hu (Nat.pow_le_pow_right (by decide) hj))

/-- Bit `j` of slot `i` of a packed payload is bit `j` of value `i`; past the values there is 0 (30_encoding R82). -/
theorem packSlots_getLsbD {b j : Nat} (hj : j < b) :
    ∀ {us : List Word} {i : Nat}, (∀ u ∈ us, u.toNat < 2 ^ b) → i * b + j < 64 →
      (packSlots b us).getLsbD (i * b + j) = (us.getD i 0).getLsbD j := by
  intro us
  induction us with
  | nil => intro i _ _; simp [packSlots]
  | cons u us ih =>
    intro i hus hlt
    obtain ⟨hu, hus⟩ := List.forall_mem_cons.mp hus
    rw [packSlots, BitVec.getLsbD_or, BitVec.getLsbD_shiftLeft]
    cases i with
    | zero => simp [hj]
    | succ i =>
      rw [Nat.add_one_mul] at hlt ⊢
      have hrest : i * b + b + j - b = i * b + j := by omega
      rw [getLsbD_eq_false_of_lt hu (by omega), hrest, ih hus (by omega)]
      simp [hlt, show ¬i * b + b + j < b by omega]

/-- The slots of a packed payload lie within its low bits (30_encoding R82). -/
theorem packSlots_lt {b n : Nat} {us : List Word} (hb : 0 < b) (hus : ∀ u ∈ us, u.toNat < 2 ^ b)
    (hlen : us.length * b ≤ n) : (packSlots b us).toNat < 2 ^ n := by
  refine Nat.lt_pow_two_of_testBit _ fun k hk => ?_
  rw [BitVec.testBit_toNat]
  by_cases hk64 : k < 64
  · have hsplit : k / b * b + k % b = k := Nat.div_add_mod' k b
    have hpast : us.length ≤ k / b := (Nat.le_div_iff_mul_le hb).mpr (by omega)
    rw [← hsplit, packSlots_getLsbD (Nat.mod_lt k hb) hus (by omega), List.getD_eq_getElem?_getD,
      List.getElem?_eq_none hpast]
    simp
  · exact BitVec.getLsbD_of_ge _ _ (by omega)

/-- A word made of a selector and a payload has that selector (30_encoding R80). -/
theorem selOf_selector_or {s : Nat} (hs : s < 16) {p : Word} (hp : p.toNat < 2 ^ 60) :
    selOf (BitVec.ofNat 64 s <<< 60 ||| p) = s := by
  unfold selOf
  rw [BitVec.toNat_ushiftRight, BitVec.toNat_or, BitVec.toNat_shiftLeft, BitVec.toNat_ofNat, Nat.shiftRight_or_distrib,
    Nat.shiftRight_eq_div_pow p.toNat, Nat.div_eq_of_lt hp, Nat.or_zero, Nat.shiftLeft_eq, Nat.shiftRight_eq_div_pow]
  omega

/-- The bits below the selector are the payload's (30_encoding R80). -/
theorem selector_or_getLsbD (s : Nat) (p : Word) {k : Nat} (hk : k < 60) :
    (BitVec.ofNat 64 s <<< 60 ||| p).getLsbD k = p.getLsbD k := by
  simp [BitVec.getLsbD_shiftLeft, hk]

/-- Values that fill a packed word are as many as its selector says, and fit its slots (40_kernels R133). -/
theorem fits_iff {s : Nat} {us : List Word} :
    fits s us = true ↔ us.length = ncap .current s ∧ ∀ u ∈ us, u.toNat < 2 ^ bw s := by
  simp [fits]

section
variable {s : Nat} {us : List Word} (h2 : 2 ≤ s) (h16 : s < 16) (hfits : fits s us = true)
include h2 h16 hfits

theorem selOf_packWord : selOf (packWord s us) = s := by
  obtain ⟨hlen, hus⟩ := fits_iff.mp hfits
  obtain ⟨hpos, _, hpayload⟩ := bw_bounds h2 h16
  exact selOf_selector_or h16 (packSlots_lt hpos hus (hlen ▸ hpayload))

/-- Slot `i` of a packed word is value `i` (40_kernels R122). -/
theorem slot_packWord {i : Nat} (hi : i < us.length) : slot (packWord s us) (bw s) i = us[i] := by
  obtain ⟨hlen, hus⟩ := fits_iff.mp hfits
  obtain ⟨_, hbw, hpayload⟩ := bw_bounds h2 h16
  have hslots : (i + 1) * bw s ≤ 60 := Nat.le_trans (Nat.mul_le_mul_right _ (hlen ▸ hi)) hpayload
  rw [Nat.add_one_mul] at hslots
  refine BitVec.eq_of_getLsbD_eq fun j _ => ?_
  rw [slot_getLsbD _ _ _ (by omega)]
  by_cases hj : j < bw s
  · rw [packWord, selector_or_getLsbD _ _ (by omega), packSlots_getLsbD hj hus (by omega)]
    simp [hj, hi]
  · rw [getLsbD_eq_false_of_lt (hus _ (List.getElem_mem hi)) (by omega)]
    simp [hj]

end

/-! ## Unpacking -/

/-- A run word repeats its run value (40_kernels R124). -/
theorem unpackWord_of_isRun {w : Word} (hrun : isRun (selOf w) = true) (fmt : Format) :
    unpackWord fmt w = List.replicate (ncap fmt (selOf w)) (runVal fmt (selOf w)) :=
  if_pos hrun

/-- A packed word holds its slots (40_kernels R124). -/
theorem unpackWord_of_packed {w : Word} (h2 : 2 ≤ selOf w) (fmt : Format) :
    unpackWord fmt w = (List.range (ncap fmt (selOf w))).map fun i => slot w (bw (selOf w)) i := by
  rw [unpackWord, (isRun_eq_false_iff _).mpr h2]
  rfl

/-- Unpacking a packed word gives back the values, in either format (40_kernels R122, R124). -/
theorem unpackWord_packWord {s : Nat} {us : List Word} (h2 : 2 ≤ s) (h16 : s < 16) (hfits : fits s us = true)
    (fmt : Format) : unpackWord fmt (packWord s us) = us := by
  have hsel : selOf (packWord s us) = s := selOf_packWord h2 h16 hfits
  have hlen : us.length = ncap fmt s := (fits_iff.mp hfits).1.trans (ncap_packed fmt h2).symm
  rw [unpackWord_of_packed (by omega), hsel]
  refine List.ext_getElem (by simp [hlen]) fun i _ hi => ?_
  rw [List.getElem_map, List.getElem_range, slot_packWord h2 h16 hfits hi]

/-- Unpacking a run word of the current format gives its value 128 times (40_kernels R123, R124). -/
theorem unpackWord_packRun {s : Nat} (h : s ≤ 1) :
    unpackWord .current (packRun s) = List.replicate 128 (BitVec.ofNat 64 s) := by
  have hsel : selOf (packRun s) = s := by
    simpa [packRun] using selOf_selector_or (s := s) (p := 0) (by omega) (by decide)
  rw [unpackWord_of_isRun (by rw [hsel, isRun_iff]; omega), hsel]
  interval_cases s <;> rfl

/-- The slots of a word are its payload's bits alone (30_encoding R82). -/
theorem slot_congr {w v : Word} {b n i : Nat} (hb : b ≤ 64) (hi : i < n)
    (hbits : ∀ j < n * b, w.getLsbD j = v.getLsbD j) : slot w b i = slot v b i := by
  have hslots : (i + 1) * b ≤ n * b := Nat.mul_le_mul_right b hi
  rw [Nat.add_one_mul] at hslots
  refine BitVec.eq_of_getLsbD_eq fun j _ => ?_
  rw [slot_getLsbD _ _ _ hb, slot_getLsbD _ _ _ hb]
  by_cases hj : j < b
  · rw [hbits _ (by omega)]
  · simp [hj]

/-- The kernel reads of a word its selector and its values (40_kernels R128, R129). -/
theorem cmpKernel_congr {fmt : Format} {w v : Word} (hsel : selOf w = selOf v) (hvals : unpackWord fmt w = unpackWord fmt v)
    (p : Pred) (a b : Word) : cmpKernel fmt p w a b = cmpKernel fmt p v a b := by
  unfold cmpKernel
  rw [hsel, hvals]

/-- Settles O38: a run word's values are its selector's, and a packed word's slots are the bits on which the words agree. -/
theorem unusedPayloadIgnored : Obligations.UnusedPayloadIgnored := by
  intro fmt w v hsel hpayload
  suffices hvals : unpackWord fmt w = unpackWord fmt v from ⟨hvals, cmpKernel_congr hsel hvals⟩
  by_cases hrun : isRun (selOf w) = true
  · rw [unpackWord_of_isRun hrun, unpackWord_of_isRun (hsel ▸ hrun), hsel]
  · have hbits := hpayload.resolve_left hrun
    have h2 : 2 ≤ selOf w := (isRun_eq_false_iff _).mp (Bool.eq_false_iff.mpr hrun)
    have hbw : bw (selOf w) ≤ 60 := (bw_bounds h2 (selOf_lt w)).2.1
    rw [unpackWord_of_packed h2, unpackWord_of_packed (hsel ▸ h2), ← hsel]
    exact List.map_congr_left fun i hi => slot_congr (by omega) (List.mem_range.mp hi) hbits

/-! ## The encoded stream -/

/-- When the run detector fires, the next 128 values are all 0 or all 1 (41_encode R174). -/
theorem take_eq_replicate_of_runDetected {u : List Word} (h : runDetected u = true) :
    (u.headD 0).toNat ≤ 1 ∧ u.take 128 = List.replicate 128 (u.headD 0) := by
  cases u with
  | nil => cases h
  | cons x xs =>
    simp only [runDetected, Bool.and_eq_true, decide_eq_true_eq, List.all_eq_true, beq_iff_eq] at h
    obtain ⟨⟨hlen, hle⟩, hall⟩ := h
    refine ⟨hle, List.eq_replicate_iff.mpr ⟨?_, hall⟩⟩
    rw [List.length_take]
    omega

/-- The chosen selector is a packed one, and the values it covers fill its word: one value of at most 60 bits fills a word of
selector 15 (41_encode R175). -/
theorem chooseSel_fits {u : List Word} (hne : u ≠ []) (hu : ∀ x ∈ u, bitlen x ≤ 60) :
    2 ≤ chooseSel u ∧ chooseSel u < 16 ∧ fits (chooseSel u) (u.take (ncap .current (chooseSel u))) = true := by
  have h15 : fits 15 (u.take (ncap .current 15)) = true := by
    have hpos : 1 ≤ u.length := List.length_pos_iff.mpr hne
    refine fits_iff.mpr ⟨by rw [List.length_take]; exact Nat.min_eq_left hpos, fun x hx => ?_⟩
    exact (bitlen_le_iff x 60).mp (hu x (List.mem_of_mem_take hx))
  obtain ⟨hle2, hle15, hfits⟩ :=
    (packedSelectors_find_isLeast (p := fun s => fits s (u.take (ncap .current s))) (by decide) (by decide) h15).1
  exact ⟨hle2, Nat.lt_succ_of_le hle15, hfits⟩

/-- The next code word holds exactly the values it covers, and covers at least one (41_encode R174, R175). -/
theorem nextWord_spec {u : List Word} (hne : u ≠ []) (hu : ∀ x ∈ u, bitlen x ≤ 60) :
    unpackWord .current (nextWord u).1 = u.take (nextWord u).2 ∧ 0 < (nextWord u).2 := by
  unfold nextWord
  split
  · next hrun =>
    obtain ⟨hle, htake⟩ := take_eq_replicate_of_runDetected hrun
    refine ⟨?_, Nat.zero_lt_succ 127⟩
    rw [unpackWord_packRun hle, htake, BitVec.ofNat_toNat, BitVec.setWidth_eq]
  · obtain ⟨h2, h16, hfits⟩ := chooseSel_fits hne hu
    exact ⟨unpackWord_packWord h2 h16 hfits .current, ncap_pos .current h16⟩

/-- With fuel for every value, the stream holds the values left, in order (41_encode R180). -/
theorem streamValues_encodeFrom {fuel : Nat} : ∀ {u : List Word}, u.length ≤ fuel → (∀ x ∈ u, bitlen x ≤ 60) →
    streamValues .current (encodeFrom fuel u) = u := by
  induction fuel with
  | zero =>
    intro u hlen _
    rw [List.length_eq_zero_iff.mp (Nat.le_zero.mp hlen)]
    rfl
  | succ fuel ih =>
    intro u hlen hu
    cases u with
    | nil => rfl
    | cons x xs =>
      obtain ⟨hword, hpos⟩ := nextWord_spec (List.cons_ne_nil x xs) hu
      have hdrop : ((x :: xs).drop (nextWord (x :: xs)).2).length ≤ fuel := by
        rw [List.length_drop]
        omega
      rw [encodeFrom, streamValues_cons, hword, ih hdrop fun y hy => hu y (List.mem_of_mem_drop hy), List.take_append_drop]
      nofun

/-- Settles O53: word by word the stream holds the values, and the count of a stream is the number of its values. -/
theorem encodeStreamRoundTrip : Obligations.EncodeStreamRoundTrip := by
  intro u hu
  have hvals : streamValues .current (encodeStream u) = u := streamValues_encodeFrom (Nat.le_refl _) hu
  exact ⟨hvals, by rw [← streamValues_length, hvals]⟩

end Sys2Proof.Machine
end

section
/-! SUPPORT. The arithmetic of the kernels (40_kernels): the FOR subtractor and adder modulo 2^EW, the predicates as comparisons of
numbers, and the packed word as a sum; with them the statements on each. -/

namespace Sys2Proof.Machine

/-! ## Frame of reference -/

/-- The difference of two bit vectors is that of their values modulo the width (40_kernels R120, R125). -/
theorem toNat_sub_eq_emod {n : Nat} (x a : BitVec n) :
    ((x - a).toNat : Int) = ((x.toNat : Int) - a.toNat) % 2 ^ n := by
  rw [BitVec.toNat_sub, Int.natCast_emod, Int.natCast_add, Int.natCast_sub (Nat.le_of_lt a.isLt), Int.natCast_pow,
    Nat.cast_ofNat, sub_add_eq_add_sub, add_sub_assoc, Int.add_emod_left]

/-- The subtractor is the difference of the operands' values modulo 2^EW (40_kernels R120). -/
theorem forSub_toNat (v m : Word) (ew : ElemWidth) :
    ((forSub v m ew).toNat : Int) = ((v.toNat : Int) - m.toNat) % 2 ^ ewBitCount ew := by
  have hext : ∀ d : BitVec (ewBitCount ew), (d.setWidth 64).toNat = d.toNat := by
    cases ew <;> exact fun d => BitVec.toNat_setWidth_of_le (by decide)
  rw [forSub, hext, toNat_sub_eq_emod, BitVec.toNat_setWidth, BitVec.toNat_setWidth]
  push_cast
  exact (Int.sub_emod _ _ _).symm

/-- The adder is the sum of the operands' values modulo 2^EW (40_kernels R121). -/
theorem forAdd_toNat (x m : Word) (ew : ElemWidth) :
    (forAdd x m ew).toNat = (x.toNat + m.toNat) % 2 ^ ewBitCount ew := by
  cases ew <;> simp only [forAdd, ewBitCount, BitVec.toNat_setWidth, BitVec.toNat_add] <;> omega

/-- The adder undoes the subtractor on an element of EW bits (40_kernels R120, R121). -/
theorem forAdd_forSub {v : Word} {ew : ElemWidth} (hv : v.toNat < 2 ^ ewBitCount ew) (m : Word) :
    forAdd (forSub v m ew) m ew = v := by
  refine BitVec.eq_of_toNat_eq (Int.ofNat_inj.mp ?_)
  calc ((forAdd (forSub v m ew) m ew).toNat : Int)
      = ((v.toNat - m.toNat : Int) % 2 ^ ewBitCount ew + m.toNat) % 2 ^ ewBitCount ew := by
        rw [forAdd_toNat, ← forSub_toNat]
        push_cast
        rfl
    _ = (v.toNat : Int) % 2 ^ ewBitCount ew := by rw [Int.emod_add_emod, sub_add_cancel]
    _ = v.toNat := Int.emod_eq_of_lt (Int.natCast_nonneg _) (by exact_mod_cast hv)

/-- Settles O36: integers congruent to the operands have congruent differences, and the subtractor is the difference of the values. -/
theorem forArithmetic : Obligations.ForArithmetic := by
  refine ⟨fun ew v m x y hx hy => ?_, fun ew x m => forAdd_toNat x m ew, fun x => ?_, fun ew v m hv => forAdd_forSub hv m⟩
  · have hv : v.toNat ≡ x [ZMOD 2 ^ ewBitCount ew] := Int.modEq_iff_dvd.mpr (Int.dvd_of_emod_eq_zero hx)
    have hm : m.toNat ≡ y [ZMOD 2 ^ ewBitCount ew] := Int.modEq_iff_dvd.mpr (Int.dvd_of_emod_eq_zero hy)
    rw [forSub_toNat]
    exact hv.sub hm
  · refine BitVec.eq_of_toNat_eq ?_
    rw [forAdd_toNat]
    exact Nat.mod_eq_of_lt x.isLt

/-! ## Predicates -/

/-- BW compares the distances from the lower operand, each modulo 2^64 (40_kernels R125). -/
theorem predHolds_bw_iff (x a b : Word) :
    predHolds .bw x a b = true ↔ ((x.toNat : Int) - a.toNat) % 2 ^ 64 ≤ ((b.toNat : Int) - a.toNat) % 2 ^ 64 := by
  rw [predHolds, decide_eq_true_iff, BitVec.le_def, ← toNat_sub_eq_emod, ← toNat_sub_eq_emod, Int.ofNat_le]

/-- Settles O39: the orders of words are those of their values, and BW with its two cases is linear arithmetic on the values. -/
theorem predicatesUnsigned : Obligations.PredicatesUnsigned := by
  intro x a b
  have hx := x.isLt
  have ha := a.isLt
  have hb := b.isLt
  have heq : predHolds .eq x a b = decide (x.toNat = a.toNat) := decide_eq_decide.mpr BitVec.toNat_inj.symm
  refine ⟨heq, ?_, ?_, ?_, rfl, rfl, ?_, fun hab => ?_, fun hba => ?_⟩
  · rw [decide_not, ← heq]; rfl
  · exact (decide_not (p := a.toNat ≤ x.toNat)).symm.trans (decide_eq_decide.mpr Nat.not_le)
  · exact (decide_not (p := a.toNat < x.toNat)).symm.trans (decide_eq_decide.mpr Nat.not_lt)
  · rw [Bool.eq_iff_iff, predHolds_bw_iff, decide_eq_true_iff]
  · rw [predHolds_bw_iff]; omega
  · rw [predHolds_bw_iff]; omega

/-! ## Packed words as sums -/

/-- A word shifted above another, with room for both, is a sum. -/
theorem toNat_shiftLeft_or {p u : Word} {n b : Nat} (hp : p.toNat < 2 ^ n) (hu : u.toNat < 2 ^ b) (hn : n + b ≤ 64) :
    (p <<< b ||| u).toNat = p.toNat * 2 ^ b + u.toNat := by
  have hlt : p.toNat * 2 ^ b < 2 ^ 64 := calc
    p.toNat * 2 ^ b < 2 ^ n * 2 ^ b := Nat.mul_lt_mul_of_pos_right hp (Nat.two_pow_pos b)
    _ = 2 ^ (n + b) := (Nat.pow_add 2 n b).symm
    _ ≤ 2 ^ 64 := Nat.pow_le_pow_right (by decide) hn
  rw [BitVec.toNat_or, BitVec.toNat_shiftLeft, Nat.shiftLeft_eq, Nat.mod_eq_of_lt hlt, Nat.mul_comm,
    Nat.two_pow_add_eq_or_of_lt hu]

/-- A packed payload is the sum of its values, each shifted to its slot (40_kernels R122). -/
theorem packSlots_toNat {b : Nat} (hb : 0 < b) : ∀ {us : List Word}, (∀ u ∈ us, u.toNat < 2 ^ b) → us.length * b ≤ 64 →
    (packSlots b us).toNat = ((List.range us.length).map fun i => (us.getD i 0).toNat * 2 ^ (i * b)).sum := by
  intro us
  induction us with
  | nil => intro _ _; rfl
  | cons u us ih =>
    intro hus hlen
    obtain ⟨hu, hus⟩ := List.forall_mem_cons.mp hus
    rw [List.length_cons, Nat.add_one_mul] at hlen
    have hshift : ((List.range us.length).map fun i => (us.getD i 0).toNat * 2 ^ ((i + 1) * b)).sum =
        ((List.range us.length).map fun i => (us.getD i 0).toNat * 2 ^ (i * b)).sum * 2 ^ b := by
      simp only [← List.sum_map_mul_right, Nat.add_one_mul, Nat.pow_add, Nat.mul_assoc]
    have hpayload : (packSlots b us).toNat < 2 ^ (us.length * b) := packSlots_lt hb hus (Nat.le_refl _)
    rw [packSlots, BitVec.or_comm, toNat_shiftLeft_or hpayload hu hlen, ih hus (by omega), ← hshift,
      List.length_cons, List.range_succ_eq_map]
    simp [Function.comp_def, Nat.add_comm]

/-- The packed word is the selector in bits 63:60 plus the values at their slots (40_kernels R122). -/
theorem packWord_toNat {s : Nat} {us : List Word} (h2 : 2 ≤ s) (h16 : s < 16) (hfits : fits s us = true) :
    (packWord s us).toNat =
      s * 2 ^ 60 + ((List.range us.length).map fun i => (us.getD i 0).toNat * 2 ^ (i * bw s)).sum := by
  obtain ⟨hlen, hus⟩ := fits_iff.mp hfits
  obtain ⟨hpos, _, hpayload⟩ := bw_bounds h2 h16
  rw [← hlen] at hpayload
  have hsel : (BitVec.ofNat 64 s).toNat = s := Nat.mod_eq_of_lt (by omega)
  rw [packWord, toNat_shiftLeft_or (n := 4) (by omega) (packSlots_lt hpos hus hpayload) (by decide), hsel,
    packSlots_toNat hpos hus (by omega)]

/-- The payload of a packed word above its slots is 0 (40_kernels R122). -/
theorem packWord_getLsbD_above {s : Nat} {us : List Word} (h2 : 2 ≤ s) (h16 : s < 16) (hfits : fits s us = true) {j : Nat}
    (hj : ncap .current s * bw s ≤ j) (h60 : j < 60) : (packWord s us).getLsbD j = false := by
  obtain ⟨hlen, hus⟩ := fits_iff.mp hfits
  rw [packWord, selector_or_getLsbD _ _ h60]
  exact getLsbD_eq_false_of_lt (packSlots_lt (bw_bounds h2 h16).1 hus (Nat.le_of_eq (by rw [hlen]))) hj

/-- A run word has its own selector (40_kernels R123). -/
theorem selOf_packRun {s : Nat} (h16 : s < 16) : selOf (packRun s) = s := by
  simpa [packRun] using selOf_selector_or h16 (p := 0) (by decide)

/-- Settles O37: the sum, the slots and the bits above them, and unpacking as the inverse of packing. -/
theorem packKernels : Obligations.PackKernels := by
  refine ⟨fun s u h2 h15 hfits => ?_, fun s hs => ⟨unpackWord_packRun hs, selOf_packRun (by omega)⟩⟩
  have h16 : s < 16 := Nat.lt_succ_of_le h15
  refine ⟨packWord_toNat h2 h16 hfits, fun i hi => ?_, fun j => packWord_getLsbD_above h2 h16 hfits,
    selOf_packWord h2 h16 hfits, unpackWord_packWord h2 h16 hfits⟩
  rw [slot_packWord h2 h16 hfits hi, List.getD_eq_getElem u 0 hi]

end Sys2Proof.Machine
end

section
/-! SUPPORT. The compare kernels bit by bit (40_kernels R126 to R132), with them the kernel correctness law, the negated masks and the
result of CMPW. -/

namespace Sys2Proof.Machine

/-! ## Mask bits -/

theorem two_le_of_not_isRun {s : Nat} (h : ¬isRun s = true) : 2 ≤ s :=
  (isRun_eq_false_iff s).mp (Bool.eq_false_iff.mpr h)

/-- The first value of a run word is its run value (40_kernels R124). -/
theorem unpackWord_head_of_isRun {w : Word} (hrun : isRun (selOf w) = true) (fmt : Format) :
    (unpackWord fmt w).getD 0 0 = runVal fmt (selOf w) := by
  have hpos : 0 < ncap fmt (selOf w) := ncap_pos fmt (selOf_lt w)
  simp [unpackWord_of_isRun hrun, hpos]

theorem maskWidth_of_isRun {s : Nat} (hrun : isRun s = true) (fmt : Format) : maskWidth fmt s = 1 :=
  if_pos hrun

theorem maskWidth_of_packed {s : Nat} (h2 : 2 ≤ s) (fmt : Format) : maskWidth fmt s = ncap fmt s := by
  rw [maskWidth, (isRun_eq_false_iff s).mpr h2]
  rfl

/-- No mask is wider than 60 bits (40_kernels R132). -/
theorem maskWidth_le (fmt : Format) {s : Nat} (h16 : s < 16) : maskWidth fmt s ≤ 60 := by
  by_cases hrun : isRun s = true
  · rw [maskWidth_of_isRun hrun]
    decide
  · have h2 : 2 ≤ s := two_le_of_not_isRun hrun
    exact maskWidth_of_packed h2 fmt ▸ ncap_packed_le fmt h2 h16

theorem getLsbD_ofNat_toNat (h : Bool) (j : Nat) : (BitVec.ofNat 64 h.toNat).getLsbD j = (decide (j < 1) && h) := by
  cases h <;> cases j <;> simp [BitVec.getLsbD_one]

/-- Bit `j` of a kernel's mask is the predicate of value `j`, and 0 from the mask width on (40_kernels R128 to R130, R132). -/
theorem cmpKernel_getLsbD (fmt : Format) (p : Pred) (w a b : Word) (j : Nat) :
    (cmpKernel fmt p w a b).2.getLsbD j =
      (decide (j < maskWidth fmt (selOf w)) && predHolds p ((unpackWord fmt w).getD j 0) a b) := by
  unfold cmpKernel
  by_cases hrun : isRun (selOf w) = true
  · rw [if_pos hrun, maskWidth_of_isRun hrun, getLsbD_ofNat_toNat]
    by_cases hj : j < 1
    · obtain rfl : j = 0 := by omega
      rw [unpackWord_head_of_isRun hrun]
    · simp [hj]
  · have h2 : 2 ≤ selOf w := two_le_of_not_isRun hrun
    have h60 := ncap_packed_le fmt h2 (selOf_lt w)
    rw [if_neg hrun, maskOf_getLsbD, maskWidth_of_packed h2, List.getD_eq_getElem?_getD, List.getD_eq_getElem?_getD,
      List.getElem?_map]
    by_cases hj : j < ncap fmt (selOf w)
    · simp [hj, show j < 64 by omega]
    · rw [List.getElem?_eq_none (by rw [unpackWord_length]; omega)]
      simp [hj]

/-- Settles O40: a run word's values are all its first one, and a packed word's values lie below its mask width. -/
theorem kernelCorrectness : Obligations.KernelCorrectness := by
  intro fmt p w a b
  refine ⟨by rw [cmpKernel_fst, unpackWord_length], fun i x hx => ?_⟩
  rw [cmpKernel_getLsbD]
  by_cases hrun : isRun (selOf w) = true
  · have hval : x = runVal fmt (selOf w) := by
      rw [unpackWord_of_isRun hrun] at hx
      exact List.eq_of_mem_replicate (List.mem_of_getElem? hx)
    rw [if_pos hrun, maskWidth_of_isRun hrun, unpackWord_head_of_isRun hrun, hval]
    rfl
  · have h2 : 2 ≤ selOf w := two_le_of_not_isRun hrun
    have hi : i < ncap fmt (selOf w) := unpackWord_length fmt w ▸ (List.getElem?_eq_some_iff.mp hx).1
    rw [if_neg hrun, maskWidth_of_packed h2, List.getD_eq_getElem?_getD, hx]
    simp [hi]

/-! ## Negated masks -/

theorem getLsbD_ones {n j : Nat} (hn : n ≤ 60) : ((1#64 <<< n) - 1#64).getLsbD j = decide (j < n) := by
  have hlt : 2 ^ n < 2 ^ 64 := Nat.pow_lt_pow_right (by decide) (by omega)
  have hval : ((1#64 <<< n) - 1#64).toNat = 2 ^ n - 1 := by
    have := Nat.two_pow_pos n
    rw [BitVec.toNat_sub, BitVec.toNat_shiftLeft, Nat.shiftLeft_eq]
    simp only [BitVec.toNat_ofNat]
    omega
  rw [← BitVec.testBit_toNat, hval, Nat.testBit_two_pow_sub_one]

/-- The mask of a predicate that negates another is the other's mask negated over its width (40_kernels R126). -/
theorem cmpKernel_mask_of_not {p q : Pred} (hpq : ∀ x a b, predHolds p x a b = !predHolds q x a b) (fmt : Format)
    (w a b : Word) : (cmpKernel fmt p w a b).2 =
      ~~~(cmpKernel fmt q w a b).2 &&& ((1#64 <<< maskWidth fmt (selOf w)) - 1#64) := by
  refine BitVec.eq_of_getLsbD_eq fun j hj => ?_
  rw [BitVec.getLsbD_and, BitVec.getLsbD_not, getLsbD_ones (maskWidth_le fmt (selOf_lt w)), cmpKernel_getLsbD,
    cmpKernel_getLsbD, hpq]
  by_cases hlt : j < maskWidth fmt (selOf w) <;> simp [hlt, hj]

/-- Settles O41: NE, LT and LE negate EQ, GE and GT, and no mask has a bit from its width on. -/
theorem maskWidthAndNegation : Obligations.MaskWidthAndNegation := by
  refine ⟨fun fmt w a b => ⟨?_, ?_, ?_⟩, fun fmt s hrun => maskWidth_of_isRun hrun fmt, fun fmt s hrun => ?_,
    fun fmt p w a b j hj => ?_⟩
  · exact cmpKernel_mask_of_not (fun _ _ _ => rfl) fmt w a b
  · exact cmpKernel_mask_of_not (fun _ _ _ => rfl) fmt w a b
  · exact cmpKernel_mask_of_not (fun _ _ _ => rfl) fmt w a b
  · have hwidth := maskWidth_of_packed ((isRun_eq_false_iff s).mp hrun) fmt
    refine ⟨hwidth, ?_⟩
    by_cases h16 : s < 16
    · exact maskWidth_le fmt h16
    · rw [hwidth, ncap_outside fmt (by omega)]
      decide
  · rw [cmpKernel_getLsbD, decide_eq_false (Nat.not_lt.mpr hj), Bool.false_and]

/-! ## CMPW -/

/-- Settles O42: the common definition of CMPW answers the kernel's count and mask. -/
theorem cmpwResult : Obligations.CmpwResult := by
  intro p fmt s
  refine ⟨(cmpKernel fmt p s.word s.opa s.opb).2, ?_, cmpKernel_getLsbD fmt p s.word s.opa s.opb⟩
  rw [exec_cmpwInstr, compareWord, cmpKernel_fst, State.endedWith_of_withMask]

end Sys2Proof.Machine
end

section
/-! SUPPORT. The loops that read a source array and write no memory: ENCODE's validation pass and PACKW's loop as one loop over two tests,
where that loop succeeds and where it stops at a refused read, and COUNT's loop; with them the result of PACKW and the bus errors
before any write. -/

namespace Sys2Proof.Machine

/-! ## Reading an array -/

/-- Bytes in a row can be read exactly when those of both parts can. -/
theorem readable_add {map : List Region} {a m n : Nat} :
    readable map a (m + n) ↔ readable map a m ∧ readable map (a + m) n := by
  refine ⟨fun h => ⟨fun i hi => h i (by omega), fun i hi => ?_⟩, fun ⟨hm, hn⟩ i hi => ?_⟩
  · simpa [Nat.add_assoc] using h (m + i) (by omega)
  · by_cases him : i < m
    · exact hm i him
    · simpa [show a + m + (i - m) = a + i by omega] using hn (i - m) (by omega)

/-- An element whose bytes can be read is read (20_memory R65). -/
theorem memRead_of_readable {map : List Region} {eb a : Nat} (h : readable map a eb) (mem : Memory) :
    memRead map mem a eb = some (elemAt mem eb a 0) := by
  obtain ⟨v, hv⟩ := Option.isSome_iff_exists.mp ((memRead_isSome map mem eb a).mpr h)
  rw [hv, elemAt_of_memRead hv]

theorem memRead_of_not_readable {map : List Region} {eb a : Nat} (h : ¬readable map a eb) (mem : Memory) :
    memRead map mem a eb = none := by
  rwa [← memRead_isSome map mem, Option.not_isSome_iff_eq_none] at h

/-- The stored value of element `i` of the array at `a` (41_encode R170). -/
def storedAt (mem : Memory) (ew : ElemWidth) (minv : Word) (a i : Nat) : Word :=
  forSub (elemAt mem (ewByteCount ew) a i) minv ew

theorem srcValue_eq (ew : ElemWidth) (s : State) : srcValue ew s = storedAt s.mem ew s.minv s.srcAddr.toNat :=
  rfl

theorem storedAt_next (mem : Memory) (ew : ElemWidth) (minv : Word) (a i : Nat) :
    storedAt mem ew minv (a + ewByteCount ew) i = storedAt mem ew minv a (i + 1) := by
  simp only [storedAt, elemAt, Nat.add_one_mul, Nat.add_assoc, Nat.add_comm (ewByteCount ew)]

/-! ## The loop over an array -/

/-- The loop that `validate` and `packElems` share: the stored values of `n` elements from address `a` on, or the first error in index
order; `ok` is the test of a stored value (41_encode R173, 40_kernels R135). -/
def scanElems (map : List Region) (mem : Memory) (ew : ElemWidth) (minv : Word) (ok : Word → Bool) :
    (n a : Nat) → Except ErrCode (List Word)
  | 0, _ => .ok []
  | n + 1, a =>
    match memRead map mem a (ewByteCount ew) with
    | none => .error .busError
    | some v =>
      if ok (forSub v minv ew) then
        (scanElems map mem ew minv ok n (a + ewByteCount ew)).map (forSub v minv ew :: ·)
      else .error .valueOutOfBounds

theorem validate_eq_scanElems (map : List Region) (mem : Memory) (ew : ElemWidth) (minv : Word) (top : Nat) :
    ∀ n a, validate map mem ew minv top n a = scanElems map mem ew minv (fun u => decide (bitlen u ≤ top)) n a
  | 0, _ => rfl
  | n + 1, a => by
    rw [validate, scanElems]
    cases memRead map mem a (ewByteCount ew) with
    | none => rfl
    | some v =>
      rw [← validate_eq_scanElems map mem ew minv top n]
      by_cases hv : bitlen (forSub v minv ew) ≤ top
      · simp only [hv, Nat.not_lt.mpr hv, decide_true, if_true, if_false]
        cases validate map mem ew minv top n (a + ewByteCount ew) <;> rfl
      · simp [hv, Nat.lt_of_not_le hv]

theorem packElems_eq_scanElems (map : List Region) (mem : Memory) (ew : ElemWidth) (minv : Word) (sel : Nat) :
    ∀ n a, packElems map mem ew minv sel n a = scanElems map mem ew minv (fitsOne sel) n a
  | 0, _ => rfl
  | n + 1, a => by
    rw [packElems, scanElems]
    cases memRead map mem a (ewByteCount ew) with
    | none => rfl
    | some v =>
      rw [← packElems_eq_scanElems map mem ew minv sel n]
      cases packElems map mem ew minv sel n (a + ewByteCount ew) <;> rfl

section
variable {map : List Region} {mem : Memory} {ew : ElemWidth} {minv : Word} {ok : Word → Bool}

/-- The loop at an element that can be read and passes the test. -/
theorem scanElems_succ {a : Nat} (hread : readable map a (ewByteCount ew)) (hok : ok (storedAt mem ew minv a 0) = true)
    (n : Nat) : scanElems map mem ew minv ok (n + 1) a =
      (scanElems map mem ew minv ok n (a + ewByteCount ew)).map (storedAt mem ew minv a 0 :: ·) := by
  rw [scanElems, memRead_of_readable hread]
  exact if_pos hok

/-- The loop succeeds when every element can be read and passes the test. -/
theorem scanElems_ok : ∀ {n a : Nat}, readable map a (n * ewByteCount ew) →
    (∀ i < n, ok (storedAt mem ew minv a i) = true) →
    scanElems map mem ew minv ok n a = .ok ((List.range n).map (storedAt mem ew minv a)) := by
  intro n
  induction n with
  | zero => intro a _ _; rfl
  | succ n ih =>
    intro a hread hok
    rw [Nat.add_one_mul, Nat.add_comm, readable_add] at hread
    obtain ⟨hfirst, hrest⟩ := hread
    have hok' : ∀ i < n, ok (storedAt mem ew minv (a + ewByteCount ew) i) = true := fun i hi => by
      rw [storedAt_next]
      exact hok (i + 1) (Nat.succ_lt_succ hi)
    rw [scanElems_succ hfirst (hok 0 n.succ_pos), ih hrest hok', List.range_succ_eq_map, List.map_cons, List.map_map,
      funext (storedAt_next mem ew minv a)]
    rfl

/-- The loop ends with a bus error when a byte among elements 0 to `i` cannot be read and the elements before `i` pass the test
(60_exceptions R278, R279). -/
theorem scanElems_busError : ∀ {n a i : Nat}, i < n → (∀ j < i, ok (storedAt mem ew minv a j) = true) →
    ¬readable map a ((i + 1) * ewByteCount ew) → scanElems map mem ew minv ok n a = .error .busError := by
  intro n
  induction n with
  | zero => intro a i hi; omega
  | succ n ih =>
    intro a i hi hok hread
    by_cases hfirst : readable map a (ewByteCount ew)
    · cases i with
      | zero => exact absurd hfirst (by simpa using hread)
      | succ i =>
        rw [Nat.add_one_mul, Nat.add_comm, readable_add] at hread
        have hrest := not_and.mp hread hfirst
        have hok' : ∀ j < i, ok (storedAt mem ew minv (a + ewByteCount ew) j) = true := fun j hj => by
          rw [storedAt_next]
          exact hok (j + 1) (Nat.succ_lt_succ hj)
        rw [scanElems_succ hfirst (hok 0 i.succ_pos), ih (Nat.lt_of_succ_lt_succ hi) hok' hrest]
        rfl
    · rw [scanElems, memRead_of_not_readable hfirst]

end

/-- The count loop ends with a bus error when byte 7 of one of its words cannot be read (42_decode R206). -/
theorem countLoop_busError {map : List Region} {mem : Memory} {fmt : Format} : ∀ {n a w : Nat} {c : Word}, w < n →
    memOk map (a + 8 * w + 7) .read = false → countLoop map mem fmt n a c = .error .busError := by
  intro n
  induction n with
  | zero => intro a w c hw; omega
  | succ n ih =>
    intro a w c hw hrefused
    rw [countLoop]
    cases hread : memRead map mem (a + 7) 1 with
    | none => rfl
    | some b =>
      cases w with
      | zero =>
        have hok : memOk map (a + 7) .read = true := (memRead_isSome map mem 1 (a + 7)).mp (by rw [hread]; rfl) 0 Nat.one_pos
        exact absurd hok (Bool.eq_false_iff.mp hrefused)
      | succ w => exact ih (w := w) (Nat.lt_of_succ_lt_succ hw) (by rwa [show a + 8 + 8 * w = a + 8 * (w + 1) by omega])

/-! ## Commands that pass their checks -/

theorem exec_encode_of_calm {ew : ElemWidth} {fmt : Format} {s : State} (hcheck : encodeCheck ew fmt s = none)
    (hcalm : s.calm (encodeBuffers ew s)) : exec (.encode ew fmt) s = .next (encodeRun ew s) := by
  change execEncode ew fmt s = _
  rw [execEncode, hcheck]
  exact State.onBuffers_of_calm hcalm _ _ _

theorem exec_count_of_calm {fmt : Format} {s : State} (hcheck : countCheck s = none) (hcalm : s.calm (countBuffers s)) :
    exec (.count fmt) s = .next (countRun fmt s) := by
  change execCount fmt s = _
  rw [execCount, hcheck]
  exact State.onBuffers_of_calm hcalm _ _ _

/-- PACKW in the current format whose range check passes (40_kernels R135). -/
theorem exec_packw_of_calm {ew : ElemWidth} {sel : Nat} {s : State} (hcalm : s.calm (packwBuffers ew sel s))
    (hrange : (packwBuffers ew sel s).badRange = false) : exec (.packw ew .current sel) s = .next (packwRun ew sel s) := by
  have hcheck : packwCheck ew .current sel s = none := by simp [packwCheck, hrange]
  change execPackw ew .current sel s = _
  rw [execPackw, hcheck]
  exact State.onBuffers_of_calm hcalm _ _ _

/-- Settles O33: each of the three loops stops at its first refused read, before any write. -/
theorem busErrorBeforeWrites : Obligations.BusErrorBeforeWrites := by
  refine ⟨fun fmt s hcalm hlen hrange ⟨w, hw, hrefused⟩ => ?_, fun ew s i hcalm hlen hrange htop hi hfit hread => ?_,
    fun ew sel s i _ hcalm hrange hi hfit hread => ?_⟩
  · have hcheck : countCheck s = none := by simp [countCheck, hlen, hrange]
    rw [exec_count_of_calm hcheck hcalm, countRun, countLoop_busError hw hrefused]
    rfl
  · have hne : s.srcLen ≠ 0 := fun h0 => by simp [h0] at hi
    have hcheck : encodeCheck ew .current s = none := by simp [encodeCheck, hlen, hrange, Nat.not_lt.mpr htop]
    rw [exec_encode_of_calm hcheck hcalm, encodeRun, if_neg hne, validate_eq_scanElems,
      scanElems_busError hi (fun j hj => decide_eq_true (hfit j hj)) hread]
    rfl
  · rw [exec_packw_of_calm hcalm hrange, packwRun, packElems_eq_scanElems, scanElems_busError hi hfit hread]
    rfl

/-- Settles O43: PACKW's loop answers the stored values of the source, and the word is the run word of selectors 0 and 1, the packed word
of the others. -/
theorem packwResult : Obligations.PackwResult := by
  intro ew sel s _ ⟨hcalm, hrange, hread, hfit⟩
  have hok : ∀ i < ncap .current sel, fitsOne sel (srcValue ew s i) = true := fun i hi =>
    List.all_eq_true.mp hfit _ (List.mem_map_of_mem (List.mem_range.mpr hi))
  have hword : packBySel sel (srcStored ew s (ncap .current sel)) =
      if sel < 2 then BitVec.ofNat 64 sel <<< 60 else packWord sel (srcStored ew s (ncap .current sel)) := by
    simp only [packBySel, packRun, isRun_iff]
  rw [exec_packw_of_calm hcalm hrange, packwRun, packElems_eq_scanElems, scanElems_ok hread hok, ← hword]
  rfl

end Sys2Proof.Machine
end

section
/-! SUPPORT. ENCODE's choice of the next code word (41_encode R174 to R176, R181): the run detector, the chosen selector as the least
adequate one, the source's greedy procedure, and the words of a short input. -/

namespace Sys2Proof.Machine

/-! ## The selector table as an order -/

/-- Packed selectors hold fewer values as they rise (30_encoding R86). -/
theorem ncap_lt_ncap {s t : Nat} (h2 : 2 ≤ s) (hst : s < t) (h15 : t ≤ 15) : ncap .current t < ncap .current s := by
  have htable : ∀ t < 16, ∀ s < t, 2 ≤ s → ncap .current t < ncap .current s := by decide
  exact htable t (Nat.lt_succ_of_le h15) s hst h2

/-- Packed selectors have wider slots as they rise (30_encoding R87). -/
theorem bw_lt_bw {s t : Nat} (h2 : 2 ≤ s) (hst : s < t) (h15 : t ≤ 15) : bw s < bw t := by
  have htable : ∀ t < 16, ∀ s < t, 2 ≤ s → bw s < bw t := by decide
  exact htable t (Nat.lt_succ_of_le h15) s hst h2

theorem bw_le_bw {s t : Nat} (h2 : 2 ≤ s) (hst : s ≤ t) (h15 : t ≤ 15) : bw s ≤ bw t := by
  rcases Nat.eq_or_lt_of_le hst with rfl | hlt
  · exact Nat.le_refl _
  · exact Nat.le_of_lt (bw_lt_bw h2 hlt h15)

/-- The selectors from `selForBits w` on are those whose slots hold `w` bits (30_encoding R90). -/
theorem selForBits_le_iff {w t : Nat} (hw : w ≤ 60) (h2 : 2 ≤ t) (h15 : t ≤ 15) : selForBits w ≤ t ↔ w ≤ bw t := by
  obtain ⟨hs2, _, hfit, hmin⟩ := selForBitsIsSmallest w hw
  exact ⟨fun hle => Nat.le_trans hfit (bw_le_bw hs2 hle h15), hmin t h2 h15⟩

/-! ## The run detector -/

/-- Settles O55: the detector's three tests, the last on each of the next 128 values. -/
theorem runDetector : Obligations.RunDetector := by
  intro x xs
  refine ⟨?_, fun hrun => ?_, fun hrun => ?_⟩
  · simp only [runDetected, Bool.and_eq_true, decide_eq_true_eq, List.all_eq_true, beq_iff_eq, and_assoc]
    refine and_congr_right fun hlen => and_congr Iff.rfl ⟨fun hall j hj => ?_, fun hall y hy => ?_⟩
    · have hj' : j < (x :: xs).length := by omega
      rw [List.getElem?_eq_getElem hj', hall _ (List.mem_take_iff_getElem.mpr ⟨j, by omega, rfl⟩)]
    · obtain ⟨j, hj, rfl⟩ := List.mem_take_iff_getElem.mp hy
      exact (List.getElem_eq_iff (by omega)).mpr (hall j (by omega))
  · rw [nextWord, if_pos hrun]
    rfl
  · rw [nextWord, if_neg (Bool.eq_false_iff.mp hrun)]

/-- With fewer than 128 values left, the next word is a packed one (41_encode R174). -/
theorem nextWord_of_length_lt {u : List Word} (h : u.length < 128) :
    nextWord u = (packWord (chooseSel u) (u.take (ncap .current (chooseSel u))), ncap .current (chooseSel u)) := by
  refine if_neg fun hrun => ?_
  cases u with
  | nil => cases hrun
  | cons x xs => exact absurd ((runDetector x xs).1.mp hrun).1 (Nat.not_le.mpr h)

/-! ## The chosen selector -/

/-- A packed selector whose capacity the values fill and whose slots hold the values it covers (41_encode R175). -/
structure Adequate (u : List Word) (s : Nat) : Prop where
  two_le : 2 ≤ s
  le_fifteen : s ≤ 15
  filled : ncap .current s ≤ u.length
  fit : ∀ x ∈ u.take (ncap .current s), x.toNat < 2 ^ bw s

theorem adequate_iff {u : List Word} {s : Nat} :
    Adequate u s ↔ 2 ≤ s ∧ s ≤ 15 ∧ fits s (u.take (ncap .current s)) = true := by
  rw [fits_iff, List.length_take, min_eq_left_iff]
  exact ⟨fun ⟨h2, h15, hlen, hfit⟩ => ⟨h2, h15, hlen, hfit⟩, fun ⟨h2, h15, hlen, hfit⟩ => ⟨h2, h15, hlen, hfit⟩⟩

/-- Selector 15 is adequate for one value of at most 60 bits, and so for any (41_encode R175). -/
theorem adequate_fifteen {u : List Word} (hne : u ≠ []) (hu : ∀ x ∈ u, x.toNat < 2 ^ 60) : Adequate u 15 :=
  ⟨by decide, by decide, List.length_pos_iff.mpr hne, fun x hx => hu x (List.mem_of_mem_take hx)⟩

/-- The chosen selector is the least adequate one, when there is one (41_encode R175). -/
theorem chooseSel_isLeast {u : List Word} {t : Nat} (ht : Adequate u t) : IsLeast {s | Adequate u s} (chooseSel u) := by
  obtain ⟨h2, h15, hfits⟩ := adequate_iff.mp ht
  simp only [adequate_iff]
  exact packedSelectors_find_isLeast (p := fun s => fits s (u.take (ncap .current s))) h2 h15 hfits

/-- The chosen selector is an adequate one that no adequate one is below. -/
theorem chooseSel_eq {u : List Word} {s : Nat} (hs : Adequate u s) (hmin : ∀ t, Adequate u t → s ≤ t) : chooseSel u = s :=
  (chooseSel_isLeast hs).unique ⟨hs, hmin⟩

/-- Settles O56: selector 15 is adequate, so the search finds the least adequate selector. -/
theorem selectorChoice : Obligations.SelectorChoice := by
  intro u hne hu
  obtain ⟨⟨h2, h15, hlen, hfit⟩, hmin⟩ := chooseSel_isLeast (adequate_fifteen hne hu)
  exact ⟨⟨h2, h15, hlen, hfit⟩, fun s hs2 hs15 hslen hsfit => hmin ⟨hs2, hs15, hslen, hsfit⟩⟩

/-! ## The greedy procedure -/

/-- The selector that values need: the packed selectors from it on are those whose slots hold them all (41_encode R176). -/
structure Needs (us : List Word) (s : Nat) : Prop where
  two_le : 2 ≤ s
  le_fifteen : s ≤ 15
  le_iff : ∀ t, 2 ≤ t → t ≤ 15 → (s ≤ t ↔ ∀ x ∈ us, x.toNat < 2 ^ bw t)

/-- `m` is the greatest of some values, or 0 where there is none, as far as bit lengths tell. -/
abbrev BoundedBy (us : List Word) (m : Nat) : Prop :=
  ∀ n, m < 2 ^ n ↔ ∀ x ∈ us, x.toNat < 2 ^ n

theorem BoundedBy.append_singleton {us : List Word} {m : Nat} (h : BoundedBy us m) (x : Word) :
    BoundedBy (us ++ [x]) (max m x.toNat) := by
  intro n
  rw [max_lt_iff, h n, List.forall_mem_append, List.forall_mem_singleton]

/-- What values need is what their greatest needs (41_encode R176). -/
theorem BoundedBy.needs {us : List Word} {m : Nat} (h : BoundedBy us m) (hus : ∀ x ∈ us, x.toNat < 2 ^ 60) :
    Needs us (selForBits (bitlen (BitVec.ofNat 64 m))) := by
  have hm : m < 2 ^ 60 := (h 60).mpr hus
  have hbits : ∀ n, bitlen (BitVec.ofNat 64 m) ≤ n ↔ m < 2 ^ n := fun n => by
    rw [bitlen_le_iff, BitVec.toNat_ofNat, Nat.mod_eq_of_lt (by omega)]
  have h60 := (hbits 60).mpr hm
  obtain ⟨h2, h15, _⟩ := selForBitsIsSmallest _ h60
  exact ⟨h2, h15, fun t ht2 ht15 => by rw [selForBits_le_iff h60 ht2 ht15, hbits, h]⟩

section
variable {u : List Word} {i s t : Nat}

/-- A selector is adequate when the values taken need no more and are enough to fill it. -/
theorem Needs.adequate (h : Needs (u.take i) s) (hst : s ≤ t) (h15 : t ≤ 15) (hti : ncap .current t ≤ i)
    (hi : i ≤ u.length) : Adequate u t :=
  have h2 : 2 ≤ t := Nat.le_trans h.two_le hst
  ⟨h2, h15, Nat.le_trans hti hi, fun x hx => (h.le_iff t h2 h15).mp hst x (List.take_subset_take_left u hti hx)⟩

/-- A selector whose word would hold the values taken is adequate only if they need no more. -/
theorem Needs.le_of_adequate (h : Needs (u.take i) s) (ht : Adequate u t) (hti : i ≤ ncap .current t) : s ≤ t :=
  (h.le_iff t ht.two_le ht.le_fifteen).mpr fun x hx => ht.fit x (List.take_subset_take_left u hti hx)

/-- While the word of the needed selector is not overfull, no selector below it is adequate: its word would hold still more. -/
theorem Needs.isLeast (h : Needs (u.take i) s) (hi : i ≤ ncap .current s) (ht : Adequate u t) : s ≤ t := by
  by_contra hlt
  have hcap := ncap_lt_ncap ht.two_le (Nat.lt_of_not_le hlt) h.le_fifteen
  exact hlt (h.le_of_adequate ht (by omega))

/-- When the word of the needed selector is overfull, an adequate selector's word holds fewer values than were taken. -/
theorem Needs.ncap_le_of_overfull (h : Needs (u.take (i + 1)) s) (hover : ncap .current s < i + 1) (ht : Adequate u t) :
    ncap .current t ≤ i := by
  by_contra hlt
  rcases Nat.eq_or_lt_of_le (h.le_of_adequate ht (by omega)) with rfl | hst
  · omega
  · have := ncap_lt_ncap h.two_le hst ht.le_fifteen
    omega

end

/-- Where the growing loop stops (41_encode R176): at the early exit, its word not yet full but the selector of the bound adequate; with
a full word; or with a word not full that no adequate selector outgrows. -/
inductive GrowAnswer (u : List Word) (top : Nat) : Sum Nat (Nat × Nat) → Prop where
  | early {i : Nat} (notFull : i < ncap .current top) (filled : ncap .current top ≤ u.length) (needs : Needs (u.take i) top) :
    GrowAnswer u top (.inl top)
  | full {s : Nat} (filled : ncap .current s ≤ u.length) (needs : Needs (u.take (ncap .current s)) s) :
    GrowAnswer u top (.inr (ncap .current s, s))
  | stopped {i s : Nat} (pos : 0 < i) (le_length : i ≤ u.length) (notFull : i < ncap .current s) (needs : Needs (u.take i) s)
    (blocked : ∀ t, Adequate u t → ncap .current t ≤ i) : GrowAnswer u top (.inr (i, s))

/-- The growing loop from a word that is not full, with `m` the greatest of the values taken (41_encode R176). -/
theorem greedyGrow_answer {u : List Word} (hu : ∀ x ∈ u, x.toNat < 2 ^ 60) (hne : u ≠ []) (top : Nat) :
    ∀ {rest : List Word} {i m s : Nat}, u.drop i = rest → i ≤ u.length → BoundedBy (u.take i) m → i < ncap .current s →
      Needs (u.take i) s → GrowAnswer u top (greedyGrow u.length top rest i m s) := by
  intro rest
  induction rest with
  | nil =>
    intro i m s hrest hi _ hcap hneeds
    have hall : i = u.length := Nat.le_antisymm hi (List.drop_eq_nil_iff.mp hrest)
    exact .stopped (hall ▸ List.length_pos_iff.mpr hne) hi hcap hneeds fun t ht => hall ▸ ht.filled
  | cons x xs ih =>
    intro i m s hrest hi hbound hcap hneeds
    obtain ⟨hlt, hx, hdrop⟩ : ∃ hlt : i < u.length, u[i] = x ∧ u.drop (i + 1) = xs := by
      have hlt : i < u.length := by
        by_contra hge
        rw [List.drop_eq_nil_iff.mpr (Nat.le_of_not_lt hge)] at hrest
        cases hrest
      rw [List.drop_eq_getElem_cons hlt] at hrest
      exact ⟨hlt, List.cons.inj hrest⟩
    have htake : u.take (i + 1) = u.take i ++ [x] := by rw [← hx, List.take_append_getElem hlt]
    have hbound' : BoundedBy (u.take (i + 1)) (max m x.toNat) := htake ▸ hbound.append_singleton x
    have hneeds' := hbound'.needs fun y hy => hu y (List.mem_of_mem_take hy)
    rw [greedyGrow]
    generalize selForBits (bitlen (BitVec.ofNat 64 (max m x.toNat))) = s2 at hneeds' ⊢
    split_ifs with hover hfull hexit
    · have hpos := ncap_pos .current (Nat.lt_succ_of_le hneeds'.le_fifteen)
      exact .stopped (by omega) hi hcap hneeds fun t => hneeds'.ncap_le_of_overfull hover
    · have hfilled : i + 1 ≤ u.length := hlt
      rw [hfull] at hneeds' hfilled ⊢
      exact .full hfilled hneeds'
    · obtain ⟨rfl, htop⟩ := hexit
      exact .early (i := i + 1) (by omega) htop hneeds'
    · exact ih hdrop hlt hbound' (by omega) hneeds'

/-- Settles O57: where the growing loop stops with a full word or exits early, the needed selector is the least adequate one; where it
stops otherwise, the adequate selectors are those that the widening step searches. -/
theorem greedyMatchesCanonical : Obligations.GreedyMatchesCanonical := by
  intro u top hne htop hu
  have hu60 : ∀ x ∈ u, x.toNat < 2 ^ 60 := fun x hx => (bitlen_le_iff x 60).mp (Nat.le_trans (hu x hx) htop)
  have hstart : Needs (u.take 0) 2 := ⟨by decide, by decide, fun t ht2 _ => by simp [ht2]⟩
  have hbound : BoundedBy (u.take 0) 0 := fun n => by simp
  have hgrow := greedyGrow_answer hu60 hne (selForBits top) List.drop_zero (Nat.zero_le _) hbound (by decide) hstart
  unfold greedySel
  generalize greedyGrow u.length (selForBits top) u 0 0 2 = answer at hgrow
  cases hgrow with
  | early hlt hfilled hneeds =>
    obtain ⟨h2, h15, hfit, _⟩ := selForBitsIsSmallest top htop
    have hadequate : Adequate u (selForBits top) := ⟨h2, h15, hfilled, fun x hx =>
      (bitlen_le_iff x _).mp (Nat.le_trans (hu x (List.mem_of_mem_take hx)) hfit)⟩
    exact (chooseSel_eq hadequate fun t => hneeds.isLeast (Nat.le_of_lt hlt)).symm
  | full hfilled hneeds =>
    have hadequate := hneeds.adequate (Nat.le_refl _) hneeds.le_fifteen (Nat.le_refl _) hfilled
    simpa using (chooseSel_eq hadequate fun t => hneeds.isLeast (Nat.le_refl _)).symm
  | @stopped i s hpos hle hlt hneeds hblocked =>
    have hiff : ∀ t, (2 ≤ t ∧ t ≤ 15 ∧ (decide (s ≤ t) && decide (ncap .current t ≤ i)) = true) ↔ Adequate u t := by
      intro t
      rw [Bool.and_eq_true, decide_eq_true_eq, decide_eq_true_eq]
      exact ⟨fun ⟨_, h15, hst, hti⟩ => hneeds.adequate hst h15 hti hle,
        fun ht => ⟨ht.two_le, ht.le_fifteen, hneeds.isLeast (Nat.le_of_lt hlt) ht, hblocked t ht⟩⟩
    have h15 := adequate_fifteen hne hu60
    obtain ⟨_, _, hpass⟩ := (hiff 15).mpr h15
    have hleast := packedSelectors_find_isLeast (p := fun t => decide (s ≤ t) && decide (ncap .current t ≤ i)) h15.two_le
      h15.le_fifteen hpass
    simp only [hiff] at hleast
    simpa [hlt] using hleast.unique (chooseSel_isLeast h15)

/-! ## Words of a short input -/

theorem encodeFrom_nil (fuel : Nat) : encodeFrom fuel [] = [] := by
  cases fuel <;> rfl

theorem encodeFrom_succ (fuel : Nat) {u : List Word} (hne : u ≠ []) :
    encodeFrom (fuel + 1) u = (nextWord u).1 :: encodeFrom fuel (u.drop (nextWord u).2) := by
  rw [encodeFrom]
  exact hne

/-- Values that the next word covers need no other (41_encode R180). -/
theorem encodeFrom_of_covered (fuel : Nat) {u : List Word} (hne : u ≠ []) (hcov : u.length ≤ (nextWord u).2) :
    encodeFrom (fuel + 1) u = [(nextWord u).1] := by
  rw [encodeFrom_succ fuel hne, List.drop_eq_nil_iff.mpr hcov, encodeFrom_nil]

/-- The chosen selector of values that need `s` and fill its word, with at most one value left over: a lower selector would hold all of
them, in slots narrower than their widest (41_encode R175, R181). -/
theorem chooseSel_of_boundary {s : Nat} {u : List Word} (h2 : 2 ≤ s) (h15 : s ≤ 15) (hu : ∀ x ∈ u, bitlen x ≤ bw s)
    (hmax : s = 2 ∨ ∃ x ∈ u, bw (s - 1) < bitlen x) (hlow : ncap .current s ≤ u.length)
    (hhigh : u.length ≤ ncap .current s + 1) : chooseSel u = s := by
  have hadequate : Adequate u s :=
    ⟨h2, h15, hlow, fun x hx => (bitlen_le_iff x _).mp (hu x (List.mem_of_mem_take hx))⟩
  refine chooseSel_eq hadequate fun t ht => Nat.le_of_not_lt fun hlt => ?_
  obtain ⟨x, hx, hwide⟩ := hmax.resolve_left (by have := ht.two_le; omega)
  have hcap := ncap_lt_ncap ht.two_le hlt h15
  have hfit := ht.fit x (by rwa [List.take_of_length_le (by omega)])
  have hnarrow : bw t ≤ bw (s - 1) := bw_le_bw ht.two_le (by omega) (by omega)
  have := (bitlen_le_iff x _).mpr hfit
  omega

/-- Settles O54: the word of selector `s` covers all values but the last of `ncap s + 1`, and one value more needs one word more. -/
theorem selectorBoundary : Obligations.SelectorBoundary := by
  intro s u h2 h15 hu hmax
  have h16 : s < 16 := Nat.lt_succ_of_le h15
  have hpos : 0 < ncap .current s := ncap_pos .current h16
  have hnext : ncap .current s ≤ u.length → u.length ≤ ncap .current s + 1 →
      nextWord u = (packWord s (u.take (ncap .current s)), ncap .current s) := fun hlow hhigh => by
    have h60 := ncap_packed_le .current h2 h16
    rw [nextWord_of_length_lt (by omega), chooseSel_of_boundary h2 h15 hu hmax hlow hhigh]
  refine ⟨fun hlen => ?_, fun hlen => ?_⟩
  · have hnext := hnext hlen.ge (by omega)
    obtain ⟨fuel, hfuel⟩ := Nat.exists_eq_add_of_lt hpos
    rw [Nat.zero_add] at hfuel
    have hne : u ≠ [] := List.ne_nil_of_length_pos (by omega)
    rw [encodeStream, hlen, hfuel, encodeFrom_of_covered fuel hne (by rw [hnext, hlen]), hnext,
      List.take_of_length_le hlen.le]
  · have hnext := hnext (by omega) (by omega)
    have hne : u ≠ [] := List.ne_nil_of_length_pos (by omega)
    obtain ⟨x, hx⟩ : ∃ x, u.drop (ncap .current s) = [x] := by
      rw [← List.length_eq_one_iff, List.length_drop]
      omega
    have hx60 : ∀ y ∈ [x], bitlen y ≤ 60 := fun y hy =>
      Nat.le_trans (hu y (List.mem_of_mem_drop (hx ▸ hy))) (bw_bounds h2 h16).2.1
    obtain ⟨fuel, hfuel⟩ := Nat.exists_eq_add_of_lt hpos
    rw [Nat.zero_add] at hfuel
    rw [encodeStream, hlen, encodeFrom_succ _ hne, hnext, hx, hfuel,
      encodeFrom_of_covered fuel (List.cons_ne_nil x []) (nextWord_spec (List.cons_ne_nil x []) hx60).2]
    rfl

end Sys2Proof.Machine
end

section
/-! SUPPORT. ENCODE after its validation pass (41_encode R177, R180; 60_exceptions R279): how far its word emission gets, where it stops, and
the result when it gets to the end. -/

namespace Sys2Proof.Machine

/-! ## Writing words -/

/-- Bytes in a row can be written exactly when those of both parts can. -/
theorem writable_add {map : List Region} {a m n : Nat} :
    writable map a (m + n) ↔ writable map a m ∧ writable map (a + m) n := by
  refine ⟨fun h => ⟨fun i hi => h i (by omega), fun i hi => ?_⟩, fun ⟨hm, hn⟩ i hi => ?_⟩
  · rw [Nat.add_assoc]
    exact h (m + i) (by omega)
  · by_cases him : i < m
    · exact hm i him
    · obtain ⟨j, rfl⟩ := Nat.exists_eq_add_of_le (Nat.le_of_not_lt him)
      rw [← Nat.add_assoc]
      exact hn j (by omega)

theorem memWrite_of_not_writable {map : List Region} {a n : Nat} (h : ¬writable map a n) (m : Memory) (v : Word) :
    memWrite map m a n v = none := by
  rwa [← memWrite_isSome map n a m v, Option.not_isSome_iff_eq_none] at h

/-! ## Word emission -/

section
variable {map : List Region} {dst cap : Nat}

/-- Word emission gets past words that fit the destination and can be written (41_encode R177). -/
theorem emitWords_past (ys : List Word) : ∀ {xs : List Word} {w : Nat} (m : Memory), 8 * (w + xs.length) ≤ cap →
    writable map (dst + 8 * w) (8 * xs.length) →
    ∃ m', emitWords map dst cap (xs ++ ys) w m = emitWords map dst cap ys (w + xs.length) m' := by
  intro xs
  induction xs with
  | nil => intro w m _ _; exact ⟨m, rfl⟩
  | cons x xs ih =>
    intro w m hcap hwrite
    rw [List.length_cons] at hcap
    rw [List.length_cons, Nat.mul_add_one, Nat.add_comm (8 * _), writable_add] at hwrite
    obtain ⟨hfirst, hrest⟩ := hwrite
    obtain ⟨m1, hm1⟩ := Option.isSome_iff_exists.mp ((memWrite_isSome map 8 (dst + 8 * w) m x).mpr hfirst)
    obtain ⟨m', hm'⟩ := ih (w := w + 1) m1 (by omega) hrest
    refine ⟨m', ?_⟩
    rw [List.cons_append, emitWords, if_neg (by omega), hm1, List.length_cons, Nat.add_comm xs.length, ← Nat.add_assoc]
    exact hm'

/-- A word that ends beyond the destination (60_exceptions R274). -/
theorem emitWords_tooSmall (x : Word) (xs : List Word) {w : Nat} (hcap : cap < 8 * (w + 1)) (m : Memory) :
    emitWords map dst cap (x :: xs) w m = .error .destinationTooSmall := by
  rw [emitWords, if_pos hcap]

/-- A word that fits the destination and cannot be written (60_exceptions R278). -/
theorem emitWords_busError (x : Word) (xs : List Word) {w : Nat} (hcap : 8 * (w + 1) ≤ cap)
    (hwrite : ¬writable map (dst + 8 * w) 8) (m : Memory) :
    emitWords map dst cap (x :: xs) w m = .error .busError := by
  rw [emitWords, if_neg (Nat.not_lt.mpr hcap), memWrite_of_not_writable hwrite]

/-- Word emission succeeds when the words fit the destination and can be written (41_encode R177). -/
theorem emitWords_succeeds {xs : List Word} (hcap : 8 * xs.length ≤ cap) (hwrite : writable map dst (8 * xs.length))
    (m : Memory) : ∃ m', emitWords map dst cap xs 0 m = .ok m' := by
  obtain ⟨m', hm'⟩ := emitWords_past [] (w := 0) m (Nat.zero_add xs.length ▸ hcap) hwrite
  rw [List.append_nil] at hm'
  exact ⟨m', hm'⟩

end

/-- Words that read back one by one are the words of a stream (42_decode R200). -/
theorem wordsAt_eq_of_getElem? {m : Memory} {a : Nat} {xs : List Word}
    (h : ∀ i x, xs[i]? = some x → wordAt m (a + 8 * i) = x) : wordsAt m xs.length a = xs := by
  refine List.ext_getElem (wordsAt_length m xs.length a) fun i _ hi => ?_
  simpa [wordsAt] using h i _ (List.getElem?_eq_getElem hi)

/-! ## The command -/

/-- A validation pass over readable elements in range answers the stored values (41_encode R173). -/
theorem validate_srcStored {ew : ElemWidth} {s : State} {top : Nat}
    (hread : readable s.memMap s.srcAddr.toNat (s.srcLen.toNat * ewByteCount ew))
    (hfit : ∀ i < s.srcLen.toNat, bitlen (srcValue ew s i) ≤ top) :
    validate s.memMap s.mem ew s.minv top s.srcLen.toNat s.srcAddr.toNat = .ok (srcStored ew s s.srcLen.toNat) := by
  rw [validate_eq_scanElems, scanElems_ok hread fun i hi => decide_eq_true (hfit i hi)]
  rfl

/-- No values make no words (41_encode R171). -/
theorem srcStored_of_srcLen_eq_zero {s : State} (h : s.srcLen = 0) (ew : ElemWidth) : srcStored ew s s.srcLen.toNat = [] := by
  rw [h]
  rfl

/-- ENCODE whose word emission stops (60_exceptions R280). -/
theorem exec_encode_of_emitWords_error {ew : ElemWidth} {s : State} {e : ErrCode} (hvalid : encodeValidated ew s)
    (hemit : emitWords s.memMap s.dstAddr.toNat s.dstLen.toNat (encodeStream (srcStored ew s s.srcLen.toNat)) 0 s.mem =
      .error e) : ∃ m, exec (.encode ew .current) s = .next (s.failedLate e m) ∧
      agreeOutside (encodeBuffers ew s).dst m s.mem := by
  obtain ⟨hcalm, hlen, hrange, htop, hread, hfit⟩ := hvalid
  have hne : s.srcLen ≠ 0 := fun h0 => by
    rw [srcStored_of_srcLen_eq_zero h0] at hemit
    cases hemit
  have hcheck : encodeCheck ew .current s = none := by simp [encodeCheck, hlen, hrange, Nat.not_lt.mpr htop]
  obtain ⟨hlate, _, hframe⟩ := s.raiseLate_spec (encodeBuffers ew s).dst e
  refine ⟨_, ?_, hframe⟩
  rw [exec_encode_of_calm hcheck hcalm, encodeRun, if_neg hne, validate_srcStored hread hfit, ← hlate]
  simp only [hemit]

/-- ENCODE whose word emission gets to its end, an empty input included (41_encode R171, R180). -/
theorem exec_encode_of_emitWords_ok {ew : ElemWidth} {s : State} {m : Memory} (hready : encodeReady ew s)
    (hemit : emitWords s.memMap s.dstAddr.toNat s.dstLen.toNat (encodeStream (srcStored ew s s.srcLen.toNat)) 0 s.mem =
      .ok m) : exec (.encode ew .current) s =
      .next (s.endedWith (BitVec.ofNat 64 (8 * (encodeStream (srcStored ew s s.srcLen.toNat)).length)) s.word s.mask m) := by
  obtain ⟨hcalm, hlen, hrange, htop, hread, hfit, _⟩ := hready
  by_cases h0 : s.srcLen = 0
  · have hcheck : encodeCheck ew .current s = none := by simp [encodeCheck, hlen, hrange, h0]
    rw [srcStored_of_srcLen_eq_zero h0] at hemit ⊢
    cases hemit
    rw [exec_encode_of_calm hcheck hcalm, encodeRun, if_pos h0]
    rfl
  · have hcheck : encodeCheck ew .current s = none := by
      simp [encodeCheck, hlen, hrange, Nat.not_lt.mpr (htop.resolve_left h0)]
    have hfit : ∀ i < s.srcLen.toNat, bitlen (srcValue ew s i) ≤ maxLog2 ew s := fun i hi =>
      of_decide_eq_true (List.all_eq_true.mp hfit _ (List.mem_map_of_mem (List.mem_range.mpr hi)))
    rw [exec_encode_of_calm hcheck hcalm, encodeRun, if_neg h0, validate_srcStored hread hfit]
    simp only [hemit]
    rfl

/-- Settles O52: the words fit and can be written, so word emission gets to its end, and each word reads back at its place. -/
theorem encodeResult : Obligations.EncodeResult := by
  intro ew s hwf hready
  have ⟨_, _, _, _, _, _, hcap, hwrite⟩ := hready
  obtain ⟨m, hemit⟩ := emitWords_succeeds hcap hwrite s.mem
  obtain ⟨_, hout, hin, _⟩ := emitWords_ok hemit
  refine ⟨m, exec_encode_of_emitWords_ok hready hemit, wordsAt_eq_of_getElem? fun i x hx => ?_, fun a ha => hout a ?_⟩
  · simpa using hin hwf i x hx
  · rw [Span.has_eq_false_iff] at ha
    simpa using ha

/-- ENCODE's word emission up to word `w` of its stream (41_encode R177). -/
theorem emitWords_encodePast {ew : ElemWidth} {s : State} {w : Nat} (hpast : encodePast s w) (hw : w < encodedLength ew s) :
    ∃ x xs m, emitWords s.memMap s.dstAddr.toNat s.dstLen.toNat (encodeStream (srcStored ew s s.srcLen.toNat)) 0 s.mem =
      emitWords s.memMap s.dstAddr.toNat s.dstLen.toNat (x :: xs) w m := by
  obtain ⟨hcap, hwrite⟩ := hpast
  unfold encodedLength at hw
  generalize encodeStream (srcStored ew s s.srcLen.toNat) = words at hw ⊢
  have hlen : (words.take w).length = w := List.length_take_of_le hw.le
  obtain ⟨m, hm⟩ := emitWords_past (map := s.memMap) (dst := s.dstAddr.toNat) (cap := s.dstLen.toNat) (words.drop w)
    (xs := words.take w) (w := 0) s.mem (by rwa [hlen, Nat.zero_add]) (by rwa [hlen])
  rw [List.take_append_drop, hlen, Nat.zero_add, List.drop_eq_getElem_cons hw] at hm
  exact ⟨_, _, m, hm⟩

end Sys2Proof.Machine
end

section
/-! SUPPORT. DECODE and CMP after their checks (42_decode R205, 43_compare R240; 60_exceptions R279): their two loops as one loop over a
stream of code words with the output of a word's values left free, how far that loop gets, and where it stops; with it the late errors of
ENCODE, DECODE and CMP. -/

namespace Sys2Proof.Machine

/-! ## Values at their positions -/

/-- A property of each value and its position, the first value at position `k`. -/
def EachAt (ok : Nat → Word → Prop) (xs : List Word) (k : Nat) : Prop :=
  ∀ i x, xs[i]? = some x → ok (k + i) x

theorem eachAt_nil (ok : Nat → Word → Prop) (k : Nat) : EachAt ok [] k := by
  intro i x hx
  simp at hx

theorem eachAt_cons {ok : Nat → Word → Prop} {x : Word} {xs : List Word} {k : Nat} :
    EachAt ok (x :: xs) k ↔ ok k x ∧ EachAt ok xs (k + 1) := by
  refine ⟨fun h => ⟨h 0 x rfl, fun i y hy => ?_⟩, fun ⟨hx, hxs⟩ i y hy => ?_⟩
  · rw [Nat.add_assoc, Nat.add_comm 1]
    exact h (i + 1) y hy
  · cases i with
    | zero => exact Option.some.inj hy ▸ hx
    | succ i =>
      rw [Nat.add_comm i, ← Nat.add_assoc]
      exact hxs i y hy

theorem eachAt_append {ok : Nat → Word → Prop} {xs ys : List Word} :
    ∀ {k : Nat}, EachAt ok (xs ++ ys) k ↔ EachAt ok xs k ∧ EachAt ok ys (k + xs.length) := by
  induction xs with
  | nil => intro k; simp [eachAt_nil]
  | cons x xs ih =>
    intro k
    rw [List.cons_append, eachAt_cons, eachAt_cons, ih, and_assoc, List.length_cons, Nat.add_comm xs.length, ← Nat.add_assoc]

/-! ## The loop over a stream -/

/-- The loop that DECODE and CMP share, over `n` words from address `a` on with `k` values before them; `put` is the output of a word's
values from a position on (42_decode R205, 43_compare R240). -/
def streamLoop (map : List Region) (fmt : Format) (put : List Word → Nat → Memory → Option Memory) (cap : Nat) :
    (n a k : Nat) → Memory → Except ErrCode (Memory × Nat)
  | 0, _, k, m => .ok (m, k)
  | n + 1, a, k, m =>
    match memRead map m a 8 with
    | none => .error .busError
    | some w =>
      if cap < k + (unpackWord fmt w).length then .error .destinationTooSmall
      else
        match put (unpackWord fmt w) k m with
        | none => .error .busError
        | some m' => streamLoop map fmt put cap n (a + 8) (k + (unpackWord fmt w).length) m'

/-- What the loop needs of the output: it succeeds exactly where the accesses of each value complete, and it stays in a range while its
positions are below the capacity. -/
structure Output (put : List Word → Nat → Memory → Option Memory) (ok : Nat → Word → Prop) (cap : Nat) (dst : Span) :
    Prop where
  isSome_iff : ∀ xs k m, (put xs k m).isSome = true ↔ EachAt ok xs k
  frame : ∀ xs k m m', put xs k m = some m' → k + xs.length ≤ cap → agreeOutside dst m' m

/-- A stream of words in memory, outside a range. -/
structure StreamAt (dst : Span) (m : Memory) (a : Nat) (ws : List Word) : Prop where
  words : wordsAt m ws.length a = ws
  apart : ∀ i < 8 * ws.length, dst.has (a + i) = false

section
variable {dst : Span} {m : Memory} {a : Nat} {w : Word} {ws : List Word}

theorem StreamAt.head (h : StreamAt dst m a (w :: ws)) : wordAt m a = w := by
  have hwords := h.words
  rw [List.length_cons, wordsAt_succ] at hwords
  exact (List.cons.inj hwords).1

/-- What is written in the range leaves the words after the first one as they are. -/
theorem StreamAt.tail (h : StreamAt dst m a (w :: ws)) {m' : Memory} (hframe : agreeOutside dst m' m) :
    StreamAt dst m' (a + 8) ws := by
  obtain ⟨hwords, hapart⟩ := h
  rw [List.length_cons, wordsAt_succ] at hwords
  have hapart' : ∀ i < 8 * ws.length, dst.has (a + 8 + i) = false := fun i hi => by
    rw [Nat.add_assoc]
    exact hapart (8 + i) (by rw [List.length_cons]; omega)
  have hcongr : wordsAt m' ws.length (a + 8) = wordsAt m ws.length (a + 8) :=
    List.map_congr_left fun j hj => wordAt_congr fun i hi => by
      have hj := List.mem_range.mp hj
      rw [Nat.add_assoc (a + 8)]
      exact hframe _ (hapart' _ (by omega))
  exact ⟨hcongr.trans (List.cons.inj hwords).2, hapart'⟩

end

theorem memRead_word_of_readable {map : List Region} {a : Nat} (h : readable map a 8) (m : Memory) :
    memRead map m a 8 = some (wordAt m a) := by
  obtain ⟨w, hw⟩ := Option.isSome_iff_exists.mp ((memRead_isSome map m 8 a).mpr h)
  rw [hw, wordAt_of_memRead hw]

theorem streamValues_append (fmt : Format) (ws vs : List Word) :
    streamValues fmt (ws ++ vs) = streamValues fmt ws ++ streamValues fmt vs :=
  List.flatMap_append

theorem countValues_append (fmt : Format) (ws vs : List Word) :
    countValues fmt (ws ++ vs) = countValues fmt ws + countValues fmt vs := by
  rw [← streamValues_length, streamValues_append, List.length_append, streamValues_length, streamValues_length]

/-- The loop has passed the first `w` words of a stream at `a`: they can be read, and their values fit and their accesses complete. -/
structure StreamPast (map : List Region) (fmt : Format) (ok : Nat → Word → Prop) (cap a : Nat) (ws : List Word) (w : Nat) :
    Prop where
  read : readable map a (8 * w)
  fit : countValues fmt (ws.take w) ≤ cap
  access : EachAt ok (streamValues fmt (ws.take w)) 0

section
variable {map : List Region} {fmt : Format} {put : List Word → Nat → Memory → Option Memory} {ok : Nat → Word → Prop}
  {cap : Nat} {dst : Span}

/-- A word that cannot be read (60_exceptions R278). -/
theorem streamLoop_of_not_readable {a : Nat} (h : ¬readable map a 8) (n k : Nat) (m : Memory) :
    streamLoop map fmt put cap (n + 1) a k m = .error .busError := by
  rw [streamLoop, memRead_of_not_readable h]

/-- A word that can be read and whose values end beyond the destination (60_exceptions R274). -/
theorem streamLoop_of_tooSmall {a k : Nat} {m : Memory} (hread : readable map a 8)
    (hcap : cap < k + (unpackWord fmt (wordAt m a)).length) (n : Nat) :
    streamLoop map fmt put cap (n + 1) a k m = .error .destinationTooSmall := by
  rw [streamLoop, memRead_word_of_readable hread]
  exact if_pos hcap

/-- A word whose values fit and whose output fails (60_exceptions R278). -/
theorem streamLoop_of_refused {a k : Nat} {m : Memory} (hcap : k + (unpackWord fmt (wordAt m a)).length ≤ cap)
    (hput : put (unpackWord fmt (wordAt m a)) k m = none) (n : Nat) :
    streamLoop map fmt put cap (n + 1) a k m = .error .busError := by
  by_cases hread : readable map a 8
  · rw [streamLoop, memRead_word_of_readable hread]
    dsimp only
    rw [if_neg (Nat.not_lt.mpr hcap), hput]
  · exact streamLoop_of_not_readable hread n k m

/-- A word that can be read, and whose values fit and are output (42_decode R205, 43_compare R240). -/
theorem streamLoop_of_put {a k : Nat} {m m' : Memory} (hread : readable map a 8)
    (hcap : k + (unpackWord fmt (wordAt m a)).length ≤ cap) (hput : put (unpackWord fmt (wordAt m a)) k m = some m') (n : Nat) :
    streamLoop map fmt put cap (n + 1) a k m =
      streamLoop map fmt put cap n (a + 8) (k + (unpackWord fmt (wordAt m a)).length) m' := by
  rw [streamLoop, memRead_word_of_readable hread]
  dsimp only
  rw [if_neg (Nat.not_lt.mpr hcap), hput]

/-- The loop gets past words that can be read, whose values fit and whose accesses complete, with the words after them unchanged. -/
theorem streamLoop_past (hout : Output put ok cap dst) (zs : List Word) : ∀ {ys : List Word} {a k : Nat} {m : Memory},
    StreamAt dst m a (ys ++ zs) → readable map a (8 * ys.length) → k + countValues fmt ys ≤ cap →
    EachAt ok (streamValues fmt ys) k →
    ∃ m', StreamAt dst m' (a + 8 * ys.length) zs ∧ streamLoop map fmt put cap (ys ++ zs).length a k m =
      streamLoop map fmt put cap zs.length (a + 8 * ys.length) (k + countValues fmt ys) m' := by
  intro ys
  induction ys with
  | nil => intro a k m hs _ _ _; exact ⟨m, hs, rfl⟩
  | cons y ys ih =>
    intro a k m hs hread hcap hok
    rw [List.cons_append] at hs
    rw [List.length_cons, Nat.mul_add_one, Nat.add_comm, readable_add] at hread
    rw [countValues_cons, ← unpackWord_length, ← Nat.add_assoc] at hcap
    rw [streamValues_cons, eachAt_append] at hok
    obtain ⟨hread, hreads⟩ := hread
    obtain ⟨hok, hoks⟩ := hok
    obtain ⟨m1, hm1⟩ := Option.isSome_iff_exists.mp ((hout.isSome_iff _ _ m).mpr hok)
    have hcap1 : k + (unpackWord fmt y).length ≤ cap := by omega
    obtain ⟨m', hs', hloop⟩ := ih (hs.tail (hout.frame _ _ _ _ hm1 hcap1)) hreads hcap hoks
    rw [← hs.head] at hm1 hcap1
    refine ⟨m', ?_, ?_⟩
    · rwa [List.length_cons, Nat.mul_add_one, Nat.add_comm (8 * _), ← Nat.add_assoc]
    · rw [List.cons_append, List.length_cons, streamLoop_of_put hread hcap1 hm1, hs.head, hloop, List.length_cons,
        Nat.mul_add_one, Nat.add_comm (8 * _), ← Nat.add_assoc, countValues_cons, ← unpackWord_length, ← Nat.add_assoc]

section
variable {m : Memory} {a w : Nat} {ws : List Word} (hout : Output put ok cap dst) (hs : StreamAt dst m a ws) (hw : w < ws.length)
  (hpast : StreamPast map fmt ok cap a ws w)
include hout hs hw hpast

/-- The loop that has passed `w` words stands before word `w`, which memory still holds. -/
theorem streamLoop_reaches : ∃ n m', wordAt m' (a + 8 * w) = ws[w] ∧ streamLoop map fmt put cap ws.length a 0 m =
    streamLoop map fmt put cap (n + 1) (a + 8 * w) (countValues fmt (ws.take w)) m' := by
  obtain ⟨hread, hfit, haccess⟩ := hpast
  have hlen : (ws.take w).length = w := List.length_take_of_le hw.le
  rw [← List.take_append_drop w ws] at hs
  obtain ⟨m', hs', hloop⟩ := streamLoop_past hout (ws.drop w) hs (by rwa [hlen]) (by rwa [Nat.zero_add]) haccess
  rw [hlen, List.drop_eq_getElem_cons hw] at hs'
  rw [List.take_append_drop, hlen, Nat.zero_add, List.drop_eq_getElem_cons hw] at hloop
  exact ⟨_, m', hs'.head, hloop⟩

/-- The loop ends at the first word whose values end beyond the destination, when it can be read (60_exceptions R274, R279). -/
theorem streamLoop_tooSmall_at (hread : readable map (a + 8 * w) 8) (hcap : cap < countValues fmt (ws.take (w + 1))) :
    streamLoop map fmt put cap ws.length a 0 m = .error .destinationTooSmall := by
  obtain ⟨n, m', hword, hloop⟩ := streamLoop_reaches hout hs hw hpast
  rw [← List.take_append_getElem hw, countValues_append, ← hword] at hcap
  rw [hloop]
  exact streamLoop_of_tooSmall hread (by simpa using hcap) n

/-- The loop ends at the first word that needs a refused access, its read or one of its values' when they fit (60_exceptions R278,
R279). -/
theorem streamLoop_busError_at (hrefused : ¬readable map (a + 8 * w) 8 ∨
    countValues fmt (ws.take (w + 1)) ≤ cap ∧ ¬EachAt ok (streamValues fmt (ws.take (w + 1))) 0) :
    streamLoop map fmt put cap ws.length a 0 m = .error .busError := by
  obtain ⟨n, m', hword, hloop⟩ := streamLoop_reaches hout hs hw hpast
  rw [hloop]
  rcases hrefused with hread | ⟨hcap, haccess⟩
  · exact streamLoop_of_not_readable hread n _ m'
  · rw [← List.take_append_getElem hw, countValues_append, ← hword] at hcap
    rw [← List.take_append_getElem hw, streamValues_append, eachAt_append, Nat.zero_add, streamValues_length,
      ← hword] at haccess
    have hput := not_and.mp haccess hpast.access
    rw [streamValues_cons, streamValues_nil, List.append_nil, ← hout.isSome_iff _ _ m', Option.not_isSome_iff_eq_none] at hput
    exact streamLoop_of_refused (by simpa using hcap) hput n

end

end

/-! ## The loops of DECODE and CMP -/

/-- DECODE's output of a word's values, the first as element `c` (42_decode R201). -/
def decodePut (map : List Region) (ew : ElemWidth) (minv : Word) (dst : Nat) (xs : List Word) (c : Nat) (m : Memory) :
    Option Memory :=
  writeElems map ew minv xs (dst + c * ewByteCount ew) m

/-- Element `j` of DECODE's destination can be written. -/
def decodeOk (map : List Region) (ew : ElemWidth) (dst j : Nat) (_ : Word) : Prop :=
  writable map (dst + j * ewByteCount ew) (ewByteCount ew)

/-- CMP's output of a word's values, the first at position `k` (43_compare R231). -/
def cmpPut (map : List Region) (q : CmpArgs) (dst : Nat) (xs : List Word) (k : Nat) (m : Memory) : Option Memory :=
  setHits map dst (xs.map fun x => predHolds q.pred x q.a q.b) k m

/-- The bitset byte of position `j` can be read and written if the value there is a hit (43_compare R233). -/
def cmpOk (map : List Region) (q : CmpArgs) (dst j : Nat) (x : Word) : Prop :=
  predHolds q.pred x q.a q.b = true → memOk map (dst + j / 8) .read = true ∧ memOk map (dst + j / 8) .write = true

theorem decodeLoop_eq_streamLoop (map : List Region) (fmt : Format) (ew : ElemWidth) (minv : Word) (dst cap : Nat) :
    ∀ (n a c : Nat) (m : Memory), decodeLoop map fmt ew minv dst cap n a c m =
      streamLoop map fmt (decodePut map ew minv dst) cap n a c m
  | 0, _, _, _ => rfl
  | n + 1, a, c, m => by
    rw [decodeLoop, streamLoop]
    cases memRead map m a 8 with
    | none => rfl
    | some w =>
      dsimp only [decodePut]
      cases writeElems map ew minv (unpackWord fmt w) (dst + c * ewByteCount ew) m with
      | none => rfl
      | some m1 => simp only [decodeLoop_eq_streamLoop map fmt ew minv dst cap n]

/-- A word's result bits are the predicate on each of its values (43_compare R231). -/
theorem wordHits_eq_map (fmt : Format) (p : Pred) (w a b : Word) :
    wordHits fmt p w a b = (unpackWord fmt w).map fun x => predHolds p x a b := by
  obtain ⟨hcount, hbit⟩ := kernelCorrectness fmt p w a b
  refine List.ext_getElem (by simp) fun i _ hi => ?_
  rw [List.length_map] at hi
  simp [wordHits, hbit i _ (List.getElem?_eq_getElem hi)]

theorem cmpLoop_eq_streamLoop (map : List Region) (q : CmpArgs) (dst cap : Nat) :
    ∀ (n a k : Nat) (m : Memory), cmpLoop map q dst cap n a k m = streamLoop map q.fmt (cmpPut map q dst) cap n a k m
  | 0, _, _, _ => rfl
  | n + 1, a, k, m => by
    rw [cmpLoop, streamLoop]
    cases memRead map m a 8 with
    | none => rfl
    | some w =>
      simp only [cmpPut, CmpArgs.hits, wordHits_eq_map, List.length_map]
      cases setHits map dst ((unpackWord q.fmt w).map fun x => predHolds q.pred x q.a q.b) k m with
      | none => rfl
      | some m1 => simp only [cmpLoop_eq_streamLoop map q dst cap n]

/-- Elements in a row can be written exactly when each of them can. -/
theorem eachAt_decodeOk_iff {map : List Region} {ew : ElemWidth} {dst : Nat} : ∀ {xs : List Word} {c : Nat},
    EachAt (decodeOk map ew dst) xs c ↔ writable map (dst + c * ewByteCount ew) (xs.length * ewByteCount ew) := by
  intro xs
  induction xs with
  | nil => intro c; simp [eachAt_nil, writable]
  | cons x xs ih =>
    intro c
    rw [eachAt_cons, ih, List.length_cons, Nat.add_one_mul c, Nat.add_one_mul xs.length, Nat.add_comm (xs.length * _),
      writable_add, Nat.add_assoc]
    rfl

/-- Element writes complete exactly when the elements' bytes can be written (42_decode R202). -/
theorem writeElems_isSome (map : List Region) (ew : ElemWidth) (minv : Word) : ∀ (xs : List Word) (a : Nat) (m : Memory),
    (writeElems map ew minv xs a m).isSome = true ↔ writable map a (xs.length * ewByteCount ew)
  | [], a, m => by simp [writeElems, writable]
  | x :: xs, a, m => by
    rw [writeElems, List.length_cons, Nat.add_one_mul, Nat.add_comm (xs.length * _), writable_add,
      ← memWrite_isSome map (ewByteCount ew) a m (forAdd x minv ew)]
    cases memWrite map m a (ewByteCount ew) (forAdd x minv ew) with
    | none => simp
    | some m1 => simp [writeElems_isSome map ew minv xs (a + ewByteCount ew) m1]

/-- DECODE's output writes each value in its element of the destination (42_decode R201, R203). -/
theorem decodePut_output (map : List Region) (ew : ElemWidth) (minv : Word) (dst cap : Nat) :
    Output (decodePut map ew minv dst) (decodeOk map ew dst) cap ⟨dst, cap * ewByteCount ew⟩ := by
  refine ⟨fun xs c m => (writeElems_isSome map ew minv xs _ m).trans eachAt_decodeOk_iff.symm,
    fun xs c m m' hput hcap x hx => ?_⟩
  obtain ⟨_, hframe, _⟩ := writeElems_some hput
  have hle : c * ewByteCount ew + xs.length * ewByteCount ew ≤ cap * ewByteCount ew := by
    rw [← Nat.add_mul]
    exact Nat.mul_le_mul_right _ hcap
  rw [Span.has_eq_false_iff] at hx
  dsimp only at hx
  exact hframe x (by omega)

/-- A bit can be set exactly when its byte can be read and written (43_compare R232). -/
theorem setBit_isSome (map : List Region) (base j : Nat) (m : Memory) : (setBit map base j m).isSome = true ↔
    memOk map (base + j / 8) .read = true ∧ memOk map (base + j / 8) .write = true := by
  have hread : readable map (base + j / 8) 1 ↔ memOk map (base + j / 8) .read = true := by simp [readable]
  have hwrite : writable map (base + j / 8) 1 ↔ memOk map (base + j / 8) .write = true := by simp [writable]
  rw [setBit, ← hread, ← hwrite, ← memRead_isSome map m 1]
  cases memRead map m (base + j / 8) 1 with
  | none => simp
  | some b => simp [memWrite_isSome map 1 (base + j / 8) m]

/-- A word's bits can be set exactly when the bytes of its hits can be read and written (43_compare R233). -/
theorem setHits_isSome (map : List Region) (q : CmpArgs) (dst : Nat) : ∀ (xs : List Word) (k : Nat) (m : Memory),
    (setHits map dst (xs.map fun x => predHolds q.pred x q.a q.b) k m).isSome = true ↔ EachAt (cmpOk map q dst) xs k
  | [], k, m => by simp [setHits, eachAt_nil]
  | x :: xs, k, m => by
    rw [eachAt_cons, cmpOk, List.map_cons]
    cases predHolds q.pred x q.a q.b with
    | false => simpa [setHits] using setHits_isSome map q dst xs (k + 1) m
    | true =>
      rw [setHits, ← setBit_isSome map dst k m]
      cases setBit map dst k m with
      | none => simp
      | some m1 => simpa using setHits_isSome map q dst xs (k + 1) m1

/-- CMP's output sets the bits of the hits among its positions (43_compare R232, R233). -/
theorem cmpPut_output (map : List Region) (q : CmpArgs) (dst cap : Nat) :
    Output (cmpPut map q dst) (cmpOk map q dst) cap ⟨dst, ceilDiv cap 8⟩ := by
  refine ⟨setHits_isSome map q dst, fun xs k m m' hput hcap x hx => ?_⟩
  obtain ⟨_, hframe, _⟩ := setHits_some hput
  rw [Span.has_eq_false_iff] at hx
  dsimp only at hx
  refine hframe x fun i hi => ?_
  have hlt := (List.getElem?_eq_some_iff.mp hi).1
  rw [List.length_map] at hlt
  have : (k + i) / 8 < ceilDiv cap 8 := ceilDiv_lt (by omega)
  omega

/-! ## The commands -/

theorem srcWords_length (s : State) : (srcWords s).length = s.srcLen.toNat / 8 :=
  wordsAt_length _ _ _

/-- A stream whose range check has passed lies outside the destination (20_memory R62). -/
theorem streamAt_srcWords {b : Buffers} {s : State} (hchecks : streamChecks b s)
    (hsrc : b.src = ⟨s.srcAddr.toNat, s.srcLen.toNat⟩) : StreamAt b.dst s.mem s.srcAddr.toNat (srcWords s) := by
  obtain ⟨_, _, hrange⟩ := hchecks
  obtain ⟨_, _, hdisjoint⟩ := Buffers.badRange_eq_false hrange
  refine ⟨by rw [srcWords_length]; rfl, fun i hi => hdisjoint _ ?_⟩
  rw [srcWords_length] at hi
  rw [hsrc, Span.has_iff]
  dsimp only
  omega

theorem exec_decode_of_checks {ew : ElemWidth} {s : State} (hchecks : streamChecks (decodeBuffers ew s) s) (fmt : Format) :
    exec (.decode ew fmt) s = .next (decodeRun ew fmt s) := by
  obtain ⟨hcalm, hlen, hrange⟩ := hchecks
  have hcheck : decodeCheck ew s = none := by simp [decodeCheck, hlen, hrange]
  change execDecode ew fmt s = _
  rw [execDecode, hcheck]
  exact State.onBuffers_of_calm hcalm _ _ _

theorem exec_cmpInstr_of_checks {s : State} (hchecks : streamChecks (cmpBuffers s) s) (p : Pred) (fmt : Format) :
    exec (cmpInstr p fmt) s = .next (cmpRun p fmt s) := by
  obtain ⟨hcalm, hlen, hrange⟩ := hchecks
  have hcheck : cmpCheck s = none := by simp [cmpCheck, hlen, hrange]
  rw [exec_cmpInstr, compareStream, hcheck]
  exact State.onBuffers_of_calm hcalm _ _ _

/-- DECODE whose loop stops (60_exceptions R280). -/
theorem exec_decode_of_streamLoop_error {ew : ElemWidth} {fmt : Format} {s : State} {e : ErrCode}
    (hchecks : streamChecks (decodeBuffers ew s) s)
    (hloop : streamLoop s.memMap fmt (decodePut s.memMap ew s.minv s.dstAddr.toNat) s.dstLen.toNat (srcWords s).length
      s.srcAddr.toNat 0 s.mem = .error e) :
    ∃ m, exec (.decode ew fmt) s = .next (s.failedLate e m) ∧ agreeOutside (decodeBuffers ew s).dst m s.mem := by
  obtain ⟨hlate, _, hframe⟩ := s.raiseLate_spec (decodeBuffers ew s).dst e
  refine ⟨_, ?_, hframe⟩
  rw [srcWords_length, ← decodeLoop_eq_streamLoop] at hloop
  rw [exec_decode_of_checks hchecks, decodeRun, hloop, ← hlate]

/-- CMP whose loop stops (60_exceptions R280). -/
theorem exec_cmpInstr_of_streamLoop_error {p : Pred} {fmt : Format} {s : State} {e : ErrCode}
    (hchecks : streamChecks (cmpBuffers s) s)
    (hloop : streamLoop s.memMap fmt (cmpPut s.memMap (cmpArgs p fmt s) s.dstAddr.toNat) s.dstLen.toNat (srcWords s).length
      s.srcAddr.toNat 0 s.mem = .error e) :
    ∃ m, exec (cmpInstr p fmt) s = .next (s.failedLate e m) ∧ agreeOutside (cmpBuffers s).dst m s.mem := by
  obtain ⟨_, _, hframe⟩ := s.scrambleHits_spec (cmpBuffers s).dst
    (streamHits (cmpArgs p fmt s) s.mem (s.srcLen.toNat / 8) s.srcAddr.toNat)
  have hloop := (cmpLoop_eq_streamLoop s.memMap (cmpArgs p fmt s) s.dstAddr.toNat s.dstLen.toNat _ _ _ _).trans hloop
  rw [srcWords_length] at hloop
  refine ⟨_, ?_, hframe⟩
  rw [exec_cmpInstr_of_checks hchecks, cmpRun, hloop]
  rfl

/-! ## How far the commands get -/

/-- The elements of the first `w` words can be written exactly when those of each value can. -/
theorem eachAt_decodeOk_countBefore (ew : ElemWidth) (fmt : Format) (s : State) (w : Nat) :
    EachAt (decodeOk s.memMap ew s.dstAddr.toNat) (streamValues fmt ((srcWords s).take w)) 0 ↔
      writable s.memMap s.dstAddr.toNat (countBefore fmt s w * ewByteCount ew) := by
  rw [eachAt_decodeOk_iff, Nat.zero_mul, Nat.add_zero, streamValues_length]
  rfl

/-- A position of the first `w` words is a hit exactly when the predicate holds of the value there. -/
theorem srcHit_eq_of_take {p : Pred} {fmt : Format} {s : State} {w j : Nat} {x : Word}
    (hx : (streamValues fmt ((srcWords s).take w))[j]? = some x) : srcHit p fmt s j = predHolds p x s.opa s.opb := by
  have hlt := (List.getElem?_eq_some_iff.mp hx).1
  rw [srcHit, ← List.take_append_drop w (srcWords s), streamValues_append, List.getElem?_append_left hlt, hx]

/-- The bitset bytes of the hits of the first `w` words can be accessed exactly when those of each value can. -/
theorem eachAt_cmpOk_countBefore (p : Pred) (fmt : Format) (s : State) (w : Nat) :
    EachAt (cmpOk s.memMap (cmpArgs p fmt s) s.dstAddr.toNat) (streamValues fmt ((srcWords s).take w)) 0 ↔
      hitsAccessible p fmt s (countBefore fmt s w) := by
  refine ⟨fun h j hj hhit => ?_, fun h j x hx hhit => ?_⟩
  · rw [countBefore, ← streamValues_length] at hj
    have hx := List.getElem?_eq_getElem hj
    rw [srcHit_eq_of_take hx] at hhit
    simpa using h j _ hx hhit
  · rw [Nat.zero_add]
    refine h j ?_ ((srcHit_eq_of_take hx).trans hhit)
    rw [countBefore, ← streamValues_length]
    exact (List.getElem?_eq_some_iff.mp hx).1

theorem streamPast_of_decodePast {ew : ElemWidth} {fmt : Format} {s : State} {w : Nat} (h : decodePast ew fmt s w) :
    StreamPast s.memMap fmt (decodeOk s.memMap ew s.dstAddr.toNat) s.dstLen.toNat s.srcAddr.toNat (srcWords s) w := by
  obtain ⟨hread, hfit, hwrite⟩ := h
  exact ⟨hread, hfit, (eachAt_decodeOk_countBefore ew fmt s w).mpr hwrite⟩

theorem streamPast_of_cmpPast {p : Pred} {fmt : Format} {s : State} {w : Nat} (h : cmpPast p fmt s w) :
    StreamPast s.memMap fmt (cmpOk s.memMap (cmpArgs p fmt s) s.dstAddr.toNat) s.dstLen.toNat s.srcAddr.toNat (srcWords s) w := by
  obtain ⟨hread, hfit, haccess⟩ := h
  exact ⟨hread, hfit, (eachAt_cmpOk_countBefore p fmt s w).mpr haccess⟩

/-- Settles O32: each loop gets past the words before word `w` and stops there at its capacity check. -/
theorem destinationTooSmall : Obligations.DestinationTooSmall := by
  refine ⟨fun ew s w hvalid hpast hw hcap => ?_, fun ew fmt s w hchecks hw hpast hread hcap => ?_,
    fun p fmt s w hchecks hw hpast hread hcap => ?_⟩
  · obtain ⟨x, xs, m, hemit⟩ := emitWords_encodePast hpast hw
    exact exec_encode_of_emitWords_error hvalid (hemit.trans (emitWords_tooSmall x xs hcap m))
  · rw [← srcWords_length] at hw
    exact exec_decode_of_streamLoop_error hchecks (streamLoop_tooSmall_at (decodePut_output _ _ _ _ _)
      (streamAt_srcWords hchecks rfl) hw (streamPast_of_decodePast hpast) hread hcap)
  · rw [← srcWords_length] at hw
    exact exec_cmpInstr_of_streamLoop_error hchecks (streamLoop_tooSmall_at (cmpPut_output _ _ _ _)
      (streamAt_srcWords hchecks rfl) hw (streamPast_of_cmpPast hpast) hread hcap)

/-- Settles O34: each loop gets past the words before word `w` and stops there at the refused access. -/
theorem busErrorAfterWrites : Obligations.BusErrorAfterWrites := by
  refine ⟨fun ew s w hvalid hpast hw hcap hwrite => ?_, fun ew fmt s w hchecks hw hpast hrefused => ?_,
    fun p fmt s w hchecks hw hpast hrefused => ?_⟩
  · obtain ⟨x, xs, m, hemit⟩ := emitWords_encodePast hpast hw
    rw [Nat.mul_add_one, writable_add] at hwrite
    exact exec_encode_of_emitWords_error hvalid (hemit.trans (emitWords_busError x xs hcap (not_and.mp hwrite hpast.2) m))
  · rw [← srcWords_length] at hw
    rw [← eachAt_decodeOk_countBefore] at hrefused
    exact exec_decode_of_streamLoop_error hchecks (streamLoop_busError_at (decodePut_output _ _ _ _ _)
      (streamAt_srcWords hchecks rfl) hw (streamPast_of_decodePast hpast) hrefused)
  · rw [← srcWords_length] at hw
    rw [← eachAt_cmpOk_countBefore] at hrefused
    exact exec_cmpInstr_of_streamLoop_error hchecks (streamLoop_busError_at (cmpPut_output _ _ _ _)
      (streamAt_srcWords hchecks rfl) hw (streamPast_of_cmpPast hpast) hrefused)

end Sys2Proof.Machine
end

section
/-! SUPPORT. DECODE and COUNT when they get to their end (42_decode R200 to R206): the loop over a stream whose outputs join up to
one output of all its values, COUNT's sum of capacities, and the results of the two commands. -/

namespace Sys2Proof.Machine

/-! ## The loop over a stream, to its end -/

/-- Outputs that join up: no values write nothing, and the output of two lists in a row is that of the first, then that of the second at the
positions after it. -/
structure Joins (put : List Word → Nat → Memory → Option Memory) : Prop where
  nil : ∀ k m, put [] k m = some m
  append : ∀ xs ys k m, put (xs ++ ys) k m = (put xs k m).bind (put ys (k + xs.length))

/-- Over a stream that can be read and whose values fit, the loop answers the memory of one output of all the stream's values, and their
number (42_decode R203, R205, 43_compare R240). -/
theorem streamLoop_ok {map : List Region} {fmt : Format} {put : List Word → Nat → Memory → Option Memory}
    {ok : Nat → Word → Prop} {cap : Nat} {dst : Span} (hout : Output put ok cap dst) (hjoins : Joins put) :
    ∀ {ws : List Word} {a k : Nat} {m m' : Memory}, StreamAt dst m a ws → readable map a (8 * ws.length) →
      k + countValues fmt ws ≤ cap → put (streamValues fmt ws) k m = some m' →
      streamLoop map fmt put cap ws.length a k m = .ok (m', k + countValues fmt ws) := by
  intro ws
  induction ws with
  | nil =>
    intro a k m m' _ _ _ hput
    rw [streamValues_nil, hjoins.nil] at hput
    cases hput
    rfl
  | cons w ws ih =>
    intro a k m m' hs hread hcap hput
    rw [List.length_cons, Nat.mul_add_one, Nat.add_comm, readable_add] at hread
    rw [countValues_cons, ← unpackWord_length, ← Nat.add_assoc] at hcap ⊢
    rw [streamValues_cons, hjoins.append, Option.bind_eq_some_iff] at hput
    obtain ⟨hfirst, hrest⟩ := hread
    obtain ⟨m1, hput1, hputs⟩ := hput
    have hcap1 : k + (unpackWord fmt w).length ≤ cap := by omega
    have hs1 := hs.tail (hout.frame _ _ _ _ hput1 hcap1)
    rw [← hs.head] at hput1 hcap1
    rw [List.length_cons, streamLoop_of_put hfirst hcap1 hput1, hs.head]
    exact ih hs1 hrest hcap hputs

/-! ## DECODE -/

theorem writeElems_append (map : List Region) (ew : ElemWidth) (minv : Word) (ys : List Word) :
    ∀ (xs : List Word) (a : Nat) (m : Memory), writeElems map ew minv (xs ++ ys) a m =
      (writeElems map ew minv xs a m).bind (writeElems map ew minv ys (a + xs.length * ewByteCount ew))
  | [], a, m => by simp [writeElems]
  | x :: xs, a, m => by
    rw [List.cons_append, writeElems, writeElems, List.length_cons, Nat.add_one_mul, Nat.add_comm (xs.length * _),
      ← Nat.add_assoc]
    cases memWrite map m a (ewByteCount ew) (forAdd x minv ew) with
    | none => rfl
    | some m1 => exact writeElems_append map ew minv ys xs (a + ewByteCount ew) m1

/-- DECODE writes the elements of a word right after those of the word before it (42_decode R201). -/
theorem decodePut_joins (map : List Region) (ew : ElemWidth) (minv : Word) (dst : Nat) : Joins (decodePut map ew minv dst) := by
  refine ⟨fun k m => rfl, fun xs ys k m => ?_⟩
  rw [decodePut, writeElems_append, Nat.add_assoc, ← Nat.add_mul]
  rfl

/-- DECODE that completes leaves the memory of one run of element writes over all stored values (42_decode R201, R205). -/
theorem exec_decode_of_writeElems {ew : ElemWidth} {fmt : Format} {s : State} {m : Memory} (hready : decodeReady ew fmt s)
    (hwrites : writeElems s.memMap ew s.minv (streamValues fmt (srcWords s)) s.dstAddr.toNat s.mem = some m) :
    exec (.decode ew fmt) s =
      .next (s.endedWith (BitVec.ofNat 64 (countValues fmt (srcWords s))) s.word s.mask m) := by
  obtain ⟨⟨hchecks, hread⟩, hcap, _⟩ := hready
  have ⟨_, hlen, _⟩ := hchecks
  have hput : decodePut s.memMap ew s.minv s.dstAddr.toNat (streamValues fmt (srcWords s)) 0 s.mem = some m := by
    rwa [decodePut, Nat.zero_mul, Nat.add_zero]
  have hread : readable s.memMap s.srcAddr.toNat (8 * (srcWords s).length) := by
    rwa [srcWords_length, Nat.mul_div_cancel' (Nat.dvd_of_mod_eq_zero hlen)]
  have hloop := streamLoop_ok (decodePut_output s.memMap ew s.minv s.dstAddr.toNat s.dstLen.toNat)
    (decodePut_joins s.memMap ew s.minv s.dstAddr.toNat) (streamAt_srcWords hchecks rfl) hread
    ((Nat.zero_add _).trans_le hcap) hput
  rw [srcWords_length, ← decodeLoop_eq_streamLoop, Nat.zero_add] at hloop
  rw [exec_decode_of_checks hchecks, decodeRun, hloop, ← State.endedWith_of_withMem]

/-- Settles O45: the elements can be written, so the loop gets to its end, and what it leaves is that of the element writes of all stored
values. -/
theorem decodeResult : Obligations.DecodeResult := by
  intro ew fmt s hwf hready
  have ⟨_, _, hwrite⟩ := hready
  rw [← streamValues_length, ← writeElems_isSome s.memMap ew s.minv _ _ s.mem, Option.isSome_iff_exists] at hwrite
  obtain ⟨m, hm⟩ := hwrite
  obtain ⟨_, hframe, helems⟩ := writeElems_some hm
  refine ⟨m, exec_decode_of_writeElems hready hm, helems hwf, fun a ha => hframe a ?_⟩
  rwa [streamValues_length, ← Span.has_eq_false_iff ⟨s.dstAddr.toNat, _⟩]

/-! ## COUNT -/

/-- The count loop whose reads of byte 7 complete adds the capacities of its words, modulo 2^64 (42_decode R204, R206). -/
theorem countLoop_ok {map : List Region} {mem : Memory} {fmt : Format} : ∀ {n a : Nat} (c : Word),
    (∀ w < n, memOk map (a + 8 * w + 7) .read = true) →
    countLoop map mem fmt n a c = .ok (c + BitVec.ofNat 64 (countValues fmt (wordsAt mem n a))) := by
  intro n
  induction n with
  | zero => intro a c _; simp [countLoop]
  | succ n ih =>
    intro a c hread
    have hfirst : memOk map (a + 7) .read = true := hread 0 n.succ_pos
    have hrest : ∀ w < n, memOk map (a + 8 + 8 * w + 7) .read = true := fun w hw => by
      rw [show a + 8 + 8 * w = a + 8 * (w + 1) by omega]
      exact hread (w + 1) (Nat.succ_lt_succ hw)
    have hsel : (((mem.read (a + 7)).setWidth 64) >>> 4).toNat = selOf (wordAt mem a) := by
      rw [selOf_wordAt (memOk_lt hfirst), BitVec.toNat_ushiftRight, BitVec.toNat_setWidth_of_le (by omega)]
    rw [countLoop, memRead_one hfirst]
    dsimp only
    rw [hsel, ih _ hrest, wordsAt_succ, countValues_cons, BitVec.ofNat_add, BitVec.add_assoc]

/-- Settles O44: every read of a byte 7 completes, so the count loop gets to its end. -/
theorem countResult : Obligations.CountResult := by
  intro fmt s ⟨hcalm, hlen, hrange, hread⟩
  have hcheck : countCheck s = none := by simp [countCheck, hlen, hrange]
  rw [exec_count_of_calm hcheck hcalm, countRun, countLoop_ok _ hread, zero_add]
  rfl

end Sys2Proof.Machine
end

section
/-! SUPPORT. The bitset of CMP as a set of bits (43_compare R232, R233, R235, R236): what it means that an operation sets bits where it can
access their bytes, that this decides its memory, and which bits each of the model's operations sets. -/

namespace Sys2Proof.Machine

/-! ## Setting the bits of a predicate -/

/-- The bitset byte of every position of `P` can be read and written (43_compare R233). -/
abbrev BitsAccessible (map : List Region) (base : Nat) (P : Nat → Bool) : Prop :=
  ∀ j, P j = true → memOk map (base + j / 8) .read = true ∧ memOk map (base + j / 8) .write = true

/-- `m'` is `m`, in canonical form, with the bits of `P` set in the bitset at `base` (43_compare R232). -/
structure BitsSet (base : Nat) (P : Nat → Bool) (m m' : Memory) : Prop where
  wf : m'.wf
  bit : ∀ j, bitAt m' base j = (bitAt m base j || P j)
  below : ∀ a < base, m'.read a = m.read a

/-- `o` is the outcome of setting the bits of `P`: it succeeds exactly where their bytes can be accessed (43_compare R233). -/
structure SetsBits (map : List Region) (base : Nat) (P : Nat → Bool) (m : Memory) (o : Option Memory) : Prop where
  isSome_iff : o.isSome = true ↔ BitsAccessible map base P
  bitsSet : ∀ m', o = some m' → BitsSet base P m m'

theorem bitAt_mul_add (m : Memory) (base q : Nat) {i : Nat} (hi : i < 8) :
    bitAt m base (8 * q + i) = (m.read (base + q)).getLsbD i := by
  rw [bitAt, show (8 * q + i) / 8 = q by omega, show (8 * q + i) % 8 = i by omega]

section
variable {map : List Region} {base : Nat} {P Q : Nat → Bool} {m m1 m' : Memory}

/-- A byte without a position of `P` is left alone (43_compare R233, R236). -/
theorem BitsSet.read_eq (h : BitsSet base P m m') {a : Nat} (ha : ∀ j, P j = true → a ≠ base + j / 8) :
    m'.read a = m.read a := by
  by_cases hlt : a < base
  · exact h.below a hlt
  · obtain ⟨q, rfl⟩ := Nat.exists_eq_add_of_le (Nat.le_of_not_lt hlt)
    refine BitVec.eq_of_getLsbD_eq fun i hi => ?_
    have hP : P (8 * q + i) = false := Bool.eq_false_iff.mpr fun hP => ha _ hP (by omega)
    rw [← bitAt_mul_add m' base q hi, h.bit, hP, Bool.or_false, bitAt_mul_add m base q hi]

/-- The bits set decide the memory. -/
theorem BitsSet.unique (h : BitsSet base P m m') (h1 : BitsSet base P m m1) : m' = m1 := by
  refine Memory.eq_of_read_eq h.wf h1.wf fun a => ?_
  by_cases hlt : a < base
  · rw [h.below a hlt, h1.below a hlt]
  · obtain ⟨q, rfl⟩ := Nat.exists_eq_add_of_le (Nat.le_of_not_lt hlt)
    refine BitVec.eq_of_getLsbD_eq fun i hi => ?_
    rw [← bitAt_mul_add m' base q hi, ← bitAt_mul_add m1 base q hi, h.bit, h1.bit]

/-- Bits that are set already (43_compare R240). -/
theorem BitsSet.again (h : BitsSet base P m m') : BitsSet base P m' m' :=
  ⟨h.wf, fun j => by rw [h.bit, Bool.or_assoc, Bool.or_self], fun _ _ => rfl⟩

theorem BitsSet.trans (h : BitsSet base P m m1) (h1 : BitsSet base Q m1 m') :
    BitsSet base (fun j => P j || Q j) m m' :=
  ⟨h1.wf, fun j => by rw [h1.bit, h.bit, Bool.or_assoc], fun a ha => (h1.below a ha).trans (h.below a ha)⟩

theorem SetsBits.unique {o p : Option Memory} (ho : SetsBits map base P m o) (hp : SetsBits map base P m p) : o = p := by
  have hsome : o.isSome = true ↔ p.isSome = true := ho.isSome_iff.trans hp.isSome_iff.symm
  cases o with
  | none =>
    cases p with
    | none => rfl
    | some m1 => simp at hsome
  | some m' =>
    cases p with
    | none => simp at hsome
    | some m1 => rw [(ho.bitsSet m' rfl).unique (hp.bitsSet m1 rfl)]

theorem SetsBits.congr {o : Option Memory} (h : SetsBits map base P m o) (hPQ : ∀ j, P j = Q j) : SetsBits map base Q m o :=
  funext hPQ ▸ h

theorem SetsBits.of_none (hm : m.wf) (hP : ∀ j, P j = false) : SetsBits map base P m (some m) := by
  refine ⟨iff_of_true rfl fun j hj => by simp [hP] at hj, fun m' h => ?_⟩
  cases h
  exact ⟨hm, fun j => by rw [hP, Bool.or_false], fun _ _ => rfl⟩

theorem bitsAccessible_or : BitsAccessible map base (fun j => P j || Q j) ↔
    BitsAccessible map base P ∧ BitsAccessible map base Q := by
  simp only [BitsAccessible, Bool.or_eq_true]
  exact ⟨fun h => ⟨fun j hj => h j (.inl hj), fun j hj => h j (.inr hj)⟩, fun h j => Or.rec (h.1 j) (h.2 j)⟩

/-- Setting bits and then others sets both. -/
theorem SetsBits.bind {o : Option Memory} {f : Memory → Option Memory} (ho : SetsBits map base P m o)
    (hf : ∀ m1 : Memory, m1.wf → SetsBits map base Q m1 (f m1)) :
    SetsBits map base (fun j => P j || Q j) m (o.bind f) := by
  cases o with
  | none =>
    refine ⟨iff_of_false nofun fun h => ?_, nofun⟩
    exact absurd (ho.isSome_iff.mpr (bitsAccessible_or.mp h).1) nofun
  | some m1 =>
    have hset1 := ho.bitsSet m1 rfl
    have hf1 := hf m1 hset1.wf
    refine ⟨?_, fun m' h => hset1.trans (hf1.bitsSet m' h)⟩
    rw [bitsAccessible_or, ← hf1.isSome_iff, and_iff_right (ho.isSome_iff.mp rfl)]
    rfl

/-! ## The model's operations -/

/-- The positions of the bits of a byte that is byte `q` of the bitset. -/
def byteBits (q : Nat) (b : Byte) (j : Nat) : Bool :=
  decide (j / 8 = q) && b.getLsbD (j % 8)

/-- The positions of a list of result bits, the first at position `k`. -/
def listBits (k : Nat) (hs : List Bool) (j : Nat) : Bool :=
  decide (k ≤ j) && hs.getD (j - k) false

/-- The positions of the bits of a word, the lowest at position `k`. -/
def wordBits (k : Nat) (v : Word) (j : Nat) : Bool :=
  decide (k ≤ j) && v.getLsbD (j - k)

/-- OR of a byte that is not zero (43_compare R235). -/
theorem orByte_of_ne_zero {b : Byte} (hb : b ≠ 0) (a : Nat) (m : Memory) : orByte map a b m =
    if memOk map a .read = true ∧ memOk map a .write = true then some (m.write a (m.read a ||| b)) else none := by
  rw [orByte, if_neg hb]
  by_cases hread : memOk map a .read = true
  · have hor : ((m.read a).setWidth 64 ||| b.setWidth 64).setWidth 8 = m.read a ||| b := by
      rw [← BitVec.setWidth_or, BitVec.setWidth_setWidth_of_le _ (by omega), BitVec.setWidth_eq]
    simp [memRead_one hread, memWrite, hread, hor]
  · simp [memRead, hread]

theorem bitsAccessible_byteBits {q : Nat} {b : Byte} (hb : b ≠ 0) : BitsAccessible map base (byteBits q b) ↔
    memOk map (base + q) .read = true ∧ memOk map (base + q) .write = true := by
  refine ⟨fun h => ?_, fun h j hj => ?_⟩
  · obtain ⟨i, hi, hbit⟩ : ∃ i < 8, b.getLsbD i = true := by
      by_contra! hzero
      exact hb (BitVec.eq_of_getLsbD_eq fun i hi => by simpa using hzero i hi)
    have hi' : (8 * q + i) / 8 = q := by omega
    have := h (8 * q + i) (by simp [byteBits, hi', Nat.mod_eq_of_lt hi, hbit])
    rwa [hi'] at this
  · simp only [byteBits, Bool.and_eq_true, decide_eq_true_eq] at hj
    rwa [hj.1]

/-- OR of a byte sets its bits (43_compare R235). -/
theorem orByte_setsBits (hm : m.wf) (q : Nat) (b : Byte) :
    SetsBits map base (byteBits q b) m (orByte map (base + q) b m) := by
  by_cases hb : b = 0
  · subst hb
    rw [orByte, if_pos rfl]
    exact .of_none hm fun j => by simp [byteBits]
  rw [orByte_of_ne_zero hb]
  refine ⟨by rw [bitsAccessible_byteBits hb, Option.isSome_ite], fun m' h => ?_⟩
  obtain ⟨hok, hwrite⟩ := Option.ite_none_right_eq_some.mp h
  cases hwrite
  refine ⟨Memory.write_wf _ _ hm, fun j => ?_, fun a ha => Memory.read_write_other _ _ (by omega)⟩
  rw [bitAt, bitAt, byteBits]
  by_cases hj : j / 8 = q
  · rw [hj, Memory.read_write_same _ hm (memOk_lt hok.1), BitVec.getLsbD_or]
    simp
  · rw [Memory.read_write_other _ _ (by omega)]
    simp [hj]

/-- Setting a bit is OR of the byte with that bit alone (43_compare R232). -/
theorem setBit_eq_orByte (map : List Region) (base j : Nat) (m : Memory) :
    setBit map base j m = orByte map (base + j / 8) (1#8 <<< (j % 8)) m := by
  have hlt : j % 8 < 8 := Nat.mod_lt j (by decide)
  have hne : 1#8 <<< (j % 8) ≠ 0 := by
    generalize j % 8 = i at hlt
    interval_cases i <;> decide
  have hwide : (1#8 <<< (j % 8)).setWidth 64 = 1#64 <<< (j % 8) := by
    generalize j % 8 = i at hlt
    interval_cases i <;> rfl
  rw [orByte, if_neg hne, hwide]
  rfl

theorem setBit_setsBits (hm : m.wf) (k : Nat) : SetsBits map base (fun j => decide (j = k)) m (setBit map base k m) := by
  rw [setBit_eq_orByte]
  refine (orByte_setsBits hm (k / 8) _).congr fun j => ?_
  have hj : j % 8 < 8 := Nat.mod_lt j (by decide)
  have hbit : (1#8 <<< (k % 8)).getLsbD (j % 8) = decide (j % 8 = k % 8) := by
    simp only [BitVec.getLsbD_shiftLeft, BitVec.getLsbD_one, hj, decide_true, Bool.true_and]
    grind
  rw [byteBits, hbit, ← Bool.decide_and]
  exact decide_eq_decide.mpr (by omega)

theorem listBits_cons (k : Nat) (h : Bool) (hs : List Bool) (j : Nat) :
    listBits k (h :: hs) j = (decide (j = k) && h || listBits (k + 1) hs j) := by
  rcases Nat.lt_trichotomy j k with hj | rfl | hj
  · simp [listBits, hj.ne, Nat.not_le.mpr hj, Nat.not_le.mpr (Nat.lt_succ_of_lt hj)]
  · simp [listBits]
  · obtain ⟨i, rfl⟩ := Nat.exists_eq_add_of_lt hj
    rw [show k + i + 1 = k + 1 + i by omega]
    simp [listBits, show k + 1 + i ≠ k by omega, show k ≤ k + 1 + i by omega, show k + 1 + i - k = i + 1 by omega]

theorem setHits_true (hs : List Bool) (k : Nat) (m : Memory) : setHits map base (true :: hs) k m =
    (setBit map base k m).bind (setHits map base hs (k + 1)) := by
  rw [setHits]
  cases setBit map base k m <;> rfl

/-- Setting a word's hits sets the bits of their positions (43_compare R231, R232). -/
theorem setHits_setsBits : ∀ {hs : List Bool} {k : Nat} {m : Memory}, m.wf →
    SetsBits map base (listBits k hs) m (setHits map base hs k m) := by
  intro hs
  induction hs with
  | nil => exact fun hm => .of_none hm fun j => by simp [listBits]
  | cons h hs ih =>
    intro k m hm
    cases h with
    | false => exact (ih hm).congr fun j => by rw [listBits_cons, Bool.and_false, Bool.false_or]
    | true =>
      rw [setHits_true]
      exact ((setBit_setsBits hm k).bind fun m1 => ih).congr fun j => by rw [listBits_cons, Bool.and_true]

theorem orBytes_succ (n a : Nat) (v : Word) (m : Memory) : orBytes map (n + 1) a v m =
    (orByte map a (v.setWidth 8) m).bind (orBytes map n (a + 1) (v >>> 8)) := by
  rw [orBytes]
  cases orByte map a (v.setWidth 8) m <;> rfl

/-- OR of a word's bytes sets the bits of those bytes (43_compare R235). -/
theorem orBytes_setsBits : ∀ {n q : Nat} {v : Word} {m : Memory}, m.wf →
    SetsBits map base (fun j => decide (j < 8 * (q + n)) && wordBits (8 * q) v j) m (orBytes map n (base + q) v m) := by
  intro n
  induction n with
  | zero =>
    intro q v m hm
    refine .of_none hm fun j => ?_
    by_cases hj : j < 8 * q
    · simp [wordBits, Nat.not_le.mpr hj]
    · simp [hj]
  | succ n ih =>
    intro q v m hm
    rw [orBytes_succ, Nat.add_assoc]
    refine ((orByte_setsBits hm q _).bind fun m1 => ih).congr fun j => ?_
    by_cases hlow : j < 8 * q
    · simp [byteBits, wordBits, show j / 8 ≠ q by omega, Nat.not_le.mpr hlow, show ¬8 * (q + 1) ≤ j by omega]
    obtain ⟨i, rfl⟩ := Nat.exists_eq_add_of_le (Nat.le_of_not_lt hlow)
    by_cases hi : i < 8
    · have hq : (8 * q + i) / 8 = q := by omega
      simp [byteBits, wordBits, hq, hi, Nat.mod_eq_of_lt hi, show 8 * q + i < 8 * (q + (n + 1)) by omega,
        show ¬8 * (q + 1) ≤ 8 * q + i by omega]
    · have hq : (8 * q + i) / 8 ≠ q := by omega
      have hn : 8 * q + i < 8 * (q + 1 + n) ↔ 8 * q + i < 8 * (q + (n + 1)) := by omega
      simp [byteBits, wordBits, hq, hn, show 8 * (q + 1) ≤ 8 * q + i by omega,
        show 8 + (8 * q + i - 8 * (q + 1)) = i by omega]

/-- The bits of a shifted word that leave its eight bytes (43_compare R235). -/
theorem ninth_byte_getLsbD (out : Word) {adj i : Nat} (hi : i < 8) :
    (if adj = 0 then 0 else (out >>> (64 - adj)).setWidth 8 : Byte).getLsbD i = out.getLsbD (64 - adj + i) := by
  split
  · next h => rw [h, BitVec.getLsbD_of_ge out _ (by omega)]; exact BitVec.getLsbD_zero
  · simp [hi]

theorem flush_of_ne_zero {out : Word} (hout : out ≠ 0) (outn k : Nat) (m : Memory) : flush map base out outn k m =
    (orBytes map 8 (base + (k - outn) / 8) (out <<< ((k - outn) % 8)) m).bind
      (orByte map (base + ((k - outn) / 8 + 8))
        (if (k - outn) % 8 = 0 then 0 else (out >>> (64 - (k - outn) % 8)).setWidth 8)) := by
  rw [flush, if_neg hout]
  cases orBytes map 8 (base + (k - outn) / 8) (out <<< ((k - outn) % 8)) m <;> rfl

/-- A flush sets the buffered bits, the lowest at the position where they begin (43_compare R235). -/
theorem flush_setsBits (hm : m.wf) (out : Word) (outn k : Nat) :
    SetsBits map base (wordBits (k - outn) out) m (flush map base out outn k m) := by
  by_cases hout : out = 0
  · subst hout
    rw [flush, if_pos rfl]
    exact .of_none hm fun j => by simp [wordBits]
  rw [flush_of_ne_zero hout]
  generalize k - outn = b
  refine ((orBytes_setsBits hm).bind fun m1 hm1 => orByte_setsBits hm1 _ _).congr fun j => ?_
  rw [byteBits, ninth_byte_getLsbD _ (Nat.mod_lt j (by decide))]
  simp only [wordBits, BitVec.getLsbD_shiftLeft]
  by_cases hbelow : j < b
  · have hq : j / 8 ≠ b / 8 + 8 := by omega
    by_cases hbyte : 8 * (b / 8) ≤ j
    · simp [hq, Nat.not_le.mpr hbelow, show j - 8 * (b / 8) < b % 8 by omega]
    · simp [hq, Nat.not_le.mpr hbelow, hbyte]
  by_cases hlow : j < 8 * (b / 8 + 8)
  · simp [hlow, Nat.le_of_not_lt hbelow, show j / 8 ≠ b / 8 + 8 by omega, show 8 * (b / 8) ≤ j by omega,
      show j - 8 * (b / 8) < 64 by omega, show ¬j - 8 * (b / 8) < b % 8 by omega,
      show j - 8 * (b / 8) - b % 8 = j - b by omega]
  by_cases hninth : j / 8 = b / 8 + 8
  · simp [hlow, hninth, Nat.le_of_not_lt hbelow, show 64 - b % 8 + j % 8 = j - b by omega]
  · simp [hlow, hninth, BitVec.getLsbD_of_ge out (j - b) (by omega)]

end
end Sys2Proof.Machine
end

section
/-! SUPPORT. CMP to its end (43_compare R240, 60_exceptions R280): when its loop gets there, the bits it then sets, the bits that an error may
leave set, and how the command ends; with them its result, its bound on the bits, its idempotence and the predicate equivalence law. -/

namespace Sys2Proof.Machine

/-! ## The hits of a stream -/

/-- The hits of all positions of the source stream, in order (43_compare R231). -/
def srcHits (p : Pred) (fmt : Format) (s : State) : List Bool :=
  (streamValues fmt (srcWords s)).map fun x => predHolds p x s.opa s.opb

/-- A position has a hit when the predicate holds of the value there (43_compare R231). -/
theorem srcHit_eq_getD (p : Pred) (fmt : Format) (s : State) (j : Nat) :
    srcHit p fmt s j = (srcHits p fmt s).getD j false := by
  rw [srcHit, srcHits, List.getD_eq_getElem?_getD, List.getElem?_map]
  cases (streamValues fmt (srcWords s))[j]? <;> rfl

theorem listBits_srcHits (p : Pred) (fmt : Format) (s : State) : listBits 0 (srcHits p fmt s) = srcHit p fmt s := by
  funext j
  rw [listBits, srcHit_eq_getD]
  simp

/-- The hits word by word are those of the stream's values (43_compare R231). -/
theorem streamHits_srcWords (p : Pred) (fmt : Format) (s : State) :
    streamHits (cmpArgs p fmt s) s.mem (s.srcLen.toNat / 8) s.srcAddr.toNat = srcHits p fmt s := by
  rw [srcHits, streamValues, List.map_flatMap]
  exact congrArg (List.flatMap · (srcWords s)) (funext fun w => wordHits_eq_map fmt p w s.opa s.opb)

/-- There is no hit from the stream's count on (43_compare R236). -/
theorem lt_countValues_of_srcHit {p : Pred} {fmt : Format} {s : State} {j : Nat} (h : srcHit p fmt s j = true) :
    j < countValues fmt (srcWords s) := by
  by_contra hj
  rw [← streamValues_length, Nat.not_lt] at hj
  rw [srcHit, List.getElem?_eq_none hj] at h
  exact nomatch h

/-- The bytes of the hits below the count are the bytes of all hits. -/
theorem bitsAccessible_srcHit (p : Pred) (fmt : Format) (s : State) :
    BitsAccessible s.memMap s.dstAddr.toNat (srcHit p fmt s) ↔ hitsAccessible p fmt s (countValues fmt (srcWords s)) :=
  ⟨fun h j _ => h j, fun h j hj => h j (lt_countValues_of_srcHit hj) hj⟩

theorem srcHit_congr {s t : State} (hwords : srcWords t = srcWords s) (hopa : t.opa = s.opa) (hopb : t.opb = s.opb)
    (p : Pred) (fmt : Format) : srcHit p fmt t = srcHit p fmt s := by
  funext j
  rw [srcHit, srcHit, hwords, hopa, hopb]

/-! ## The loop to its end -/

theorem setHits_append (map : List Region) (base : Nat) (ys : List Bool) : ∀ (xs : List Bool) (k : Nat) (m : Memory),
    setHits map base (xs ++ ys) k m = (setHits map base xs k m).bind (setHits map base ys (k + xs.length))
  | [], k, m => rfl
  | x :: xs, k, m => by
    rw [List.cons_append, List.length_cons, Nat.add_comm xs.length, ← Nat.add_assoc]
    cases x with
    | false => exact setHits_append map base ys xs (k + 1) m
    | true =>
      rw [setHits_true, setHits_true]
      cases setBit map base k m with
      | none => rfl
      | some m1 => exact setHits_append map base ys xs (k + 1) m1

/-- CMP sets the bits of a word right after those of the word before it (43_compare R230). -/
theorem cmpPut_joins (map : List Region) (q : CmpArgs) (dst : Nat) : Joins (cmpPut map q dst) := by
  refine ⟨fun k m => rfl, fun xs ys k m => ?_⟩
  rw [cmpPut, List.map_append, setHits_append, List.length_map]
  rfl

/-- What must hold for the loop over a stream to get to its end: every word can be read, its values fit, and their accesses complete. -/
theorem conditions_of_streamLoop_ok {map : List Region} {fmt : Format} {put : List Word → Nat → Memory → Option Memory}
    {ok : Nat → Word → Prop} {cap : Nat} {dst : Span} (hout : Output put ok cap dst) {r : Memory × Nat} :
    ∀ {ws : List Word} {a k : Nat} {m : Memory}, StreamAt dst m a ws → k ≤ cap →
      streamLoop map fmt put cap ws.length a k m = .ok r →
      readable map a (8 * ws.length) ∧ k + countValues fmt ws ≤ cap ∧ EachAt ok (streamValues fmt ws) k := by
  intro ws
  induction ws with
  | nil => exact fun _ hk _ => ⟨fun i hi => absurd hi (Nat.not_lt_zero i), hk, eachAt_nil ok _⟩
  | cons w ws ih =>
    intro a k m hs hk h
    rw [List.length_cons] at h
    by_cases hread : readable map a 8
    swap
    · rw [streamLoop_of_not_readable hread] at h
      cases h
    by_cases hcap : cap < k + (unpackWord fmt (wordAt m a)).length
    · rw [streamLoop_of_tooSmall hread hcap] at h
      cases h
    have hcap := Nat.le_of_not_lt hcap
    cases hput : put (unpackWord fmt (wordAt m a)) k m with
    | none =>
      rw [streamLoop_of_refused hcap hput] at h
      cases h
    | some m1 =>
      rw [streamLoop_of_put hread hcap hput] at h
      have hok := (hout.isSome_iff _ _ m).mp (Option.isSome_of_eq_some hput)
      obtain ⟨hreads, hfit, hoks⟩ := ih (hs.tail (hout.frame _ _ _ _ hput hcap)) hcap h
      rw [hs.head] at hfit hok hoks
      rw [List.length_cons, Nat.mul_add_one, Nat.add_comm, readable_add, countValues_cons, ← unpackWord_length,
        ← Nat.add_assoc, streamValues_cons, eachAt_append]
      exact ⟨⟨hread, hreads⟩, hfit, hok, hoks⟩

/-! ## CMP without error -/

section
variable {p : Pred} {fmt : Format} {s : State}

/-- Setting the hits of the whole stream sets the bits of its positions with a hit (43_compare R232). -/
theorem setHits_srcHits (hwf : s.mem.wf) : SetsBits s.memMap s.dstAddr.toNat (srcHit p fmt s) s.mem
    (setHits s.memMap s.dstAddr.toNat (srcHits p fmt s) 0 s.mem) :=
  (setHits_setsBits hwf).congr (congrFun (listBits_srcHits p fmt s))

/-- CMP that completes leaves the memory with the bits of all hits set (43_compare R232, R240). -/
theorem exec_cmpInstr_of_bitsSet {m : Memory} (hwf : s.mem.wf) (hready : cmpReady p fmt s)
    (hset : BitsSet s.dstAddr.toNat (srcHit p fmt s) s.mem m) :
    exec (cmpInstr p fmt) s =
      .next (s.endedWith (BitVec.ofNat 64 (countValues fmt (srcWords s))) s.word s.mask m) := by
  obtain ⟨⟨hchecks, hread⟩, hcap, haccess⟩ := hready
  have ⟨_, hlen, _⟩ := hchecks
  have hput : cmpPut s.memMap (cmpArgs p fmt s) s.dstAddr.toNat (streamValues fmt (srcWords s)) 0 s.mem = some m := by
    refine (setHits_srcHits hwf).unique ⟨iff_of_true rfl ((bitsAccessible_srcHit p fmt s).mpr haccess), fun m' h => ?_⟩
    cases h
    exact hset
  have hread : readable s.memMap s.srcAddr.toNat (8 * (srcWords s).length) := by
    rwa [srcWords_length, Nat.mul_div_cancel' (Nat.dvd_of_mod_eq_zero hlen)]
  have hloop := streamLoop_ok (cmpPut_output s.memMap (cmpArgs p fmt s) s.dstAddr.toNat s.dstLen.toNat)
    (cmpPut_joins s.memMap (cmpArgs p fmt s) s.dstAddr.toNat) (streamAt_srcWords hchecks rfl) hread
    ((Nat.zero_add _).trans_le hcap) hput
  have hloop := (cmpLoop_eq_streamLoop s.memMap (cmpArgs p fmt s) s.dstAddr.toNat s.dstLen.toNat _ _ _ _).trans hloop
  rw [srcWords_length, Nat.zero_add] at hloop
  rw [exec_cmpInstr_of_checks hchecks, cmpRun, hloop, ← State.endedWith_of_withMem]

/-- The bits of all hits can be set where their bytes can be accessed (43_compare R233). -/
theorem exists_bitsSet_of_cmpReady (hwf : s.mem.wf) (hready : cmpReady p fmt s) :
    ∃ m, BitsSet s.dstAddr.toNat (srcHit p fmt s) s.mem m := by
  obtain ⟨_, _, haccess⟩ := hready
  have hsets := setHits_srcHits (p := p) (fmt := fmt) hwf
  obtain ⟨m, hm⟩ := Option.isSome_iff_exists.mp (hsets.isSome_iff.mpr ((bitsAccessible_srcHit p fmt s).mpr haccess))
  exact ⟨m, hsets.bitsSet m hm⟩

end

/-- Settles O46: the bytes of the hits can be accessed, so the loop gets to its end, and the bits set are those of the hits. -/
theorem cmpResult : Obligations.CmpResult := by
  intro p fmt s hwf hready
  obtain ⟨m, hset⟩ := exists_bitsSet_of_cmpReady hwf hready
  exact ⟨m, exec_cmpInstr_of_bitsSet hwf hready hset, hset.bit, fun a ha => hset.read_eq ha⟩

/-! ## The ways CMP ends -/

/-- How an undisturbed CMP ends: at its checks, with an error of its loop, or with its result (60_exceptions R279, R280). -/
inductive CmpEnding (p : Pred) (fmt : Format) (s : State) : State → Prop where
  | checked {e : ErrCode} (code : e ≠ .none) : CmpEnding p fmt s (s.raiseError e)
  | stopped {e : ErrCode} (code : e ≠ .none) (range : (cmpBuffers s).badRange = false) : CmpEnding p fmt s
      ((s.scrambleHits (cmpBuffers s).dst (srcHits p fmt s)).raiseError e)
  | done {m : Memory} (ready : cmpReady p fmt s) (bits : BitsSet s.dstAddr.toNat (srcHit p fmt s) s.mem m) :
      CmpEnding p fmt s (s.endedWith (BitVec.ofNat 64 (countValues fmt (srcWords s))) s.word s.mask m)

theorem cmpEnding_cmpRun {s : State} (hwf : s.mem.wf) (hchecks : streamChecks (cmpBuffers s) s) (p : Pred) (fmt : Format) :
    CmpEnding p fmt s (cmpRun p fmt s) := by
  cases hloop : cmpLoop s.memMap (cmpArgs p fmt s) s.dstAddr.toNat s.dstLen.toNat (s.srcLen.toNat / 8) s.srcAddr.toNat 0
      s.mem with
  | error e =>
    have he : e ≠ .none := by rcases cmpLoop_error hloop with rfl | rfl <;> exact nofun
    rw [cmpRun, hloop]
    dsimp only
    rw [streamHits_srcWords]
    exact .stopped he hchecks.2.2
  | ok r =>
    have ⟨_, hlen, _⟩ := hchecks
    rw [← srcWords_length, cmpLoop_eq_streamLoop] at hloop
    obtain ⟨hread, hfit, haccess⟩ := conditions_of_streamLoop_ok (cmpPut_output _ _ _ _) (streamAt_srcWords hchecks rfl)
      (Nat.zero_le _) hloop
    rw [srcWords_length, Nat.mul_div_cancel' (Nat.dvd_of_mod_eq_zero hlen)] at hread
    have haccess := (eachAt_cmpOk_countBefore p fmt s (srcWords s).length).mp (by rwa [List.take_length])
    rw [countBefore, List.take_length] at haccess
    have hready : cmpReady p fmt s := ⟨⟨hchecks, hread⟩, (Nat.zero_add _).symm.trans_le hfit, haccess⟩
    obtain ⟨m, hset⟩ := exists_bitsSet_of_cmpReady hwf hready
    have hexec := exec_cmpInstr_of_bitsSet hwf hready hset
    rw [exec_cmpInstr_of_checks hchecks] at hexec
    rw [Host.Outcome.next.inj hexec]
    exact .done hready hset

theorem cmpEnding_of_exec {p : Pred} {fmt : Format} {s t : State} (hwf : s.mem.wf) (hcalm : s.disturbed = false)
    (h : exec (cmpInstr p fmt) s = .next t) : CmpEnding p fmt s t := by
  rw [exec_cmpInstr, compareStream] at h
  cases hcheck : cmpCheck s with
  | some e =>
    have he : e ≠ .none := by
      rintro rfl
      simpa using cmpCheck_some hcheck p fmt
    rw [hcheck] at h
    cases h
    exact .checked he
  | none =>
    have hlen : s.srcLen.toNat % 8 = 0 := by
      by_contra hlen
      simp [cmpCheck, hlen] at hcheck
    rw [hcheck] at h
    rcases s.onBuffers_cases (cmpBuffers s) [.destinationTooSmall, .busError] s.word (cmpRun p fmt s) with
      ⟨_, heq⟩ | ⟨_, hdist, _⟩ | ⟨hdev, _, heq⟩
    · exact nomatch heq.symm.trans h
    · exact nomatch hcalm.symm.trans hdist
    · obtain rfl := Host.Outcome.next.inj (heq.symm.trans h)
      exact cmpEnding_cmpRun hwf ⟨⟨hcalm, hdev⟩, hlen, cmpCheck_none hcheck⟩ p fmt

/-! ## The bitset after an error -/

/-- Bit `i` of a byte of hits is the hit of its position (20_memory R66). -/
theorem hitByte_getLsbD (hs : List Bool) (q : Nat) {i : Nat} (hi : i < 8) :
    (hitByte hs q).getLsbD i = hs.getD (8 * q + i) false := by
  have h64 : i < 64 := by omega
  rw [hitByte, BitVec.getLsbD_setWidth, maskOf_getLsbD, List.getD_eq_getElem?_getD, List.getElem?_take, List.getElem?_drop]
  simp [hi, h64]

/-- After a late error of CMP every bit that was 1 is 1, and every bit that is 1 was 1 or has a hit (60_exceptions R280). -/
theorem bitAt_scrambleHits {s : State} {r : Span} (hwf : s.mem.wf) (hr : 0 < r.size → r.start + r.size ≤ memSize)
    (hs : List Bool) (j : Nat) :
    (bitAt s.mem r.start j = true → bitAt (s.scrambleHits r hs).mem r.start j = true) ∧
      (bitAt (s.scrambleHits r hs).mem r.start j = true → bitAt s.mem r.start j = true ∨ hs.getD j false = true) := by
  rw [State.scrambleHits_mem, bitAt, bitAt]
  by_cases hj : j / 8 < r.size
  · rw [Memory.read_replace_inside _ (by omega) _ _ hwf (by omega) (by omega), BitVec.getLsbD_or, BitVec.getLsbD_and,
      Nat.add_sub_cancel_left, hitByte_getLsbD _ _ (Nat.mod_lt j (by decide)), Nat.div_add_mod, Bool.or_eq_true,
      Bool.and_eq_true]
    exact ⟨.inl, Or.imp_right And.right⟩
  · rw [Memory.read_replace_outside _ _ _ _ (by omega)]
    exact ⟨id, .inl⟩

/-! ## The statements -/

/-- Settles O47: the checks leave the bitset alone, an error of the loop sets a free choice of the hits, and a completion sets them all. -/
theorem cmpOnlySetsHits : Obligations.CmpOnlySetsHits := by
  intro p fmt s t hwf hcalm h j
  cases cmpEnding_of_exec hwf hcalm h with
  | checked => exact ⟨id, .inl⟩
  | stopped _ hrange =>
    obtain ⟨_, hdst, _⟩ := Buffers.badRange_eq_false hrange
    rw [srcHit_eq_getD]
    exact bitAt_scrambleHits hwf hdst (srcHits p fmt s) j
  | done _ hset =>
    rw [State.endedWith_mem, hset.bit, Bool.or_eq_true]
    exact ⟨.inl, id⟩

/-- The bits of the hits lie in CMP's destination range (43_compare R233). -/
theorem BitsSet.agreeOutside {p : Pred} {fmt : Format} {s : State} {m : Memory}
    (hset : BitsSet s.dstAddr.toNat (srcHit p fmt s) s.mem m) (hready : cmpReady p fmt s) :
    agreeOutside (cmpBuffers s).dst m s.mem := by
  intro a ha
  refine hset.read_eq fun j hj heq => ?_
  have hlt : j / 8 < ceilDiv s.dstLen.toNat 8 := ceilDiv_lt (Nat.lt_of_lt_of_le (lt_countValues_of_srcHit hj) hready.2.1)
  rw [Span.has_eq_false_iff] at ha
  dsimp only [cmpBuffers] at ha
  omega

/-- A memory that differs in the destination range only holds the same stream (20_memory R62). -/
theorem wordsAt_srcWords {b : Buffers} {s : State} {m : Memory} (hchecks : streamChecks b s)
    (hsrc : b.src = ⟨s.srcAddr.toNat, s.srcLen.toNat⟩) (hframe : agreeOutside b.dst m s.mem) :
    wordsAt m (s.srcLen.toNat / 8) s.srcAddr.toNat = srcWords s := by
  have hapart := (streamAt_srcWords hchecks hsrc).apart
  rw [srcWords_length] at hapart
  refine List.map_congr_left fun w hw => wordAt_congr fun i hi => ?_
  have hw := List.mem_range.mp hw
  rw [Nat.add_assoc]
  exact hframe _ (hapart _ (by omega))

/-- A CMP that has ended can complete again, if its stream is unchanged. -/
theorem cmpReady_endedWith {p : Pred} {fmt : Format} {s : State} {r w k : Word} {m : Memory} (hready : cmpReady p fmt s)
    (hwords : srcWords (s.endedWith r w k m) = srcWords s) : cmpReady p fmt (s.endedWith r w k m) := by
  obtain ⟨⟨⟨⟨_, hdev⟩, hlen, hrange⟩, hread⟩, hcap, haccess⟩ := hready
  refine ⟨⟨⟨⟨rfl, hdev⟩, hlen, hrange⟩, hread⟩, by rwa [hwords], ?_⟩
  rw [← bitsAccessible_srcHit, srcHit_congr hwords rfl rfl]
  exact (bitsAccessible_srcHit p fmt s).mpr haccess

/-- Settles O48: the second run reads the same stream, and the bits of its hits are set already. -/
theorem cmpIdempotent : Obligations.CmpIdempotent := by
  intro p fmt s t hwf hcalm h hnone
  cases cmpEnding_of_exec hwf hcalm h with
  | checked hcode => exact absurd hnone hcode
  | stopped hcode => exact absurd hnone hcode
  | @done m hready hset =>
    have hwords : srcWords (s.endedWith (BitVec.ofNat 64 (countValues fmt (srcWords s))) s.word s.mask m) = srcWords s :=
      wordsAt_srcWords hready.1.1 rfl (hset.agreeOutside hready)
    have hset' := hset.again
    rw [← srcHit_congr hwords rfl rfl p fmt] at hset'
    rw [exec_cmpInstr_of_bitsSet hset.wf (cmpReady_endedWith hready hwords) hset', hwords]
    rfl

/-- 64-bit elements of MINV 0 are the stored values (40_kernels R121). -/
theorem forAdd_e64_zero (x : Word) : forAdd x 0 .e64 = x := by
  simp [forAdd, ewBitCount]

/-- Settles O50: CMP's bit of a position and DECODE's element there come from the same stored value. -/
theorem predicateEquivalence : Obligations.PredicateEquivalence := by
  intro p fmt s d hwf hready hlen hclear hdwf hdready hminv hwords
  obtain ⟨m, hcmp, hbits, _⟩ := cmpResult p fmt s hwf hready
  obtain ⟨k, hdec, helems, _⟩ := decodeResult .e64 fmt d hdwf hdready
  refine ⟨_, _, hcmp, hdec, fun j hj => ?_⟩
  have hlt : j < (streamValues fmt (srcWords s)).length := by rwa [streamValues_length, ← hlen]
  have hx := List.getElem?_eq_getElem hlt
  have helem := helems j _ (by rwa [hwords])
  rw [hminv, forAdd_e64_zero] at helem
  rw [State.endedWith_mem, State.endedWith_mem, hbits, hclear j hj, Bool.false_or, srcHit, hx]
  exact congrArg (predHolds p · s.opa s.opb) helem.symm

end Sys2Proof.Machine
end

section
/-! SUPPORT. The source's aggregation buffer (43_compare R234, R235): its pending bits as a list of hits, its flush as the setting of these
hits, a word of its loop as one step, and its loop as the bit-by-bit loop after the pending hits. -/

namespace Sys2Proof.Machine

/-! ## The pending bits -/

/-- The buffered bits as hits, the oldest first. -/
def pendingHits (out : Word) (outn : Nat) : List Bool :=
  (List.range outn).map out.getLsbD

/-- A buffer of `outn` bits that end at position `k`, with no bit above them (43_compare R234). -/
structure Pending (out : Word) (outn k : Nat) : Prop where
  le : outn ≤ k
  above : ∀ i, outn ≤ i → out.getLsbD i = false

theorem pendingHits_length (out : Word) (outn : Nat) : (pendingHits out outn).length = outn := by
  simp [pendingHits]

theorem Pending.getD {out : Word} {outn k : Nat} (h : Pending out outn k) (i : Nat) :
    (pendingHits out outn).getD i false = out.getLsbD i := by
  rw [pendingHits, List.getD_eq_getElem?_getD, List.getElem?_map]
  by_cases hi : i < outn
  · simp [hi]
  · simp [hi, h.above i (Nat.le_of_not_lt hi)]

/-- A flush sets the pending hits one by one (43_compare R232, R235). -/
theorem flush_eq_setHits {map : List Region} {dst outn k : Nat} {out : Word} {m : Memory} (hm : m.wf)
    (h : Pending out outn k) : flush map dst out outn k m = setHits map dst (pendingHits out outn) (k - outn) m :=
  (flush_setsBits hm out outn k).unique ((setHits_setsBits hm).congr fun j => by rw [listBits, wordBits, h.getD])

/-! ## The hits of a word -/

section
variable (q : CmpArgs) (w : Word)

theorem CmpArgs.hits_length : (q.hits w).length = (cmpKernel q.fmt q.pred w q.a q.b).1 := by
  simp [CmpArgs.hits]

variable {q w}

/-- The hits of a packed word are the bits of its mask (43_compare R231). -/
theorem CmpArgs.hits_of_packed (h : isRun (selOf w) = false) : q.hits w =
    pendingHits (cmpKernel q.fmt q.pred w q.a q.b).2 (cmpKernel q.fmt q.pred w q.a q.b).1 := by
  simp [CmpArgs.hits, wordHits, pendingHits, h]

/-- The hits of a run word are all alike, and its mask is 1 when they are hits (43_compare R231). -/
theorem CmpArgs.hits_of_run (h : isRun (selOf w) = true) : q.hits w =
    List.replicate (cmpKernel q.fmt q.pred w q.a q.b).1 (decide ((cmpKernel q.fmt q.pred w q.a q.b).2 = 1)) := by
  have hmask : (cmpKernel q.fmt q.pred w q.a q.b).2 =
      BitVec.ofNat 64 (predHolds q.pred (runVal q.fmt (selOf w)) q.a q.b).toNat := by
    rw [cmpKernel, if_pos h]
  have hbit : (cmpKernel q.fmt q.pred w q.a q.b).2.getLsbD 0 = decide ((cmpKernel q.fmt q.pred w q.a q.b).2 = 1) := by
    rw [hmask]
    cases predHolds q.pred (runVal q.fmt (selOf w)) q.a q.b <;> rfl
  simp only [CmpArgs.hits, wordHits, h, if_true, hbit, List.map_const', List.length_range]

/-- A packed word's mask is a buffer of its own. -/
theorem pending_mask (h : isRun (selOf w) = false) (k : Nat) : Pending (cmpKernel q.fmt q.pred w q.a q.b).2
    (cmpKernel q.fmt q.pred w q.a q.b).1 (k + (cmpKernel q.fmt q.pred w q.a q.b).1) := by
  refine ⟨Nat.le_add_left _ _, fun i hi => ?_⟩
  rw [cmpKernel_fst, ← maskWidth_of_packed ((isRun_eq_false_iff _).mp h)] at hi
  rw [cmpKernel_getLsbD, decide_eq_false (Nat.not_lt.mpr hi), Bool.false_and]

end

theorem setHits_replicate_false (map : List Region) (base : Nat) : ∀ (n k : Nat) (m : Memory),
    setHits map base (List.replicate n false) k m = some m
  | 0, _, _ => rfl
  | n + 1, k, m => setHits_replicate_false map base n (k + 1) m

/-- A mask merged above the pending bits: the hits of both, in order (43_compare R234). -/
theorem pendingHits_merge {out mask : Word} {outn n k : Nat} (hout : Pending out outn k) (hn : outn + n ≤ 64) :
    pendingHits (out ||| mask <<< outn) (outn + n) = pendingHits out outn ++ pendingHits mask n := by
  refine List.ext_getElem (by simp [pendingHits]) fun i hi _ => ?_
  rw [pendingHits_length] at hi
  have h64 : i < 64 := by omega
  rw [List.getElem_append]
  by_cases hlt : i < outn
  · simp [pendingHits, hlt, h64]
  · have hzero := hout.above i (Nat.le_of_not_lt hlt)
    simp [pendingHits, hlt, h64, -BitVec.getLsbD_eq_getElem, BitVec.getLsbD_or, hzero]

theorem Pending.merge {out mask : Word} {outn n k : Nat} (hout : Pending out outn k)
    (hmask : ∀ i, n ≤ i → mask.getLsbD i = false) : Pending (out ||| mask <<< outn) (outn + n) (k + n) := by
  refine ⟨Nat.add_le_add_right hout.le n, fun i hi => ?_⟩
  rw [BitVec.getLsbD_or, hout.above i (by omega), BitVec.getLsbD_shiftLeft, hmask (i - outn) (by omega)]
  simp

/-! ## A word of the loop -/

/-- What the aggregation loop carries from word to word besides its position: memory and the buffer. -/
structure Buffered where
  mem : Memory
  out : Word
  outn : Nat

/-- One word that can be read and whose positions fit, at position `k` (43_compare R234). -/
def aggregateWord (map : List Region) (q : CmpArgs) (dst : Nat) (w : Word) (k : Nat) (s : Buffered) : Option Buffered :=
  let nm := cmpKernel q.fmt q.pred w q.a q.b
  if isRun (selOf w) then
    ((flush map dst s.out s.outn k s.mem).bind fun m1 =>
      if nm.2 = 1 then setHits map dst (List.replicate nm.1 true) k m1 else some m1).map fun m2 => ⟨m2, 0, 0⟩
  else if 64 < s.outn + nm.1 then (flush map dst s.out s.outn k s.mem).map fun m1 => ⟨m1, nm.2, nm.1⟩
  else some ⟨s.mem, s.out ||| nm.2 <<< s.outn, s.outn + nm.1⟩

section
variable {map : List Region} {q : CmpArgs} {dst cap : Nat}

theorem aggregateLoop_succ_ok_iff {n a k outn : Nat} {out : Word} {m : Memory} {r : Memory × Nat} :
    aggregateLoop map q dst cap (n + 1) a k out outn m = .ok r ↔
      ∃ w, memRead map m a 8 = some w ∧ k + (q.hits w).length ≤ cap ∧
        ∃ t, aggregateWord map q dst w k ⟨m, out, outn⟩ = some t ∧
          aggregateLoop map q dst cap n (a + 8) (k + (q.hits w).length) t.out t.outn t.mem = .ok r := by
  rw [aggregateLoop]
  cases memRead map m a 8 with
  | none => simp
  | some w =>
    simp only [Option.some.injEq, exists_eq_left', CmpArgs.hits_length, aggregateWord]
    generalize cmpKernel q.fmt q.pred w q.a q.b = nm
    by_cases hcap : cap < k + nm.1
    · simp [hcap]
    rw [if_neg hcap, and_iff_right (Nat.le_of_not_lt hcap)]
    split
    · cases flush map dst out outn k m with
      | none => simp
      | some m1 =>
        dsimp only [Option.bind_some]
        cases (if nm.2 = 1 then setHits map dst (List.replicate nm.1 true) k m1 else some m1) <;> simp
    · split
      · cases flush map dst out outn k m <;> simp
      · simp

theorem cmpLoop_succ_ok_iff {n a k : Nat} {m : Memory} {r : Memory × Nat} :
    cmpLoop map q dst cap (n + 1) a k m = .ok r ↔
      ∃ w, memRead map m a 8 = some w ∧ k + (q.hits w).length ≤ cap ∧
        ∃ m1, setHits map dst (q.hits w) k m = some m1 ∧
          cmpLoop map q dst cap n (a + 8) (k + (q.hits w).length) m1 = .ok r := by
  rw [cmpLoop]
  cases memRead map m a 8 with
  | none => simp
  | some w =>
    simp only [Option.some.injEq, exists_eq_left']
    by_cases hcap : cap < k + (q.hits w).length
    · simp [hcap]
    rw [if_neg hcap, and_iff_right (Nat.le_of_not_lt hcap)]
    cases setHits map dst (q.hits w) k m <;> simp

/-- The buffer of a loop at position `k`: canonical memory, and bits that end at `k`. -/
structure Buffered.Valid (s : Buffered) (k : Nat) : Prop where
  wf : s.mem.wf
  pending : Pending s.out s.outn k

/-- The memory that a flush at position `k` leaves. -/
def Buffered.flushed (map : List Region) (dst k : Nat) (s : Buffered) : Option Memory :=
  setHits map dst (pendingHits s.out s.outn) (k - s.outn) s.mem

theorem Buffered.Valid.flush_eq {s : Buffered} {k : Nat} (h : s.Valid k) :
    flush map dst s.out s.outn k s.mem = s.flushed map dst k :=
  flush_eq_setHits h.wf h.pending

theorem Buffered.flushed_eq_self (m : Memory) (k : Nat) : (Buffered.mk m 0 0).flushed map dst k = some m :=
  rfl

/-- A flush writes bitset bytes of positions before the buffer's end only. -/
theorem Buffered.Valid.agreeOutside_of_flushed {s : Buffered} {k : Nat} {m1 : Memory} (h : s.Valid k) (hk : k ≤ cap)
    (hm1 : s.flushed map dst k = some m1) : agreeOutside ⟨dst, ceilDiv cap 8⟩ m1 s.mem := by
  intro x hx
  obtain ⟨_, hframe, _⟩ := setHits_some hm1
  rw [Span.has_eq_false_iff] at hx
  dsimp only at hx
  refine hframe x fun i hi => ?_
  have hlt := (List.getElem?_eq_some_iff.mp hi).1
  rw [pendingHits_length] at hlt
  have hle := h.pending.le
  have : (k - s.outn + i) / 8 < ceilDiv cap 8 := ceilDiv_lt (by omega)
  omega

section
variable {w : Word} {k : Nat} {s : Buffered}

/-- Before a run word the buffer is flushed; the run's hits are then set at once (43_compare R234). -/
theorem aggregateWord_of_run (hs : s.Valid k) (hrun : isRun (selOf w) = true) : aggregateWord map q dst w k s =
    ((s.flushed map dst k).bind (setHits map dst (q.hits w) k)).map fun m2 => ⟨m2, 0, 0⟩ := by
  rw [aggregateWord, if_pos hrun, hs.flush_eq, CmpArgs.hits_of_run hrun]
  by_cases hmask : (cmpKernel q.fmt q.pred w q.a q.b).2 = 1
  · simp only [hmask, if_true, decide_true]
  · simp only [hmask, if_false, decide_false]
    exact congrArg (fun f => Option.map _ (Option.bind _ f)) (funext fun m1 => (setHits_replicate_false map dst _ k m1).symm)

/-- A packed word that does not fit the buffer starts a new one after a flush (43_compare R234). -/
theorem aggregateWord_of_full (hs : s.Valid k) (hpacked : isRun (selOf w) = false)
    (hfull : 64 < s.outn + (cmpKernel q.fmt q.pred w q.a q.b).1) : aggregateWord map q dst w k s =
      (s.flushed map dst k).map fun m1 =>
        ⟨m1, (cmpKernel q.fmt q.pred w q.a q.b).2, (cmpKernel q.fmt q.pred w q.a q.b).1⟩ := by
  rw [aggregateWord, if_neg (Bool.eq_false_iff.mp hpacked), if_pos hfull, hs.flush_eq]

/-- A packed word that fits the buffer is merged into it (43_compare R234). -/
theorem aggregateWord_of_room (hpacked : isRun (selOf w) = false)
    (hroom : ¬64 < s.outn + (cmpKernel q.fmt q.pred w q.a q.b).1) : aggregateWord map q dst w k s =
      some ⟨s.mem, s.out ||| (cmpKernel q.fmt q.pred w q.a q.b).2 <<< s.outn,
        s.outn + (cmpKernel q.fmt q.pred w q.a q.b).1⟩ := by
  rw [aggregateWord, if_neg (Bool.eq_false_iff.mp hpacked), if_neg hroom]

theorem aggregateWord_valid {t : Buffered} (hs : s.Valid k) (ht : aggregateWord map q dst w k s = some t) :
    t.Valid (k + (q.hits w).length) := by
  cases hrun : isRun (selOf w) with
  | true =>
    rw [aggregateWord_of_run hs hrun] at ht
    obtain ⟨m2, hm2, rfl⟩ := Option.map_eq_some_iff.mp ht
    obtain ⟨m1, hm1, hhits⟩ := Option.bind_eq_some_iff.mp hm2
    exact ⟨(setHits_some hhits).1 ((setHits_some hm1).1 hs.wf), Nat.zero_le _, fun i _ => BitVec.getLsbD_zero⟩
  | false =>
    rw [CmpArgs.hits_length]
    by_cases hfull : 64 < s.outn + (cmpKernel q.fmt q.pred w q.a q.b).1
    · rw [aggregateWord_of_full hs hrun hfull] at ht
      obtain ⟨m1, hm1, rfl⟩ := Option.map_eq_some_iff.mp ht
      exact ⟨(setHits_some hm1).1 hs.wf, pending_mask hrun k⟩
    · rw [aggregateWord_of_room hrun hfull] at ht
      cases ht
      exact ⟨hs.wf, hs.pending.merge (pending_mask hrun k).above⟩

/-- A word of the aggregation loop, then a flush: the pending hits are set, then the hits of the word. -/
theorem aggregateWord_flushed (hs : s.Valid k) :
    (aggregateWord map q dst w k s).bind (Buffered.flushed map dst (k + (q.hits w).length)) =
      (s.flushed map dst k).bind (setHits map dst (q.hits w) k) := by
  cases hrun : isRun (selOf w) with
  | true =>
    rw [aggregateWord_of_run hs hrun, Option.bind_map]
    exact Option.bind_fun_some _
  | false =>
    rw [CmpArgs.hits_length]
    by_cases hfull : 64 < s.outn + (cmpKernel q.fmt q.pred w q.a q.b).1
    · rw [aggregateWord_of_full hs hrun hfull, Option.bind_map, CmpArgs.hits_of_packed hrun]
      refine congrArg (Option.bind _) (funext fun m1 => ?_)
      simp only [Function.comp_apply, Buffered.flushed, Nat.add_sub_cancel]
    · have hstart : k + (cmpKernel q.fmt q.pred w q.a q.b).1 - (s.outn + (cmpKernel q.fmt q.pred w q.a q.b).1) =
          k - s.outn := Nat.add_sub_add_right k _ s.outn
      have hend : k - s.outn + s.outn = k := Nat.sub_add_cancel hs.pending.le
      rw [aggregateWord_of_room hrun hfull, Option.bind_some, Buffered.flushed, hstart,
        pendingHits_merge hs.pending (Nat.le_of_not_lt hfull), setHits_append, pendingHits_length, hend,
        CmpArgs.hits_of_packed hrun]
      rfl

end

/-- The aggregation loop is the bit-by-bit loop after the pending hits (43_compare R234). -/
theorem aggregateLoop_ok_iff {r : Memory × Nat} : ∀ {n a k : Nat} {s : Buffered}, s.Valid k → k ≤ cap →
    (∀ i < 8 * n, (Span.mk dst (ceilDiv cap 8)).has (a + i) = false) →
    (aggregateLoop map q dst cap n a k s.out s.outn s.mem = .ok r ↔
      ∃ m1, s.flushed map dst k = some m1 ∧ cmpLoop map q dst cap n a k m1 = .ok r) := by
  intro n
  induction n with
  | zero =>
    intro a k s hs _ _
    rw [aggregateLoop, hs.flush_eq]
    cases s.flushed map dst k <;> simp [cmpLoop]
  | succ n ih =>
    intro a k s hs hk hapart
    have hapart' : ∀ i < 8 * n, (Span.mk dst (ceilDiv cap 8)).has (a + 8 + i) = false := fun i hi => by
      rw [Nat.add_assoc]
      exact hapart (8 + i) (by omega)
    have hread : ∀ m1, s.flushed map dst k = some m1 → memRead map m1 a 8 = memRead map s.mem a 8 := fun m1 hm1 =>
      memRead_congr map 8 a fun i hi => hs.agreeOutside_of_flushed hk hm1 _ (hapart i (by omega))
    rw [aggregateLoop_succ_ok_iff]
    constructor
    · rintro ⟨w, hw, hcap, t, ht, hloop⟩
      obtain ⟨m2, hm2, hloop⟩ := (ih (aggregateWord_valid hs ht) hcap hapart').mp hloop
      have hflushed := aggregateWord_flushed (map := map) (q := q) (dst := dst) (w := w) hs
      rw [ht, Option.bind_some, hm2] at hflushed
      obtain ⟨m1, hm1, hhits⟩ := Option.bind_eq_some_iff.mp hflushed.symm
      exact ⟨m1, hm1, cmpLoop_succ_ok_iff.mpr ⟨w, (hread m1 hm1).trans hw, hcap, m2, hhits, hloop⟩⟩
    · rintro ⟨m1, hm1, hloop⟩
      obtain ⟨w, hw, hcap, m2, hhits, hloop⟩ := cmpLoop_succ_ok_iff.mp hloop
      have hflushed := aggregateWord_flushed (map := map) (q := q) (dst := dst) (w := w) hs
      rw [hm1, Option.bind_some, hhits] at hflushed
      obtain ⟨t, ht, hm2⟩ := Option.bind_eq_some_iff.mp hflushed
      exact ⟨w, (hread m1 hm1).symm.trans hw, hcap, t, ht,
        (ih (aggregateWord_valid hs ht) hcap hapart').mpr ⟨m2, hm2, hloop⟩⟩

end

/-- Settles O49: both loops start with nothing pending. -/
theorem aggregationMatches : Obligations.AggregationMatches := by
  intro map q dst cap n a m r hm hrange
  obtain ⟨_, _, hdisjoint⟩ := Buffers.badRange_eq_false hrange
  have hvalid : (Buffered.mk m 0 0).Valid 0 := ⟨hm, Nat.le_refl 0, fun i _ => BitVec.getLsbD_zero⟩
  have h := aggregateLoop_ok_iff (map := map) (q := q) (dst := dst) (r := r) hvalid (Nat.zero_le cap) (n := n) (a := a)
    fun i hi => hdisjoint _ (by rw [Span.has_iff]; dsimp only; omega)
  simpa [Buffered.flushed, pendingHits, setHits] using h

end Sys2Proof.Machine
end

section
/-! SUPPORT. Errors before any write (60_exceptions R272 to R277, R280): an illegal command word, a command whose checks fail, and the
first value that ENCODE or PACKW cannot take. -/

namespace Sys2Proof.Machine

/-! ## Illegal command words -/

/-- Settles O8: the decoder rejects the word. -/
theorem illegalCommandCompletes : Obligations.IllegalCommandCompletes := by
  intro s hbusy hword
  obtain ⟨r, hr⟩ := (illegalWordsExactly s.cmd).mpr hword
  simp [engineTurn, hbusy, hr, State.failedWith_eq]

/-! ## Commands whose checks fail -/

theorem exec_encode_of_check {ew : ElemWidth} {fmt : Format} {s : State} {e : ErrCode}
    (h : encodeCheck ew fmt s = some e) : exec (.encode ew fmt) s = .next (s.failedWith e) := by
  change execEncode ew fmt s = _
  rw [execEncode, h]
  rfl

theorem exec_decode_of_check {ew : ElemWidth} {s : State} {e : ErrCode} (h : decodeCheck ew s = some e) (fmt : Format) :
    exec (.decode ew fmt) s = .next (s.failedWith e) := by
  change execDecode ew fmt s = _
  rw [execDecode, h]
  rfl

theorem exec_count_of_check {s : State} {e : ErrCode} (h : countCheck s = some e) (fmt : Format) :
    exec (.count fmt) s = .next (s.failedWith e) := by
  change execCount fmt s = _
  rw [execCount, h]
  rfl

theorem exec_cmpInstr_of_check {s : State} {e : ErrCode} (h : cmpCheck s = some e) (p : Pred) (fmt : Format) :
    exec (cmpInstr p fmt) s = .next (s.failedWith e) := by
  rw [exec_cmpInstr, compareStream, h]
  rfl

theorem exec_packw_of_check {ew : ElemWidth} {fmt : Format} {sel : Nat} {s : State} {e : ErrCode}
    (h : packwCheck ew fmt sel s = some e) : exec (.packw ew fmt sel) s = .next (s.failedWith e) := by
  change execPackw ew fmt sel s = _
  rw [execPackw, h]
  rfl

/-- Settles O28: the length and the format are the first checks of each command. -/
theorem lengthAndFormatChecks : Obligations.LengthAndFormatChecks := by
  refine ⟨fun ew s hlen => exec_encode_of_check ?_, fun s hlen => ⟨fun ew fmt => exec_decode_of_check ?_ fmt,
    fun fmt => exec_count_of_check ?_ fmt, fun p fmt => exec_cmpInstr_of_check ?_ p fmt⟩,
    fun ew s => ⟨exec_encode_of_check ?_, fun sel => exec_packw_of_check ?_⟩⟩
  · simp [encodeCheck, hlen]
  · simp [decodeCheck, hlen]
  · simp [countCheck, hlen]
  · simp [cmpCheck, hlen]
  · simp [encodeCheck]
  · simp [packwCheck]

/-- Settles O30: the range check comes right after the checks of the length and the format. -/
theorem addressRange : Obligations.AddressRange := by
  intro s
  refine ⟨fun ew hlen hrange => exec_encode_of_check ?_, fun ew fmt hlen hrange => exec_decode_of_check ?_ fmt,
    fun fmt hlen hrange => exec_count_of_check ?_ fmt, fun p fmt hlen hrange => exec_cmpInstr_of_check ?_ p fmt,
    fun ew sel _ hrange => exec_packw_of_check ?_⟩
  · simp [encodeCheck, hlen, hrange]
  · simp [decodeCheck, hlen, hrange]
  · simp [countCheck, hlen, hrange]
  · simp [cmpCheck, hlen, hrange]
  · simp [packwCheck, hrange]

/-! ## Values out of bounds -/

section
variable {map : List Region} {mem : Memory} {ew : ElemWidth} {minv : Word} {ok : Word → Bool}

/-- The loop over an array fails as it fails from element `i` on, when the elements before `i` can be read and pass the test. -/
theorem scanElems_error_of_add {n : Nat} {e : ErrCode} : ∀ {i a : Nat}, readable map a (i * ewByteCount ew) →
    (∀ j < i, ok (storedAt mem ew minv a j) = true) →
    scanElems map mem ew minv ok n (a + i * ewByteCount ew) = .error e →
    scanElems map mem ew minv ok (i + n) a = .error e := by
  intro i
  induction i with
  | zero => intro a _ _ h; simpa using h
  | succ i ih =>
    intro a hread hok h
    rw [Nat.add_one_mul, Nat.add_comm] at hread
    rw [Nat.add_one_mul, Nat.add_comm _ (ewByteCount ew), ← Nat.add_assoc] at h
    obtain ⟨hfirst, hrest⟩ := readable_add.mp hread
    have hok' : ∀ j < i, ok (storedAt mem ew minv (a + ewByteCount ew) j) = true := fun j hj => by
      rw [storedAt_next]
      exact hok (j + 1) (Nat.succ_lt_succ hj)
    rw [Nat.add_right_comm, scanElems_succ hfirst (hok 0 i.succ_pos), ih hrest hok' h]
    rfl

/-- The loop ends with a value out of bounds when elements 0 to `i` can be read and `i` is the first to fail the test
(60_exceptions R273, R279). -/
theorem scanElems_valueOutOfBounds {n a i : Nat} (hi : i < n) (hread : readable map a ((i + 1) * ewByteCount ew))
    (hok : ∀ j < i, ok (storedAt mem ew minv a j) = true) (hbad : ok (storedAt mem ew minv a i) = false) :
    scanElems map mem ew minv ok n a = .error .valueOutOfBounds := by
  obtain ⟨k, rfl⟩ := Nat.exists_eq_add_of_lt hi
  rw [Nat.add_one_mul, readable_add] at hread
  obtain ⟨hbefore, hhere⟩ := hread
  have helem : elemAt mem (ewByteCount ew) (a + i * ewByteCount ew) 0 = elemAt mem (ewByteCount ew) a i := by
    simp [elemAt]
  rw [Nat.add_assoc]
  refine scanElems_error_of_add hbefore hok ?_
  rw [scanElems, memRead_of_readable hhere, helem]
  exact if_neg (Bool.eq_false_iff.mp hbad)

end

/-- Settles O31: `maxLog2` is the last of ENCODE's checks, and the loops of ENCODE's validation pass and of PACKW stop at the first value
that fails their test. -/
theorem valueOutOfBounds : Obligations.ValueOutOfBounds := by
  refine ⟨fun ew s hlen hrange hne htop => exec_encode_of_check ?_,
    fun ew s i hcalm hlen hrange htop hi hread hfit hbad => ?_, fun ew sel s i _ hcalm hrange hi hread hfit hbad => ?_⟩
  · simpa [encodeCheck, hlen, hrange, htop] using hne
  · have hne : s.srcLen ≠ 0 := fun h0 => by simp [h0] at hi
    have hcheck : encodeCheck ew .current s = none := by simp [encodeCheck, hlen, hrange, Nat.not_lt.mpr htop]
    rw [exec_encode_of_calm hcheck hcalm, encodeRun, if_neg hne, validate_eq_scanElems,
      scanElems_valueOutOfBounds hi hread (fun j hj => decide_eq_true (hfit j hj))
        (decide_eq_false (Nat.not_le.mpr hbad))]
    rfl
  · rw [exec_packw_of_calm hcalm hrange, packwRun, packElems_eq_scanElems, scanElems_valueOutOfBounds hi hread hfit hbad]
    rfl

end Sys2Proof.Machine
end

section
/-! SUPPORT. The registers after a command (60_exceptions R280 to R282): the two forms of the state in which any command ends, without and
with an error. -/

namespace Sys2Proof.Machine

/-- `t` is `s` after the command `i` has ended: failed, with RESULT 0 unless the host disturbed the command (log 11), or completed, with WORD
and MASK kept unless the command writes them; memory and the count of free values are whatever they are (60_exceptions R280, R281). -/
inductive Ending (i : Instr) (s : State) : State → Prop where
  | failed (e : ErrCode) (r : Word) (m : Memory) (n : Nat) (result : s.disturbed = false → r = 0) :
    Ending i s { s.failedWith e with result := r, mem := m, freeCount := n }
  | completed (r w k : Word) (m : Memory) (n : Nat) (word : writesWord i = false → w = s.word)
    (mask : writesMask i = false → k = s.mask) : Ending i s { s.endedWith r w k m with freeCount := n }

@[simp] theorem writesWord_cmpInstr (p : Pred) (fmt : Format) : writesWord (cmpInstr p fmt) = false := by
  cases p <;> rfl

@[simp] theorem writesMask_cmpwInstr (p : Pred) (fmt : Format) : writesMask (cmpwInstr p fmt) = true := by
  cases p <;> rfl

/-! ## The ways to end -/

theorem ending_raiseError (i : Instr) (s : State) (e : ErrCode) : Ending i s (s.raiseError e) :=
  .failed e 0 s.mem s.freeCount fun _ => rfl

theorem ending_raiseLate (i : Instr) (s : State) (dst : Span) (e : ErrCode) : Ending i s (s.raiseLate dst e) :=
  .failed e 0 (s.scramble dst).mem (s.freeCount + 1) fun _ => rfl

theorem ending_complete (i : Instr) (s : State) (r : Word) : Ending i s (s.complete r) :=
  .completed r s.word s.mask s.mem s.freeCount (fun _ => rfl) fun _ => rfl

theorem ending_withMem (i : Instr) (s : State) (m : Memory) (r : Word) : Ending i s ((s.withMem m).complete r) :=
  .completed r s.word s.mask m s.freeCount (fun _ => rfl) fun _ => rfl

/-- A command that is about to access its buffers ends disturbed, with a free RESULT, or as it settles. -/
theorem ending_of_onBuffers {i : Instr} {s t u : State} {b : Buffers} {errs : List ErrCode} {out : Word}
    (hu : Ending i s u) (hout : writesWord i = false → out = s.word) (h : s.onBuffers b errs out u = .next t) :
    Ending i s t := by
  rcases s.onBuffers_cases b errs out u with ⟨_, heq⟩ | ⟨_, hdist, heq⟩ | ⟨_, _, heq⟩ <;> rw [heq] at h <;> cases h
  · rcases s.endDisturbed_spec b.dst errs out with ⟨e, _, hend⟩ | hend <;> rw [hend]
    · exact .failed e _ _ _ fun hcalm => absurd hdist (Bool.eq_false_iff.mp hcalm)
    · exact .completed _ out s.mask _ _ hout fun _ => rfl
  · exact hu

/-- A command that ends at its checks, or starts on its buffers. -/
theorem ending_of_checked {i : Instr} {s t u : State} {check : Option ErrCode} {b : Buffers} {errs : List ErrCode}
    {out : Word} (hu : Ending i s u) (hout : writesWord i = false → out = s.word)
    (h : (match check with
      | some e => Host.Outcome.next (s.raiseError e)
      | none => s.onBuffers b errs out u) = .next t) : Ending i s t := by
  cases check with
  | some e => cases h; exact ending_raiseError i s e
  | none => exact ending_of_onBuffers hu hout h

/-! ## The commands -/

theorem ending_encodeRun (i : Instr) (ew : ElemWidth) (s : State) : Ending i s (encodeRun ew s) := by
  unfold encodeRun
  split
  · exact ending_complete i s 0
  · split
    · exact ending_raiseError i s _
    · split
      · exact ending_raiseLate i s _ _
      · exact ending_withMem i s _ _

theorem ending_decodeRun (i : Instr) (ew : ElemWidth) (fmt : Format) (s : State) : Ending i s (decodeRun ew fmt s) := by
  unfold decodeRun
  split
  · exact ending_raiseLate i s _ _
  · exact ending_withMem i s _ _

theorem ending_countRun (i : Instr) (fmt : Format) (s : State) : Ending i s (countRun fmt s) := by
  unfold countRun
  split
  · exact ending_raiseError i s _
  · exact ending_complete i s _

theorem ending_cmpRun (i : Instr) (p : Pred) (fmt : Format) (s : State) : Ending i s (cmpRun p fmt s) := by
  unfold cmpRun
  split
  · exact .failed _ 0 _ (s.freeCount + 1) fun _ => rfl
  · exact ending_withMem i s _ _

/-- PACKW alone writes WORD (10_state R40). -/
theorem ending_packwRun (ew : ElemWidth) (fmt : Format) (sel : Nat) (s : State) :
    Ending (.packw ew fmt sel) s (packwRun ew sel s) := by
  unfold packwRun
  split
  · exact ending_raiseError _ s _
  · exact .completed _ _ s.mask s.mem s.freeCount nofun fun _ => rfl

/-- Every command that ends, ends in one of the two forms (60_exceptions R280, R281). -/
theorem exec_ending {i : Instr} {s t : State} (h : exec i s = .next t) : Ending i s t := by
  rcases exec_cases i with ⟨ew, fmt, rfl⟩ | ⟨ew, fmt, rfl⟩ | ⟨fmt, rfl⟩ | ⟨p, fmt, rfl⟩ | ⟨ew, fmt, sel, rfl⟩ | ⟨p, fmt, rfl⟩
  · exact ending_of_checked (ending_encodeRun _ ew s) (fun _ => rfl) h
  · exact ending_of_checked (ending_decodeRun _ ew fmt s) (fun _ => rfl) h
  · exact ending_of_checked (ending_countRun _ fmt s) (fun _ => rfl) h
  · rw [exec_cmpInstr] at h
    exact ending_of_checked (ending_cmpRun _ p fmt s) (fun _ => rfl) h
  · exact ending_of_checked (ending_packwRun ew fmt sel s) nofun h
  · rw [exec_cmpwInstr] at h
    cases h
    exact .completed _ s.word _ s.mem s.freeCount (fun _ => rfl) (by simp)

/-- Settles O25: neither form touches another register, and the failed one keeps WORD and MASK. -/
theorem completionFrame : Obligations.CompletionFrame := by
  intro i s t h
  cases exec_ending h with
  | failed e r m n hr => simp +contextual [hr]
  | completed r w k m n hw hk => simpa using ⟨hw, hk⟩

end Sys2Proof.Machine
end

section
/-! SUPPORT. The interrupt output (60_exceptions R283): IRQ after a completion, after a write of a slot and after any turn. -/

namespace Sys2Proof.Machine

/-! ## Completions and slot writes -/

/-- After a completion IRQ is IE, since DONE is 1 (60_exceptions R283). -/
theorem Completion.irq_eq {s t : State} (h : Completion s t) : t.irq = s.ie := by
  rw [State.irq, h.done_eq, h.frame, Bool.and_true]

/-- A write of a slot that lowers IRQ acknowledges DONE, clears IE, or starts a command (60_exceptions R283). -/
theorem writeSlot_lowers_irq {s : State} {o : Nat} {v : Word} (hbefore : s.irq = true)
    (hafter : (s.writeSlot o v).irq = false) :
    o = 0x10 ∧ v.getLsbD 1 = true ∨ o = 0x08 ∧ v.getLsbD 0 = false ∨ o = 0x18 ∧ s.busy = false := by
  obtain ⟨hie, hdone⟩ : s.ie = true ∧ s.done = true := by simpa [State.irq] using hbefore
  rcases writeSlot_cases s o v with h | ⟨ho, h⟩ | ⟨ho, h⟩ | ⟨_, _, h⟩ | ⟨ho, hidle, _⟩ | ⟨_, _, _, _, _, _, _, _, _, _, h⟩
  · simp [h, hbefore] at hafter
  · exact .inr (.inl ⟨ho, by simpa [h, State.irq, hdone] using hafter⟩)
  · exact .inl ⟨ho, by simpa [h, State.irq, hie, hdone] using hafter⟩
  · simp [h, State.irq, hie, hdone] at hafter
  · exact .inr (.inr ⟨ho, hidle⟩)
  · simp [h, State.irq, hie, hdone] at hafter

/-- A write of a slot that raises IRQ sets IE while DONE is 1 (60_exceptions R283). -/
theorem writeSlot_raises_irq {s : State} {o : Nat} {v : Word} (hbefore : s.irq = false)
    (hafter : (s.writeSlot o v).irq = true) : s.done = true ∧ o = 0x08 ∧ v.getLsbD 0 = true := by
  have hclear : s.ie = true → s.done = false := by simpa [State.irq] using hbefore
  rcases writeSlot_cases s o v with h | ⟨ho, h⟩ | ⟨_, h⟩ | ⟨_, _, h⟩ | ⟨_, _, h⟩ | ⟨_, _, _, _, _, _, _, _, _, _, h⟩
  · simp [h, hbefore] at hafter
  · obtain ⟨hv, hdone⟩ : v.getLsbD 0 = true ∧ s.done = true := by simpa [h, State.irq] using hafter
    exact ⟨hdone, ho, hv⟩
  · obtain ⟨hie, hdone, _⟩ : s.ie = true ∧ s.done = true ∧ v.getLsbD 1 = false := by simpa [h, State.irq] using hafter
    simp [hclear hie] at hdone
  · obtain ⟨hie, hdone⟩ : s.ie = true ∧ s.done = true := by simpa [h, State.irq] using hafter
    simp [hclear hie] at hdone
  · simp [h, State.irq] at hafter
  · obtain ⟨hie, hdone⟩ : s.ie = true ∧ s.done = true := by simpa [h, State.irq] using hafter
    simp [hclear hie] at hdone

/-! ## Turns -/

theorem resetEvent_irq (s : State) (b : Buffers) : (s.resetEvent b).irq = false := by
  rw [(s.resetEvent_spec b).1]
  rfl

/-- IRQ after a turn (60_exceptions R283): as before; 0 after reset; as a write of a slot leaves it; or IE, when the turn completes a
command, after the host's write where the two share the turn (10_state R26). -/
theorem takeTurn_irq_cases {s t : State} {x : Turn} (h : takeTurn x s = .next t) :
    t.irq = s.irq ∨ (x = .host .reset ∧ t.irq = false) ∨
      (∃ o v, (x = .host (.regWrite o 64 v) ∨ x = .both o 64 v) ∧ t.irq = (s.writeSlot o v).irq) ∨
      (s.busy = true ∧ x = .engine ∧ t.irq = s.ie) ∨
      (s.busy = true ∧ ∃ o v, x = .both o 64 v ∧ t.irq = (s.writeSlot o v).ie) := by
  cases x with
  | host op =>
    rcases hostTurn_cases h with ⟨o, v, rfl, rfl⟩ | ht | ⟨ht, _⟩ | ⟨rfl, ht⟩ | ⟨ht, _⟩
    · exact .inr (.inr (.inl ⟨o, v, .inl rfl, rfl⟩))
    · rw [ht]; exact .inl rfl
    · rw [ht]; exact .inl rfl
    · rw [ht]; exact .inr (.inl ⟨rfl, resetEvent_irq s _⟩)
    · rw [ht]; exact .inl rfl
  | engine =>
    rcases engineTurn_cases h with ⟨hbusy, hc⟩ | ⟨_, rfl⟩
    · exact .inr (.inr (.inr (.inl ⟨hbusy, rfl, hc.irq_eq⟩)))
    · exact .inl rfl
  | both o w v =>
    obtain ⟨rfl, ⟨hbusy, hc⟩ | ⟨_, rfl⟩⟩ := bothTurn_cases h
    · exact .inr (.inr (.inr (.inr ⟨hbusy, o, v, rfl, hc.irq_eq⟩)))
    · exact .inr (.inr (.inl ⟨o, v, .inr rfl, rfl⟩))

/-- A turn that lowers IRQ is reset, or a write of a slot that does so (60_exceptions R283). -/
theorem takeTurn_lowers_irq {s t : State} {x : Turn} (h : takeTurn x s = .next t) (hbefore : s.irq = true)
    (hafter : t.irq = false) :
    x = .host .reset ∨
      ∃ o v, (x = .host (.regWrite o 64 v) ∨ x = .both o 64 v) ∧ (s.writeSlot o v).irq = false := by
  rcases takeTurn_irq_cases h with ht | ⟨hx, _⟩ | ⟨o, v, hx, ht⟩ | ⟨_, _, ht⟩ | ⟨_, o, v, hx, ht⟩
  · simp [ht, hbefore] at hafter
  · exact .inl hx
  · exact .inr ⟨o, v, hx, ht ▸ hafter⟩
  · have hie : s.ie = true ∧ s.done = true := by simpa [State.irq] using hbefore
    simp [ht, hie] at hafter
  · have hie : (s.writeSlot o v).ie = false := ht ▸ hafter
    exact .inr ⟨o, v, .inr hx, by rw [State.irq, hie, Bool.false_and]⟩

/-- A turn that raises IRQ completes a command, or is a write of a slot that does so (60_exceptions R283). -/
theorem takeTurn_raises_irq {s t : State} {x : Turn} (h : takeTurn x s = .next t) (hbefore : s.irq = false)
    (hafter : t.irq = true) :
    s.busy = true ∧ (x = .engine ∨ ∃ o v, x = .both o 64 v) ∨
      ∃ o v, (x = .host (.regWrite o 64 v) ∨ x = .both o 64 v) ∧ (s.writeSlot o v).irq = true := by
  rcases takeTurn_irq_cases h with ht | ⟨_, ht⟩ | ⟨o, v, hx, ht⟩ | ⟨hbusy, hx, _⟩ | ⟨hbusy, o, v, hx, _⟩
  · simp [ht, hbefore] at hafter
  · simp [ht] at hafter
  · exact .inr ⟨o, v, hx, ht ▸ hafter⟩
  · exact .inl ⟨hbusy, .inl hx⟩
  · exact .inl ⟨hbusy, .inr ⟨o, v, hx⟩⟩

/-- Settles O24: a turn changes IRQ by a completion, by reset, or by a write of CTRL, STATUS or CMD. -/
theorem interrupt : Obligations.Interrupt := by
  refine ⟨fun s => rfl, fun s t hbusy hie h => (engineTurn_completion hbusy h).irq_eq.trans hie,
    fun s v hv => ⟨_, hostRegWrite_status s v, by simp [State.irq, hv]⟩,
    fun s v hv => ⟨_, hostRegWrite_ctrl s v, by simp only [State.irq, hv, Bool.false_and]⟩,
    fun s v hidle => ⟨_, hostRegWrite_cmd_idle hidle v, by simp [State.irq]⟩,
    fun s => ⟨_, rfl, resetEvent_irq s _⟩,
    fun s v hdone hv => ⟨_, hostRegWrite_ctrl s v, by simp [State.irq, hv, hdone]⟩,
    fun s t x h hbefore hafter => ?_, fun s t x h hbefore hafter => ?_⟩
  · exact (takeTurn_lowers_irq h hbefore hafter).imp_right
      fun ⟨o, v, hx, hw⟩ => ⟨o, v, hx, writeSlot_lowers_irq hbefore hw⟩
  · refine (takeTurn_raises_irq h hbefore hafter).imp_right fun ⟨o, v, hx, hw⟩ => ?_
    obtain ⟨hdone, rfl, hv⟩ := writeSlot_raises_irq hbefore hw
    exact ⟨hdone, v, hv, hx⟩

end Sys2Proof.Machine
end

section
/-! SUPPORT. Reset while a command runs (70_reset_and_hazards R301): the bytes of its source range and of the rest of its destination
range. -/

namespace Sys2Proof.Machine

/-- There is no byte past the last address to write, so replacing a range changes nothing there (20_memory R60). -/
theorem Memory.read_replace_past_end (f : Nat → Byte → Byte) {c : Nat} (hc : ¬ c < memSize) :
    ∀ (n a : Nat) (m : Memory), (Memory.replace f a n m).read c = m.read c
  | 0, _, _ => rfl
  | n + 1, a, m => by
    rw [Memory.replace, Memory.read_replace_past_end f hc n (a + 1)]
    by_cases hca : c = a
    · rw [Memory.write_outside _ _ (hca ▸ hc)]
    · exact Memory.read_write_other _ _ hca

section
variable {s : State} {b : Buffers} {a : Nat}

theorem State.resetEvent_mem_of_busy (hbusy : s.busy = true) : (s.resetEvent b).mem =
    s.mem.replace (fun a old => if b.src.has a then old else Config.freeByte s.freeCount a) b.dst.start b.dst.size := by
  rw [State.resetEvent, if_pos hbusy]
  rfl

/-- A byte of the destination range after reset: as it was where it is a byte of the source range too, free otherwise (log 13). -/
theorem State.read_resetEvent_dst (hbusy : s.busy = true) (hwf : s.mem.wf) (ha : a < memSize) (hdst : b.dst.has a = true) :
    (s.resetEvent b).mem.read a = if b.src.has a then s.mem.read a else Config.freeByte s.freeCount a := by
  obtain ⟨hlo, hhi⟩ := (Span.has_iff _ _).mp hdst
  rw [State.resetEvent_mem_of_busy hbusy, Memory.read_replace_inside _ ha _ _ hwf hlo hhi]

/-- A byte of the source range is as it was, in the destination range or not, and past the last address too (R301). -/
theorem State.read_resetEvent_src (hbusy : s.busy = true) (hwf : s.mem.wf) (hsrc : b.src.has a = true) :
    (s.resetEvent b).mem.read a = s.mem.read a := by
  by_cases ha : a < memSize
  · cases hdst : b.dst.has a
    · obtain ⟨_, _, _, hout⟩ := s.resetEvent_spec b
      exact hout a hdst
    · rw [State.read_resetEvent_dst hbusy hwf ha hdst, if_pos hsrc]
  · rw [State.resetEvent_mem_of_busy hbusy, Memory.read_replace_past_end _ ha]

end

/-- Settles O12: after the reset event no command runs, so the engine's turn does nothing; memory differs inside the destination range only,
and there the source bytes are the ones kept. -/
theorem resetDuringCommand : Obligations.ResetDuringCommand := by
  intro s hbusy
  obtain ⟨heq, _, _, hout⟩ := s.resetEvent_spec (runningBuffers s)
  have hidle : (s.resetEvent (runningBuffers s)).busy = false := by rw [heq]; rfl
  refine ⟨_, rfl, hidle, ?_, ?_, engineTurn_eq_self_of_idle hidle, hout,
    fun hwf => ⟨fun a hsrc => ?_, fun a ha hdst hsrc => ?_⟩⟩
  · rw [heq]; rfl
  · rw [heq]; rfl
  · exact State.read_resetEvent_src hbusy hwf hsrc
  · rw [State.read_resetEvent_dst hbusy hwf ha hdst, hsrc]
    rfl

end Sys2Proof.Machine
end
